-- ==== Sys2Proof/Word.lean ====
section
/-!
DEFINITION. The types of words, bytes and register numbers (spec 00_scope.md R8, R10, R11; 10_state.md R20).
A register value, an address and an instruction word are 32 bits, read as signed or unsigned only where an
operation says so (R11). A register number is one of 32 names and never computed with (93_implementation_defined.md U2).
-/

namespace Sys2Proof

/-- A 32-bit value (R8, R11). -/
abbrev Word := BitVec 32

/-- A memory byte (R8). -/
abbrev Byte := BitVec 8

/-- A general register's number, 0 to 31 (R20). -/
abbrev RegIdx := Fin 32

end Sys2Proof
end

