-- ==== Sys2Proof/Config.lean ====
section
/-!
DEFINITION. The parameters the spec leaves to the implementation (00_scope.md R9), and the renderer's open texts.
`Config` is plain data: the machine carries it as one constant field (log 1), so a statement about every state is a
statement about every parameter value. What the renderer prints is not in the spec at all (49_rendering.md R283); those
texts are constants without a body, so no proof can see them.
-/

namespace Sys2Proof

/-- `OOR_POLICY` (20_memory.md R58): a multi-byte access partly in range is out of range as a whole, or byte by byte. -/
inductive OorPolicy where
  | whole
  | perByte
  deriving DecidableEq, Repr

/-- `CSR_INDEX_EXT` (48_system.md R262): how CSRRS extends its 12-bit CSR number. -/
inductive CsrIndexExt where
  | zext
  | sext
  deriving DecidableEq, Repr

/-- `HALT_REASON_TEXT` (10_state.md R31): the text of each value of the halt reason. -/
structure HaltTexts where
  whenRunning : String
  illegalInstruction : String
  environmentCall : String
  environmentBreak : String
  deriving DecidableEq, Repr

/-- The parameters of 00_scope.md R9 that concern the core. -/
structure Config where
  /-- `MEM_SIZE`: the requested memory size in bytes (20_memory.md R51). -/
  memSize : Nat
  /-- `MEM_FILL`: the byte every cell holds at creation (10_state.md R36). -/
  memFill : Byte
  /-- `REG_RESET_FILL`: what x1 to x31 hold after reset (10_state.md R24). -/
  regResetFill : Word
  oorPolicy : OorPolicy
  /-- `FUNCT7_STRICT` (30_encoding.md R109). -/
  funct7Strict : Bool
  /-- `JALR_LINK_FIRST` (42_jumps.md R162). -/
  jalrLinkFirst : Bool
  csrIndexExt : CsrIndexExt
  haltTexts : HaltTexts
  deriving DecidableEq, Repr

namespace Config

/-- `MNEMONIC_WIDTH` (49_rendering.md R282, R283): open. -/
opaque mnemonicWidth : Nat

/-- `ILLEGAL_MARKER` (49_rendering.md R284): one fixed text, open. -/
opaque illegalMarker : String

/-- The string the hardware prints for an instruction, given the opcode table's mnemonic: open (R283). -/
opaque mnemonicText : String → String

/-- How a register operand is written: open (R283). -/
opaque registerText : RegIdx → String

/-- How an absolute target address is written: open (R283). -/
opaque targetText : Word → String

/-- How an immediate attached to a base register is written: open (R283). -/
opaque immediateWithBaseText : Word → RegIdx → String

/-- What stands after each comma between operands (a space or nothing): open (R283). -/
opaque commaPad : String

/-- The operands of an instruction whose operand shape the spec does not state (R282: LUI, AUIPC, CSRRS, the
register-immediate ALU operations), given its address and its word, in order: open. Any of R282 (c)'s three shapes is
possible, an absolute target among them, or another (91_not_in_source.md N21; log 20). -/
opaque unstatedOperandTexts : Word → Word → List String

/-- What stands before the rendered instruction in a trace line, given the pc and the word: both in hexadecimal, or
nothing, or something else (R283; 91_not_in_source.md N21; log 21). Open; that it depends on no more than these two is
the model's choice. -/
opaque traceLead : Word → Word → String

end Config

end Sys2Proof
end

