-- ==== Sys2Proof/Machine/Params.lean ====
section
/-!
DEFINITION. What is computed from the parameters of 00_scope.md R9, what a lawful choice of them is, and the
values `State.reset` takes.
-/

namespace Sys2Proof

/-- `CAPACITY`: the requested size rounded up to a multiple of 16 (20_memory.md R51; log 3). -/
def Config.capacity (c : Config) : Nat := 16 * ((c.memSize + 15) / 16)

/-- The three halt reasons render to three different texts (10_state.md R31). -/
abbrev HaltTexts.Distinct (t : HaltTexts) : Prop :=
  t.illegalInstruction ≠ t.environmentCall ∧ t.illegalInstruction ≠ t.environmentBreak ∧
    t.environmentCall ≠ t.environmentBreak

/-- A lawful choice of parameters: every in-range address is a 32-bit address (20_memory.md R51), and the halt
texts differ (10_state.md R31). -/
abbrev Config.Lawful (c : Config) : Prop := c.capacity ≤ 2 ^ 32 ∧ c.haltTexts.Distinct

/-- The parameters `State.reset` has: the defaults of 00_scope.md R9 where it gives one.
DESIGN CHOICE: `memSize` (log 2) and the four texts (log 10), which the spec leaves open. -/
def Config.default : Config where
  memSize := 0x10000
  memFill := 0xA5
  regResetFill := 0xF0F0F0F0
  oorPolicy := .whole
  funct7Strict := false
  jalrLinkFirst := true
  csrIndexExt := .zext
  haltTexts :=
    { whenRunning := "None"
      illegalInstruction := "IllegalInstruction"
      environmentCall := "EnvironmentCall"
      environmentBreak := "EnvironmentBreak" }

end Sys2Proof
end

