-- ==== Sys2Proof/Syntax.lean ====
section
/-!
DEFINITION. The instructions: one constructor for each row of spec/opcode_table.json (30_encoding.md R104).
Operands are the fields of the encoding: register numbers, the immediates at the width they are encoded with
(their extension to 32 bits is part of the meaning), branch and jump offsets with their always-zero bit 0.
-/

namespace Sys2Proof

/-- The 40 instructions of 30_encoding.md R104, in the opcode table's order. -/
inductive Instr where
  -- upper immediate (R150, R151): the immediate's upper 20 bits
  | lui (rd : RegIdx) (imm20 : BitVec 20)
  | auipc (rd : RegIdx) (imm20 : BitVec 20)
  -- jumps (R161, R162)
  | jal (rd : RegIdx) (offset : BitVec 21)
  | jalr (rd rs1 : RegIdx) (imm : BitVec 12)
  -- branches (R170 to R176)
  | beq (rs1 rs2 : RegIdx) (offset : BitVec 13)
  | bne (rs1 rs2 : RegIdx) (offset : BitVec 13)
  | blt (rs1 rs2 : RegIdx) (offset : BitVec 13)
  | bge (rs1 rs2 : RegIdx) (offset : BitVec 13)
  | bltu (rs1 rs2 : RegIdx) (offset : BitVec 13)
  | bgeu (rs1 rs2 : RegIdx) (offset : BitVec 13)
  -- loads (R190 to R195)
  | lb (rd rs1 : RegIdx) (imm : BitVec 12)
  | lh (rd rs1 : RegIdx) (imm : BitVec 12)
  | lw (rd rs1 : RegIdx) (imm : BitVec 12)
  | lbu (rd rs1 : RegIdx) (imm : BitVec 12)
  | lhu (rd rs1 : RegIdx) (imm : BitVec 12)
  -- stores (R210 to R213): rs1 is the base, rs2 the data
  | sb (rs1 rs2 : RegIdx) (imm : BitVec 12)
  | sh (rs1 rs2 : RegIdx) (imm : BitVec 12)
  | sw (rs1 rs2 : RegIdx) (imm : BitVec 12)
  -- register-immediate (R220 to R229)
  | addi (rd rs1 : RegIdx) (imm : BitVec 12)
  | slti (rd rs1 : RegIdx) (imm : BitVec 12)
  | sltiu (rd rs1 : RegIdx) (imm : BitVec 12)
  | xori (rd rs1 : RegIdx) (imm : BitVec 12)
  | ori (rd rs1 : RegIdx) (imm : BitVec 12)
  | andi (rd rs1 : RegIdx) (imm : BitVec 12)
  | slli (rd rs1 : RegIdx) (shamt : BitVec 5)
  | srli (rd rs1 : RegIdx) (shamt : BitVec 5)
  | srai (rd rs1 : RegIdx) (shamt : BitVec 5)
  -- register-register (R240 to R250)
  | add (rd rs1 rs2 : RegIdx)
  | sub (rd rs1 rs2 : RegIdx)
  | sll (rd rs1 rs2 : RegIdx)
  | slt (rd rs1 rs2 : RegIdx)
  | sltu (rd rs1 rs2 : RegIdx)
  | xor (rd rs1 rs2 : RegIdx)
  | srl (rd rs1 rs2 : RegIdx)
  | sra (rd rs1 rs2 : RegIdx)
  | or (rd rs1 rs2 : RegIdx)
  | and (rd rs1 rs2 : RegIdx)
  -- system (R260 to R262)
  | ecall
  | ebreak
  | csrrs (rd rs1 : RegIdx) (csr : BitVec 12)
  deriving DecidableEq, Repr

end Sys2Proof
end

