-- ==== Sys2Proof/WellFormed.lean ====
section
/-!
DEFINITION. Which instruction terms stand for an encodable instruction: a branch or jump offset has bit 0 clear
(30_encoding.md R99, R101 force it). Every other operand is bounded by its type.
-/

namespace Sys2Proof

/-- Bit 0 of an offset is 0 (R99, R101). -/
def evenOffset {n : Nat} (offset : BitVec n) : Bool := !offset.getLsbD 0

/-- The instruction has an encoding: its offset, if it has one, is even. -/
def Instr.WellFormed : Instr → Bool
  | .jal _ offset => evenOffset offset
  | .beq _ _ offset => evenOffset offset
  | .bne _ _ offset => evenOffset offset
  | .blt _ _ offset => evenOffset offset
  | .bge _ _ offset => evenOffset offset
  | .bltu _ _ offset => evenOffset offset
  | .bgeu _ _ offset => evenOffset offset
  | .lui _ _ => true
  | .auipc _ _ => true
  | .jalr _ _ _ => true
  | .lb _ _ _ => true
  | .lh _ _ _ => true
  | .lw _ _ _ => true
  | .lbu _ _ _ => true
  | .lhu _ _ _ => true
  | .sb _ _ _ => true
  | .sh _ _ _ => true
  | .sw _ _ _ => true
  | .addi _ _ _ => true
  | .slti _ _ _ => true
  | .sltiu _ _ _ => true
  | .xori _ _ _ => true
  | .ori _ _ _ => true
  | .andi _ _ _ => true
  | .slli _ _ _ => true
  | .srli _ _ _ => true
  | .srai _ _ _ => true
  | .add _ _ _ => true
  | .sub _ _ _ => true
  | .sll _ _ _ => true
  | .slt _ _ _ => true
  | .sltu _ _ _ => true
  | .xor _ _ _ => true
  | .srl _ _ _ => true
  | .sra _ _ _ => true
  | .or _ _ _ => true
  | .and _ _ _ => true
  | .ecall => true
  | .ebreak => true
  | .csrrs _ _ _ => true

end Sys2Proof
end

