-- ==== Sys2Proof/Decode.lean ====
section
/-!
DEFINITION. From words to instructions and back (30_encoding.md): the field functions, the five immediates, the
dispatch tree opcode, funct3, funct7, and an encoder written from the same format table. Every numeric value of
opcode, funct3 and funct7 is the spec's, which marks them as general knowledge of RV32I (log 11).
-/

namespace Sys2Proof

/-! ### Fields (R91 to R96) -/

def opcodeField (w : Word) : BitVec 7 := w.extractLsb' 0 7
def rdField (w : Word) : RegIdx := (w.extractLsb' 7 5).toFin
def funct3Field (w : Word) : BitVec 3 := w.extractLsb' 12 3
def rs1Field (w : Word) : RegIdx := (w.extractLsb' 15 5).toFin
def rs2Field (w : Word) : RegIdx := (w.extractLsb' 20 5).toFin
def funct7Field (w : Word) : BitVec 7 := w.extractLsb' 25 7

/-- The shift amount of the shift-immediate instructions, `insn[24:20]` (R102, R227). -/
def shamtField (w : Word) : BitVec 5 := w.extractLsb' 20 5

/-- The CSR number, `insn[31:20]` (48_system.md R262). -/
def csrField (w : Word) : BitVec 12 := w.extractLsb' 20 12

/-! ### The immediates' bits, before extension (R97 to R101) -/

def bitsI (w : Word) : BitVec 12 := w.extractLsb' 20 12
def bitsS (w : Word) : BitVec 12 := w.extractLsb' 25 7 ++ w.extractLsb' 7 5
def bitsB (w : Word) : BitVec 13 :=
  w.extractLsb' 31 1 ++ w.extractLsb' 7 1 ++ w.extractLsb' 25 6 ++ w.extractLsb' 8 4 ++ 0#1
def bitsU (w : Word) : BitVec 20 := w.extractLsb' 12 20
def bitsJ (w : Word) : BitVec 21 :=
  w.extractLsb' 31 1 ++ w.extractLsb' 12 8 ++ w.extractLsb' 20 1 ++ w.extractLsb' 21 10 ++ 0#1

/-! ### The immediates as 32-bit values (R97 to R101); total on every word (R103) -/

def immI (w : Word) : Word := (bitsI w).signExtend 32
def immS (w : Word) : Word := (bitsS w).signExtend 32
def immB (w : Word) : Word := (bitsB w).signExtend 32
def immU (w : Word) : Word := bitsU w ++ 0#12
def immJ (w : Word) : Word := (bitsJ w).signExtend 32

/-! ### The dispatch tree (R105 to R110) -/

/-- Why a word (or a byte sequence) is no instruction: which default branch of the dispatch tree it takes (R108).
All of them have the same outcome when executed (40_fetch_dispatch.md R135). -/
inductive DecodeError where
  /-- No class has this opcode. -/
  | unknownOpcode
  /-- The class has no instruction with this funct3. -/
  | unknownFunct3
  /-- The funct7 is examined and is no instruction's. -/
  | unknownFunct7
  /-- System opcode, funct3 000, and neither ECALL's word nor EBREAK's (R107). -/
  | unknownSystemWord
  /-- Fewer than four bytes: the word decoder itself never answers this. -/
  | truncated
  deriving DecidableEq, Repr

/-- `funct7` where the tree does not dispatch on it (R109): ignored, unless `FUNCT7_STRICT` asks for zero. -/
def unexaminedFunct7 (strict : Bool) (w : Word) (i : Instr) : Except DecodeError Instr :=
  if strict && funct7Field w != 0b0000000#7 then .error .unknownFunct7 else .ok i

/-- `funct7` where two instructions share a funct3 (R106): 0000000 or 0100000, nothing else. -/
def examinedFunct7 (w : Word) (plain alternate : Instr) : Except DecodeError Instr :=
  if funct7Field w = 0b0000000#7 then .ok plain
  else if funct7Field w = 0b0100000#7 then .ok alternate
  else .error .unknownFunct7

/-- JALR's class (R110): funct3 must be 000. -/
def decodeJalr (w : Word) : Except DecodeError Instr :=
  if funct3Field w = 0b000#3 then .ok (.jalr (rdField w) (rs1Field w) (bitsI w))
  else .error .unknownFunct3

def decodeBranch (w : Word) : Except DecodeError Instr :=
  let rs1 := rs1Field w
  let rs2 := rs2Field w
  let offset := bitsB w
  if funct3Field w = 0b000#3 then .ok (.beq rs1 rs2 offset)
  else if funct3Field w = 0b001#3 then .ok (.bne rs1 rs2 offset)
  else if funct3Field w = 0b100#3 then .ok (.blt rs1 rs2 offset)
  else if funct3Field w = 0b101#3 then .ok (.bge rs1 rs2 offset)
  else if funct3Field w = 0b110#3 then .ok (.bltu rs1 rs2 offset)
  else if funct3Field w = 0b111#3 then .ok (.bgeu rs1 rs2 offset)
  else .error .unknownFunct3

def decodeLoad (w : Word) : Except DecodeError Instr :=
  let rd := rdField w
  let rs1 := rs1Field w
  let imm := bitsI w
  if funct3Field w = 0b000#3 then .ok (.lb rd rs1 imm)
  else if funct3Field w = 0b001#3 then .ok (.lh rd rs1 imm)
  else if funct3Field w = 0b010#3 then .ok (.lw rd rs1 imm)
  else if funct3Field w = 0b100#3 then .ok (.lbu rd rs1 imm)
  else if funct3Field w = 0b101#3 then .ok (.lhu rd rs1 imm)
  else .error .unknownFunct3

def decodeStore (w : Word) : Except DecodeError Instr :=
  let rs1 := rs1Field w
  let rs2 := rs2Field w
  let imm := bitsS w
  if funct3Field w = 0b000#3 then .ok (.sb rs1 rs2 imm)
  else if funct3Field w = 0b001#3 then .ok (.sh rs1 rs2 imm)
  else if funct3Field w = 0b010#3 then .ok (.sw rs1 rs2 imm)
  else .error .unknownFunct3

def decodeAluImmediate (strict : Bool) (w : Word) : Except DecodeError Instr :=
  let rd := rdField w
  let rs1 := rs1Field w
  let imm := bitsI w
  let shamt := shamtField w
  if funct3Field w = 0b000#3 then .ok (.addi rd rs1 imm)
  else if funct3Field w = 0b001#3 then unexaminedFunct7 strict w (.slli rd rs1 shamt)
  else if funct3Field w = 0b010#3 then .ok (.slti rd rs1 imm)
  else if funct3Field w = 0b011#3 then .ok (.sltiu rd rs1 imm)
  else if funct3Field w = 0b100#3 then .ok (.xori rd rs1 imm)
  else if funct3Field w = 0b101#3 then examinedFunct7 w (.srli rd rs1 shamt) (.srai rd rs1 shamt)
  else if funct3Field w = 0b110#3 then .ok (.ori rd rs1 imm)
  else .ok (.andi rd rs1 imm)

def decodeAluRegister (strict : Bool) (w : Word) : Except DecodeError Instr :=
  let rd := rdField w
  let rs1 := rs1Field w
  let rs2 := rs2Field w
  if funct3Field w = 0b000#3 then examinedFunct7 w (.add rd rs1 rs2) (.sub rd rs1 rs2)
  else if funct3Field w = 0b001#3 then unexaminedFunct7 strict w (.sll rd rs1 rs2)
  else if funct3Field w = 0b010#3 then unexaminedFunct7 strict w (.slt rd rs1 rs2)
  else if funct3Field w = 0b011#3 then unexaminedFunct7 strict w (.sltu rd rs1 rs2)
  else if funct3Field w = 0b100#3 then unexaminedFunct7 strict w (.xor rd rs1 rs2)
  else if funct3Field w = 0b101#3 then examinedFunct7 w (.srl rd rs1 rs2) (.sra rd rs1 rs2)
  else if funct3Field w = 0b110#3 then unexaminedFunct7 strict w (.or rd rs1 rs2)
  else unexaminedFunct7 strict w (.and rd rs1 rs2)

/-- The system class (R107, R262, R263): whole-word match for funct3 000, CSRRS for 010, nothing else. -/
def decodeSystem (w : Word) : Except DecodeError Instr :=
  if funct3Field w = 0b000#3 then
    if w = 0x00000073#32 then .ok .ecall
    else if w = 0x00100073#32 then .ok .ebreak
    else .error .unknownSystemWord
  else if funct3Field w = 0b010#3 then .ok (.csrrs (rdField w) (rs1Field w) (csrField w))
  else .error .unknownFunct3

/-- The decoder (R105): total on every word (R103). `strict` is `FUNCT7_STRICT` (R109). -/
def decode (strict : Bool) (w : Word) : Except DecodeError Instr :=
  if opcodeField w = 0b0110111#7 then .ok (.lui (rdField w) (bitsU w))
  else if opcodeField w = 0b0010111#7 then .ok (.auipc (rdField w) (bitsU w))
  else if opcodeField w = 0b1101111#7 then .ok (.jal (rdField w) (bitsJ w))
  else if opcodeField w = 0b1100111#7 then decodeJalr w
  else if opcodeField w = 0b1100011#7 then decodeBranch w
  else if opcodeField w = 0b0000011#7 then decodeLoad w
  else if opcodeField w = 0b0100011#7 then decodeStore w
  else if opcodeField w = 0b0010011#7 then decodeAluImmediate strict w
  else if opcodeField w = 0b0110011#7 then decodeAluRegister strict w
  else if opcodeField w = 0b1110011#7 then decodeSystem w
  else .error .unknownOpcode

/-- The little-endian word of four bytes, the first at the lowest address (20_memory.md R53). -/
def wordOfBytes (b0 b1 b2 b3 : Byte) : Word := b3 ++ b2 ++ b1 ++ b0

/-- The four bytes of a word as memory holds them, lowest address first (R53). -/
def bytesOfWord (w : Word) : List Byte :=
  [w.extractLsb' 0 8, w.extractLsb' 8 8, w.extractLsb' 16 8, w.extractLsb' 24 8]

/-- Decoding from bytes: every instruction is four of them (R90). -/
def decodeBytes (strict : Bool) : List Byte → Except DecodeError (Instr × List Byte)
  | b0 :: b1 :: b2 :: b3 :: rest => (decode strict (wordOfBytes b0 b1 b2 b3)).map (·, rest)
  | _ => .error .truncated

/-- The instruction the decoder reads from a word numbered as spec/opcode_table.json numbers it; bits above `nbits`
are zero. `FUNCT7_STRICT` has its default. -/
def decodeTableWord (nbits w : Nat) : Option Instr :=
  match decodeBytes Config.default.funct7Strict (bytesOfWord (BitVec.ofNat 32 (w % 2 ^ nbits))) with
  | .ok (i, _) => some i
  | .error _ => none

/-! ### The encoder: the six formats (R102) and the words of each instruction (R105 to R107) -/

/-- A register number's five bits. -/
def regBits (r : RegIdx) : BitVec 5 := BitVec.ofFin r

def encodeR (funct7 : BitVec 7) (rs2 rs1 : RegIdx) (funct3 : BitVec 3) (rd : RegIdx) (opcode : BitVec 7) : Word :=
  funct7 ++ regBits rs2 ++ regBits rs1 ++ funct3 ++ regBits rd ++ opcode

def encodeI (imm : BitVec 12) (rs1 : RegIdx) (funct3 : BitVec 3) (rd : RegIdx) (opcode : BitVec 7) : Word :=
  imm ++ regBits rs1 ++ funct3 ++ regBits rd ++ opcode

/-- Format I with `imm_i[11:5]` as a selector and `imm_i[4:0]` as a shift amount (R102). -/
def encodeShift (funct7 : BitVec 7) (shamt : BitVec 5) (rs1 : RegIdx) (funct3 : BitVec 3) (rd : RegIdx)
    (opcode : BitVec 7) : Word :=
  funct7 ++ shamt ++ regBits rs1 ++ funct3 ++ regBits rd ++ opcode

def encodeS (imm : BitVec 12) (rs2 rs1 : RegIdx) (funct3 : BitVec 3) (opcode : BitVec 7) : Word :=
  imm.extractLsb' 5 7 ++ regBits rs2 ++ regBits rs1 ++ funct3 ++ imm.extractLsb' 0 5 ++ opcode

def encodeB (offset : BitVec 13) (rs2 rs1 : RegIdx) (funct3 : BitVec 3) (opcode : BitVec 7) : Word :=
  offset.extractLsb' 12 1 ++ offset.extractLsb' 5 6 ++ regBits rs2 ++ regBits rs1 ++ funct3 ++
    offset.extractLsb' 1 4 ++ offset.extractLsb' 11 1 ++ opcode

def encodeU (imm20 : BitVec 20) (rd : RegIdx) (opcode : BitVec 7) : Word := imm20 ++ regBits rd ++ opcode

def encodeJ (offset : BitVec 21) (rd : RegIdx) (opcode : BitVec 7) : Word :=
  offset.extractLsb' 20 1 ++ offset.extractLsb' 1 10 ++ offset.extractLsb' 11 1 ++ offset.extractLsb' 12 8 ++
    regBits rd ++ opcode

/-- The word of an instruction. Where funct7 is not examined (R109) the encoder writes 0000000, the value RV32I gives;
an ill-formed offset loses its bit 0. -/
def encode : Instr → Word
  | .lui rd imm20 => encodeU imm20 rd 0b0110111
  | .auipc rd imm20 => encodeU imm20 rd 0b0010111
  | .jal rd offset => encodeJ offset rd 0b1101111
  | .jalr rd rs1 imm => encodeI imm rs1 0b000 rd 0b1100111
  | .beq rs1 rs2 offset => encodeB offset rs2 rs1 0b000 0b1100011
  | .bne rs1 rs2 offset => encodeB offset rs2 rs1 0b001 0b1100011
  | .blt rs1 rs2 offset => encodeB offset rs2 rs1 0b100 0b1100011
  | .bge rs1 rs2 offset => encodeB offset rs2 rs1 0b101 0b1100011
  | .bltu rs1 rs2 offset => encodeB offset rs2 rs1 0b110 0b1100011
  | .bgeu rs1 rs2 offset => encodeB offset rs2 rs1 0b111 0b1100011
  | .lb rd rs1 imm => encodeI imm rs1 0b000 rd 0b0000011
  | .lh rd rs1 imm => encodeI imm rs1 0b001 rd 0b0000011
  | .lw rd rs1 imm => encodeI imm rs1 0b010 rd 0b0000011
  | .lbu rd rs1 imm => encodeI imm rs1 0b100 rd 0b0000011
  | .lhu rd rs1 imm => encodeI imm rs1 0b101 rd 0b0000011
  | .sb rs1 rs2 imm => encodeS imm rs2 rs1 0b000 0b0100011
  | .sh rs1 rs2 imm => encodeS imm rs2 rs1 0b001 0b0100011
  | .sw rs1 rs2 imm => encodeS imm rs2 rs1 0b010 0b0100011
  | .addi rd rs1 imm => encodeI imm rs1 0b000 rd 0b0010011
  | .slti rd rs1 imm => encodeI imm rs1 0b010 rd 0b0010011
  | .sltiu rd rs1 imm => encodeI imm rs1 0b011 rd 0b0010011
  | .xori rd rs1 imm => encodeI imm rs1 0b100 rd 0b0010011
  | .ori rd rs1 imm => encodeI imm rs1 0b110 rd 0b0010011
  | .andi rd rs1 imm => encodeI imm rs1 0b111 rd 0b0010011
  | .slli rd rs1 shamt => encodeShift 0b0000000 shamt rs1 0b001 rd 0b0010011
  | .srli rd rs1 shamt => encodeShift 0b0000000 shamt rs1 0b101 rd 0b0010011
  | .srai rd rs1 shamt => encodeShift 0b0100000 shamt rs1 0b101 rd 0b0010011
  | .add rd rs1 rs2 => encodeR 0b0000000 rs2 rs1 0b000 rd 0b0110011
  | .sub rd rs1 rs2 => encodeR 0b0100000 rs2 rs1 0b000 rd 0b0110011
  | .sll rd rs1 rs2 => encodeR 0b0000000 rs2 rs1 0b001 rd 0b0110011
  | .slt rd rs1 rs2 => encodeR 0b0000000 rs2 rs1 0b010 rd 0b0110011
  | .sltu rd rs1 rs2 => encodeR 0b0000000 rs2 rs1 0b011 rd 0b0110011
  | .xor rd rs1 rs2 => encodeR 0b0000000 rs2 rs1 0b100 rd 0b0110011
  | .srl rd rs1 rs2 => encodeR 0b0000000 rs2 rs1 0b101 rd 0b0110011
  | .sra rd rs1 rs2 => encodeR 0b0100000 rs2 rs1 0b101 rd 0b0110011
  | .or rd rs1 rs2 => encodeR 0b0000000 rs2 rs1 0b110 rd 0b0110011
  | .and rd rs1 rs2 => encodeR 0b0000000 rs2 rs1 0b111 rd 0b0110011
  | .ecall => 0x00000073
  | .ebreak => 0x00100073
  | .csrrs rd rs1 csr => encodeI csr rs1 0b010 rd 0b1110011

/-- An instruction's mnemonic in spec/opcode_table.json (R104, R112). -/
def Instr.mnemonic : Instr → String
  | .lui _ _ => "LUI"
  | .auipc _ _ => "AUIPC"
  | .jal _ _ => "JAL"
  | .jalr _ _ _ => "JALR"
  | .beq _ _ _ => "BEQ"
  | .bne _ _ _ => "BNE"
  | .blt _ _ _ => "BLT"
  | .bge _ _ _ => "BGE"
  | .bltu _ _ _ => "BLTU"
  | .bgeu _ _ _ => "BGEU"
  | .lb _ _ _ => "LB"
  | .lh _ _ _ => "LH"
  | .lw _ _ _ => "LW"
  | .lbu _ _ _ => "LBU"
  | .lhu _ _ _ => "LHU"
  | .sb _ _ _ => "SB"
  | .sh _ _ _ => "SH"
  | .sw _ _ _ => "SW"
  | .addi _ _ _ => "ADDI"
  | .slti _ _ _ => "SLTI"
  | .sltiu _ _ _ => "SLTIU"
  | .xori _ _ _ => "XORI"
  | .ori _ _ _ => "ORI"
  | .andi _ _ _ => "ANDI"
  | .slli _ _ _ => "SLLI"
  | .srli _ _ _ => "SRLI"
  | .srai _ _ _ => "SRAI"
  | .add _ _ _ => "ADD"
  | .sub _ _ _ => "SUB"
  | .sll _ _ _ => "SLL"
  | .slt _ _ _ => "SLT"
  | .sltu _ _ _ => "SLTU"
  | .xor _ _ _ => "XOR"
  | .srl _ _ _ => "SRL"
  | .sra _ _ _ => "SRA"
  | .or _ _ _ => "OR"
  | .and _ _ _ => "AND"
  | .ecall => "ECALL"
  | .ebreak => "EBREAK"
  | .csrrs _ _ _ => "CSRRS"

/-! ### The opcode table (spec/opcode_table.json) -/

/-- One row of spec/opcode_table.json: a word is the row's where `word &&& mask = value`. -/
structure OpcodeRow where
  mnemonic : String
  value : Word
  mask : Word
  deriving DecidableEq, Repr

def upperTable : List OpcodeRow :=
  [⟨"LUI", 0x00000037, 0x0000007F⟩,
   ⟨"AUIPC", 0x00000017, 0x0000007F⟩]

def jumpTable : List OpcodeRow :=
  [⟨"JAL", 0x0000006F, 0x0000007F⟩,
   ⟨"JALR", 0x00000067, 0x0000707F⟩]

def branchTable : List OpcodeRow :=
  [⟨"BEQ", 0x00000063, 0x0000707F⟩,
   ⟨"BNE", 0x00001063, 0x0000707F⟩,
   ⟨"BLT", 0x00004063, 0x0000707F⟩,
   ⟨"BGE", 0x00005063, 0x0000707F⟩,
   ⟨"BLTU", 0x00006063, 0x0000707F⟩,
   ⟨"BGEU", 0x00007063, 0x0000707F⟩]

def loadTable : List OpcodeRow :=
  [⟨"LB", 0x00000003, 0x0000707F⟩,
   ⟨"LH", 0x00001003, 0x0000707F⟩,
   ⟨"LW", 0x00002003, 0x0000707F⟩,
   ⟨"LBU", 0x00004003, 0x0000707F⟩,
   ⟨"LHU", 0x00005003, 0x0000707F⟩]

def storeTable : List OpcodeRow :=
  [⟨"SB", 0x00000023, 0x0000707F⟩,
   ⟨"SH", 0x00001023, 0x0000707F⟩,
   ⟨"SW", 0x00002023, 0x0000707F⟩]

def aluImmediateTable : List OpcodeRow :=
  [⟨"ADDI", 0x00000013, 0x0000707F⟩,
   ⟨"SLTI", 0x00002013, 0x0000707F⟩,
   ⟨"SLTIU", 0x00003013, 0x0000707F⟩,
   ⟨"XORI", 0x00004013, 0x0000707F⟩,
   ⟨"ORI", 0x00006013, 0x0000707F⟩,
   ⟨"ANDI", 0x00007013, 0x0000707F⟩,
   ⟨"SLLI", 0x00001013, 0x0000707F⟩,
   ⟨"SRLI", 0x00005013, 0xFE00707F⟩,
   ⟨"SRAI", 0x40005013, 0xFE00707F⟩]

def aluRegisterTable : List OpcodeRow :=
  [⟨"ADD", 0x00000033, 0xFE00707F⟩,
   ⟨"SUB", 0x40000033, 0xFE00707F⟩,
   ⟨"SLL", 0x00001033, 0x0000707F⟩,
   ⟨"SLT", 0x00002033, 0x0000707F⟩,
   ⟨"SLTU", 0x00003033, 0x0000707F⟩,
   ⟨"XOR", 0x00004033, 0x0000707F⟩,
   ⟨"SRL", 0x00005033, 0xFE00707F⟩,
   ⟨"SRA", 0x40005033, 0xFE00707F⟩,
   ⟨"OR", 0x00006033, 0x0000707F⟩,
   ⟨"AND", 0x00007033, 0x0000707F⟩]

def systemTable : List OpcodeRow :=
  [⟨"ECALL", 0x00000073, 0xFFFFFFFF⟩,
   ⟨"EBREAK", 0x00100073, 0xFFFFFFFF⟩,
   ⟨"CSRRS", 0x00002073, 0x0000707F⟩]

/-- The 40 rows, with `FUNCT7_STRICT = false` (30_encoding.md R109). -/
def opcodeTable : List OpcodeRow :=
  upperTable ++ jumpTable ++ branchTable ++ loadTable ++ storeTable ++ aluImmediateTable ++ aluRegisterTable ++ systemTable

end Sys2Proof
end

