-- ==== Sys2Proof/Machine/Flags.lean ====
section
/-!
DEFINITION. The hardware has no flags (10_state.md R29): what a flag would carry elsewhere is a comparison result,
written to a register as 0 or 1 or deciding a branch. This file holds those comparisons and the shifts (00_scope.md R13).
-/

namespace Sys2Proof.Machine

/-- `bool(c)` (R13): the 32-bit value 1 or 0 (46_alu_immediate.md R230 (d)). -/
def boolWord (c : Bool) : Word := if c then 1 else 0

/-- `a <s b` (R13). -/
def lessSigned (a b : Word) : Bool := decide (a.toInt < b.toInt)

/-- `a <u b` (R13). -/
def lessUnsigned (a b : Word) : Bool := decide (a.toNat < b.toNat)

/-- `a << n` (R13). -/
def shiftLeft (a : Word) (n : BitVec 5) : Word := a <<< n.toNat

/-- `a >>u n` (R13): zeros enter at bit 31. -/
def shiftRightLogical (a : Word) (n : BitVec 5) : Word := a >>> n.toNat

/-- `a >>s n` (R13): copies of bit 31 enter at bit 31. -/
def shiftRightArithmetic (a : Word) (n : BitVec 5) : Word := a.sshiftRight n.toNat

end Sys2Proof.Machine
end

