-- ==== Sys2Proof/Machine/Memory.lean ====
section
/-!
DEFINITION. The byte array (10_state.md R35, R36) as plain data: a list of (address, byte) pairs with addresses
strictly rising and no entry equal to the byte an unlisted address holds, which is `MEM_FILL` (R36; log 24).
Bounds are checked by the accesses of Ops.lean, not here.
-/

namespace Sys2Proof.Machine

abbrev Memory := List Host.Cell

/-- The byte of one cell; an unlisted one holds the creation fill (R36). -/
def Memory.get (fill : Byte) : Memory → Nat → Byte
  | [], _ => fill
  | (k, c) :: rest, a => if a = k then c else Memory.get fill rest a

/-- Write one cell, keeping the canonical form: writing the fill removes the entry. -/
def Memory.set (fill : Byte) : Memory → Nat → Byte → Memory
  | [], a, b => if b = fill then [] else [(a, b)]
  | (k, c) :: rest, a, b =>
    if a < k then
      if b = fill then (k, c) :: rest else (a, b) :: (k, c) :: rest
    else if a = k then
      if b = fill then rest else (a, b) :: rest
    else (k, c) :: Memory.set fill rest a b

/-- Write several cells, in the list's order. -/
def Memory.setAll (fill : Byte) (m : Memory) (cells : List Host.Cell) : Memory :=
  cells.foldl (fun m c => Memory.set fill m c.1 c.2) m

/-- The canonical form: addresses strictly rising and inside the array, no entry equal to the fill. -/
abbrev Memory.wf (fill : Byte) (capacity : Nat) (m : Memory) : Prop :=
  m.Pairwise (fun c d => c.1 < d.1) ∧ ∀ c ∈ m, c.1 < capacity ∧ c.2 ≠ fill

end Sys2Proof.Machine
end

