-- ==== Sys2Proof/Machine/State.lean ====
section
/-!
DEFINITION. The machine's state (10_state.md R20 to R38), the reasons a step can stop, and the state after reset.
There are no flags, no control/status registers, no modes and no saved registers (R29, R33, 60_exceptions.md R303,
R310), so State holds none.
-/

namespace Sys2Proof.Machine

/-- Why the hart halted (10_state.md R31); `none` while it runs. -/
inductive HaltReason where
  | none
  | illegalInstruction
  | environmentCall
  | environmentBreak
  deriving DecidableEq, Repr

/-- Whether an out-of-range access was a read (a load or a fetch) or a write (R37). -/
inductive AccessKind where
  | read
  | write
  deriving DecidableEq, Repr

/-- One report of an out-of-range access on the side channel (R37): its kind, address and size in bytes. -/
structure OorReport where
  kind : AccessKind
  addr : Word
  size : Nat
  deriving DecidableEq, Repr

/-- The machine's state (R38). `cfg` is not state of the spec: it carries the parameters of 00_scope.md R9, and no
step changes it (log 1). -/
structure State where
  cfg : Config
  /-- x1 to x31, x1 first; x0 has no storage (R22). -/
  regs : Vector Word 31
  pc : Word
  /-- Instructions executed since reset, without bound (R32; log 17). -/
  icount : Nat
  halted : Bool
  haltReason : HaltReason
  mem : Memory
  /-- Oldest report first (R37; log 18). -/
  oorLog : List OorReport
  deriving DecidableEq, Repr

/-- Faults: the machine has none. Every abnormal condition is a next state (60_exceptions.md R302, R303; log 25). -/
inductive Fault where
  deriving DecidableEq, Repr

/-- Why a step, or a host operation, has no meaning in this model. No step of this model is refused. -/
inductive Refusal where
  /-- Raised by an arm of `exec` whose instruction has no meaning yet. Safe. No arm raises it. -/
  | notModelled (mnemonic : String)
  /-- Raised by the host's `load` of an image longer than the memory: what memory then holds is unspecified, and no run
  from it has a meaning (70_reset_and_hazards.md R346; log 19). Safe. No step raises it. -/
  | failedLoad
  deriving DecidableEq, Repr

/-- A hart just created beside a fresh memory (R36, R37; 70_reset_and_hazards.md R341, R345), for any parameters: the
reset values of R38, every byte of memory the fill, no report. -/
def State.created (c : Config) : State where
  cfg := c
  regs := Vector.replicate 31 c.regResetFill
  pc := 0
  icount := 0
  halted := false
  haltReason := .none
  mem := []
  oorLog := []

/-- The machine right after reset (R38), with the default parameters (00_scope.md R9; log 2, log 10). -/
def State.reset : State := State.created Config.default

end Sys2Proof.Machine
end

