-- ==== Sys2Proof/Machine/Ops.lean ====
section
/-!
DEFINITION. The shared operations of every meaning: registers (10_state.md R21 to R23), the program counter, memory
access with its range check and reports (20_memory.md R50 to R62), the halting transition, which is the machine's only
exception entry (60_exceptions.md R303), and the host's reset, its only return (R307).
-/

namespace Sys2Proof.Machine

/-! ### Registers -/

/-- `x[i]` (R22): register 0 reads as zero. -/
def State.readReg (s : State) (i : RegIdx) : Word :=
  if i = 0 then 0 else s.regs[i.val - 1]'(by omega)

/-- `x[i] <- v` (R23): a write to register 0 is discarded. -/
def State.writeReg (s : State) (i : RegIdx) (v : Word) : State :=
  if i = 0 then s else { s with regs := s.regs.set (i.val - 1) v (by omega) }

/-! ### Program counter and counter -/

/-- `pc <- t` (00_scope.md R14). -/
def State.setPc (s : State) (t : Word) : State := { s with pc := t }

/-- `pc <- pc + 4`, modulo 2^32 (10_state.md R27, R28). -/
def State.advancePc (s : State) : State := s.setPc (s.pc + 4)

/-- A meaning's answer. -/
abbrev Result := Host.Outcome State Fault Refusal

/-- The end of most instructions: `x[rd] <- v`, then `pc <- pc + 4` (10_state.md R27). -/
def State.writeAndAdvance (s : State) (rd : RegIdx) (v : Word) : State := (s.writeReg rd v).advancePc

/-- `icount <- icount + 1` (10_state.md R32). -/
def State.countInstruction (s : State) : State := { s with icount := s.icount + 1 }

/-! ### Halting: the one exception mechanism -/

/-- `raise <Cause>` (00_scope.md R15, 60_exceptions.md R303): `halted` and the reason are set, nothing else changes; no
register saves anything and control goes nowhere. -/
def State.raise (s : State) (cause : HaltReason) : State := { s with halted := true, haltReason := cause }

/-- The host's `reset()` (70_reset_and_hazards.md R340): the only way out of HALTED (60_exceptions.md R307). Memory and
the report log keep their contents. -/
def State.hartReset (s : State) : State :=
  { s with
    regs := Vector.replicate 31 s.cfg.regResetFill
    pc := 0
    icount := 0
    halted := false
    haltReason := .none }

/-! ### Memory -/

/-- The three access widths (20_memory.md R64). -/
inductive Width where
  | byte
  | half
  | word
  deriving DecidableEq, Repr

def Width.bytes : Width → Nat
  | .byte => 1
  | .half => 2
  | .word => 4

/-- `InRange(addr, n)` (R52): natural-number arithmetic, no wrap-around. -/
abbrev InRange (c : Config) (addr : Word) (n : Nat) : Prop := addr.toNat + n - 1 < c.capacity

/-- What one address reads as: the memory byte in range, zero outside (R54, R57, R65). An address is a natural number:
the bytes of an access that passes 0xFFFFFFFF do not wrap to 0, they are out of range (92_eei_decisions.md D11; log 5). -/
def State.byteAt (s : State) (a : Nat) : Byte :=
  if a < s.cfg.capacity then Memory.get s.cfg.memFill s.mem a else 0

/-- The little-endian composition of the bytes at `a`, `a + 1`, … (R53 to R56), zero above the width. -/
def composeBytes (byteAt : Nat → Byte) (a : Nat) : Width → Word
  | .byte => (byteAt a).zeroExtend 32
  | .half => (byteAt (a + 1) ++ byteAt a).zeroExtend 32
  | .word => wordOfBytes (byteAt a) (byteAt (a + 1)) (byteAt (a + 2)) (byteAt (a + 3))

/-- The value `MemRead(addr, n)` returns, zero above the width: under `whole` all of it or zero (R54 to R57); under
`per_byte` each byte on its own (R58). -/
def State.readValue (s : State) (addr : Word) (w : Width) : Word :=
  match s.cfg.oorPolicy with
  | .whole =>
    if InRange s.cfg addr w.bytes then composeBytes (Memory.get s.cfg.memFill s.mem) addr.toNat w else 0
  | .perByte => composeBytes s.byteAt addr.toNat w

/-- The reports of one access (R57): one for the whole access under `whole`; under `per_byte` one for each byte outside
the array, rising, its address kept to 32 bits (DESIGN CHOICE, log 6: the spec fixes no form there). -/
def accessReports (c : Config) (kind : AccessKind) (addr : Word) (n : Nat) : List OorReport :=
  match c.oorPolicy with
  | .whole => if InRange c addr n then [] else [⟨kind, addr, n⟩]
  | .perByte =>
    ((List.range n).filter fun k => c.capacity ≤ addr.toNat + k).map fun k => ⟨kind, addr + BitVec.ofNat 32 k, 1⟩

/-- Append reports to the side channel (R37). -/
def State.report (s : State) (reports : List OorReport) : State := { s with oorLog := s.oorLog ++ reports }

/-- The cells a store of `w` bytes of `v` at `addr` names, lowest address first, low byte first (R53, R60 to R62). -/
def storeCells (addr : Word) (w : Width) (v : Word) : List Host.Cell :=
  (List.range w.bytes).map fun k => (addr.toNat + k, v.extractLsb' (8 * k) 8)

/-- The cells a store changes: all or none under `whole` (R57, R60 to R62), those in range under `per_byte` (R58;
a byte past 0xFFFFFFFF is out of range, D11; log 5). -/
def storedCells (c : Config) (addr : Word) (w : Width) (v : Word) : List Host.Cell :=
  match c.oorPolicy with
  | .whole => if InRange c addr w.bytes then storeCells addr w v else []
  | .perByte => (storeCells addr w v).filter fun cell => cell.1 < c.capacity

/-- `MemRead(addr, n)` (R54 to R58): the value, and the state with the access's reports appended. It never stops the
instruction (R57). -/
def State.memRead (s : State) (addr : Word) (w : Width) : Word × State :=
  (s.readValue addr w, s.report (accessReports s.cfg .read addr w.bytes))

/-- `MemWrite(addr, n, v)` (R57, R58, R60 to R62). It never stops the instruction. -/
def State.memWrite (s : State) (addr : Word) (w : Width) (v : Word) : State :=
  { s with
    mem := Memory.setAll s.cfg.memFill s.mem (storedCells s.cfg addr w v)
    oorLog := s.oorLog ++ accessReports s.cfg .write addr w.bytes }

end Sys2Proof.Machine
end

