-- ==== Sys2Proof/Machine/Operands.lean ====
section
/-!
DEFINITION. The operand forms: the immediates extended to 32 bits, effective addresses, shift amounts, jump and branch
targets, CSRRS's index (30_encoding.md R97 to R101; 42_jumps.md to 48_system.md). All sums are modulo 2^32 (log 15).
-/

namespace Sys2Proof.Machine

/-- `imm_i` or `imm_s`: 12 bits sign-extended (R97, R98). -/
def imm12Value (imm : BitVec 12) : Word := imm.signExtend 32

/-- `imm_u`: the 20 bits on top, low 12 bits zero (R100). -/
def imm20Value (imm20 : BitVec 20) : Word := imm20 ++ 0#12

/-- `imm_b`: 13 bits sign-extended (R99). -/
def branchOffsetValue (offset : BitVec 13) : Word := offset.signExtend 32

/-- `imm_j`: 21 bits sign-extended (R101). -/
def jumpOffsetValue (offset : BitVec 21) : Word := offset.signExtend 32

/-- Base register plus displacement, the only addressing mode (R190, R210). -/
def State.effectiveAddress (s : State) (rs1 : RegIdx) (imm : BitVec 12) : Word := s.readReg rs1 + imm12Value imm

/-- JALR's target from the sum: bit 0 cleared, bit 1 kept (R162). -/
def clearBit0 (t : Word) : Word := t.extractLsb' 1 31 ++ 0#1

/-- The link value, the jump's own address plus 4 (R160). -/
def State.linkValue (s : State) : Word := s.pc + 4

/-- A register shift amount: the low five bits (R230 (e), R243). -/
def shiftAmount (v : Word) : BitVec 5 := v.extractLsb' 0 5

/-- CSRRS's index: the CSR number extended to 32 bits by `CSR_INDEX_EXT` (R262). -/
def csrIndex (ext : CsrIndexExt) (csr : BitVec 12) : Word :=
  match ext with
  | .zext => csr.zeroExtend 32
  | .sext => csr.signExtend 32

end Sys2Proof.Machine
end

