-- ==== Sys2Proof/Machine/AluImmediate.lean ====
section
/-!
DEFINITION. The register-immediate operations (spec 46_alu_immediate.md). Nothing is recorded on overflow (R230).
-/

namespace Sys2Proof.Machine

/-- Common to the nine (R220): `x[rd] <- op(x[rs1], operand)`, then advance. -/
def State.aluImmediate (s : State) (rd rs1 : RegIdx) (operand : Word) (op : Word → Word → Word) : State :=
  s.writeAndAdvance rd (op (s.readReg rs1) operand)

/-- ADDI (R221). -/
def execAddi (rd rs1 : RegIdx) (imm : BitVec 12) (s : State) : Result :=
  .next (s.aluImmediate rd rs1 (imm12Value imm) fun a b => a + b)

/-- SLTI (R222). -/
def execSlti (rd rs1 : RegIdx) (imm : BitVec 12) (s : State) : Result :=
  .next (s.aluImmediate rd rs1 (imm12Value imm) fun a b => boolWord (lessSigned a b))

/-- SLTIU (R223). -/
def execSltiu (rd rs1 : RegIdx) (imm : BitVec 12) (s : State) : Result :=
  .next (s.aluImmediate rd rs1 (imm12Value imm) fun a b => boolWord (lessUnsigned a b))

/-- XORI (R224). -/
def execXori (rd rs1 : RegIdx) (imm : BitVec 12) (s : State) : Result :=
  .next (s.aluImmediate rd rs1 (imm12Value imm) fun a b => a ^^^ b)

/-- ORI (R225). -/
def execOri (rd rs1 : RegIdx) (imm : BitVec 12) (s : State) : Result :=
  .next (s.aluImmediate rd rs1 (imm12Value imm) fun a b => a ||| b)

/-- ANDI (R226). -/
def execAndi (rd rs1 : RegIdx) (imm : BitVec 12) (s : State) : Result :=
  .next (s.aluImmediate rd rs1 (imm12Value imm) fun a b => a &&& b)

/-- SLLI (R227). -/
def execSlli (rd rs1 : RegIdx) (shamt : BitVec 5) (s : State) : Result :=
  .next (s.writeAndAdvance rd (shiftLeft (s.readReg rs1) shamt))

/-- SRLI (R228). -/
def execSrli (rd rs1 : RegIdx) (shamt : BitVec 5) (s : State) : Result :=
  .next (s.writeAndAdvance rd (shiftRightLogical (s.readReg rs1) shamt))

/-- SRAI (R229). -/
def execSrai (rd rs1 : RegIdx) (shamt : BitVec 5) (s : State) : Result :=
  .next (s.writeAndAdvance rd (shiftRightArithmetic (s.readReg rs1) shamt))

end Sys2Proof.Machine
end

