-- ==== Sys2Proof/Machine/AluRegister.lean ====
section
/-!
DEFINITION. The register-register operations (spec 47_alu_register.md).
-/

namespace Sys2Proof.Machine

/-- Common to the ten (R240): `x[rd] <- op(x[rs1], x[rs2])`, both read before the write, then advance. -/
def State.aluRegister (s : State) (rd rs1 rs2 : RegIdx) (op : Word → Word → Word) : State :=
  s.writeAndAdvance rd (op (s.readReg rs1) (s.readReg rs2))

/-- ADD (R241). -/
def execAdd (rd rs1 rs2 : RegIdx) (s : State) : Result :=
  .next (s.aluRegister rd rs1 rs2 fun a b => a + b)

/-- SUB (R242). -/
def execSub (rd rs1 rs2 : RegIdx) (s : State) : Result :=
  .next (s.aluRegister rd rs1 rs2 fun a b => a - b)

/-- SLL (R243). -/
def execSll (rd rs1 rs2 : RegIdx) (s : State) : Result :=
  .next (s.aluRegister rd rs1 rs2 fun a b => shiftLeft a (shiftAmount b))

/-- SLT (R244). -/
def execSlt (rd rs1 rs2 : RegIdx) (s : State) : Result :=
  .next (s.aluRegister rd rs1 rs2 fun a b => boolWord (lessSigned a b))

/-- SLTU (R245). -/
def execSltu (rd rs1 rs2 : RegIdx) (s : State) : Result :=
  .next (s.aluRegister rd rs1 rs2 fun a b => boolWord (lessUnsigned a b))

/-- XOR (R246). -/
def execXor (rd rs1 rs2 : RegIdx) (s : State) : Result :=
  .next (s.aluRegister rd rs1 rs2 fun a b => a ^^^ b)

/-- SRL (R247). -/
def execSrl (rd rs1 rs2 : RegIdx) (s : State) : Result :=
  .next (s.aluRegister rd rs1 rs2 fun a b => shiftRightLogical a (shiftAmount b))

/-- SRA (R248). -/
def execSra (rd rs1 rs2 : RegIdx) (s : State) : Result :=
  .next (s.aluRegister rd rs1 rs2 fun a b => shiftRightArithmetic a (shiftAmount b))

/-- OR (R249). -/
def execOr (rd rs1 rs2 : RegIdx) (s : State) : Result :=
  .next (s.aluRegister rd rs1 rs2 fun a b => a ||| b)

/-- AND (R250). -/
def execAnd (rd rs1 rs2 : RegIdx) (s : State) : Result :=
  .next (s.aluRegister rd rs1 rs2 fun a b => a &&& b)

end Sys2Proof.Machine
end

