-- ==== Sys2Proof/Machine/Branches.lean ====
section
/-!
DEFINITION. The six conditional branches (spec 43_branches.md).
-/

namespace Sys2Proof.Machine

/-- Common to all six (R170): compare `x[rs1]` with `x[rs2]`; `pc + imm_b` if taken, else `pc + 4`. -/
def State.branchIf (s : State) (condition : Word → Word → Bool) (rs1 rs2 : RegIdx) (offset : BitVec 13) : State :=
  if condition (s.readReg rs1) (s.readReg rs2) then s.setPc (s.pc + branchOffsetValue offset) else s.advancePc

/-- BEQ (R171): equal. -/
def execBeq (rs1 rs2 : RegIdx) (offset : BitVec 13) (s : State) : Result :=
  .next (s.branchIf (fun a b => a == b) rs1 rs2 offset)

/-- BNE (R172): not equal. -/
def execBne (rs1 rs2 : RegIdx) (offset : BitVec 13) (s : State) : Result :=
  .next (s.branchIf (fun a b => a != b) rs1 rs2 offset)

/-- BLT (R173): less than, signed. -/
def execBlt (rs1 rs2 : RegIdx) (offset : BitVec 13) (s : State) : Result :=
  .next (s.branchIf (fun a b => lessSigned a b) rs1 rs2 offset)

/-- BGE (R174): greater or equal, signed. -/
def execBge (rs1 rs2 : RegIdx) (offset : BitVec 13) (s : State) : Result :=
  .next (s.branchIf (fun a b => !lessSigned a b) rs1 rs2 offset)

/-- BLTU (R175): less than, unsigned. -/
def execBltu (rs1 rs2 : RegIdx) (offset : BitVec 13) (s : State) : Result :=
  .next (s.branchIf (fun a b => lessUnsigned a b) rs1 rs2 offset)

/-- BGEU (R176): greater or equal, unsigned. -/
def execBgeu (rs1 rs2 : RegIdx) (offset : BitVec 13) (s : State) : Result :=
  .next (s.branchIf (fun a b => !lessUnsigned a b) rs1 rs2 offset)

end Sys2Proof.Machine
end

