-- ==== Sys2Proof/Machine/Jumps.lean ====
section
/-!
DEFINITION. JAL and JALR (spec 42_jumps.md). No target is checked for alignment (R163; log 14).
-/

namespace Sys2Proof.Machine

/-- JAL (R161): the link, then `pc <- pc + imm_j`, both from the jump's own address. -/
def execJal (rd : RegIdx) (offset : BitVec 21) (s : State) : Result :=
  .next ((s.writeReg rd s.linkValue).setPc (s.pc + jumpOffsetValue offset))

/-- JALR (R162): under `JALR_LINK_FIRST` the link is written before rs1 is read, so with `rd = rs1` the target comes
from the new value; otherwise rs1 is read first (log 8). -/
def execJalr (rd rs1 : RegIdx) (imm : BitVec 12) (s : State) : Result :=
  let linked := s.writeReg rd s.linkValue
  let base := if s.cfg.jalrLinkFirst then linked.readReg rs1 else s.readReg rs1
  .next (linked.setPc (clearBit0 (base + imm12Value imm)))

end Sys2Proof.Machine
end

