-- ==== Sys2Proof/Machine/Loads.lean ====
section
/-!
DEFINITION. The five loads (spec 44_loads.md). A load never halts the hart (R190).
-/

namespace Sys2Proof.Machine

/-- Common to all five (R190): read at `x[rs1] + imm_i`, extend, write rd, advance. The address is taken before the
write; the read and its report happen also for `rd = 0`. -/
def State.loadWith (s : State) (w : Width) (extend : Word → Word) (rd rs1 : RegIdx) (imm : BitVec 12) : Result :=
  let (v, t) := s.memRead (s.effectiveAddress rs1 imm) w
  .next (t.writeAndAdvance rd (extend v))

/-- `sext_8` of a value held in the low byte (20_memory.md R59). -/
def sext8 (v : Word) : Word := (v.extractLsb' 0 8).signExtend 32

/-- `sext_16` of a value held in the low halfword (R59). -/
def sext16 (v : Word) : Word := (v.extractLsb' 0 16).signExtend 32

/-- LB (R191): byte, sign-extended. -/
def execLb (rd rs1 : RegIdx) (imm : BitVec 12) (s : State) : Result :=
  s.loadWith .byte sext8 rd rs1 imm

/-- LH (R192): halfword, sign-extended. -/
def execLh (rd rs1 : RegIdx) (imm : BitVec 12) (s : State) : Result :=
  s.loadWith .half sext16 rd rs1 imm

/-- LW (R193): word. -/
def execLw (rd rs1 : RegIdx) (imm : BitVec 12) (s : State) : Result :=
  s.loadWith .word id rd rs1 imm

/-- LBU (R194): byte, zero-extended (as `readValue` already is). -/
def execLbu (rd rs1 : RegIdx) (imm : BitVec 12) (s : State) : Result :=
  s.loadWith .byte id rd rs1 imm

/-- LHU (R195): halfword, zero-extended (as `readValue` already is). -/
def execLhu (rd rs1 : RegIdx) (imm : BitVec 12) (s : State) : Result :=
  s.loadWith .half id rd rs1 imm

end Sys2Proof.Machine
end

