-- ==== Sys2Proof/Machine/Stores.lean ====
section
/-!
DEFINITION. The three stores (spec 45_stores.md). A store never halts the hart (R210).
-/

namespace Sys2Proof.Machine

/-- Common to all three (R210): store the low bytes of `x[rs2]` at `x[rs1] + imm_s`, then advance. -/
def State.storeWith (s : State) (w : Width) (rs1 rs2 : RegIdx) (imm : BitVec 12) : Result :=
  .next (s.memWrite (s.effectiveAddress rs1 imm) w (s.readReg rs2)).advancePc

/-- SB (R211). -/
def execSb (rs1 rs2 : RegIdx) (imm : BitVec 12) (s : State) : Result :=
  s.storeWith .byte rs1 rs2 imm

/-- SH (R212). -/
def execSh (rs1 rs2 : RegIdx) (imm : BitVec 12) (s : State) : Result :=
  s.storeWith .half rs1 rs2 imm

/-- SW (R213). -/
def execSw (rs1 rs2 : RegIdx) (imm : BitVec 12) (s : State) : Result :=
  s.storeWith .word rs1 rs2 imm

end Sys2Proof.Machine
end

