-- ==== Sys2Proof/Machine/System.lean ====
section
/-!
DEFINITION. ECALL, EBREAK and CSRRS (spec 48_system.md), and the word that is no instruction (40_fetch_dispatch.md R135).
-/

namespace Sys2Proof.Machine

/-- ECALL (R260): the hart halts with EnvironmentCall; `pc` stays (log 13). -/
def execEcall (s : State) : Result := .next (s.raise .environmentCall)

/-- EBREAK (R261): the hart halts with EnvironmentBreak; `pc` stays. -/
def execEbreak (s : State) : Result := .next (s.raise .environmentBreak)

/-- CSRRS as this hardware has it (R262): the AND of the CSR number with `x[rs1]`; no CSR exists (log 9). -/
def execCsrrs (rd rs1 : RegIdx) (csr : BitVec 12) (s : State) : Result :=
  .next (s.writeAndAdvance rd (csrIndex s.cfg.csrIndexExt csr &&& s.readReg rs1))

/-- Any word that is none of the 40 instructions (40_fetch_dispatch.md R135; R263 to R265): the hart halts with
IllegalInstruction; `pc` stays (log 12, log 13). -/
def execIllegal (s : State) : Result := .next (s.raise .illegalInstruction)

end Sys2Proof.Machine
end

