-- ==== Sys2Proof/Machine/UpperImmediate.lean ====
section
/-!
DEFINITION. LUI and AUIPC (spec 41_upper_immediate.md).
-/

namespace Sys2Proof.Machine

/-- LUI (R150): `x[rd] <- imm_u`. -/
def execLui (rd : RegIdx) (imm20 : BitVec 20) (s : State) : Result :=
  .next (s.writeAndAdvance rd (imm20Value imm20))

/-- AUIPC (R151): `x[rd] <- pc + imm_u`, with the instruction's own address. -/
def execAuipc (rd : RegIdx) (imm20 : BitVec 20) (s : State) : Result :=
  .next (s.writeAndAdvance rd (s.pc + imm20Value imm20))

end Sys2Proof.Machine
end

