-- ==== Sys2Proof/Machine/Fetch.lean ====
section
/-!
DEFINITION. Instruction fetch (40_fetch_dispatch.md R131, R132), and placing a word where the next fetch reads it.
-/

namespace Sys2Proof.Machine

/-- Fetch (R131): the 32-bit read at `pc`, from the memory that loads and stores use; out of range it reports and gives
the word 0 (R132). No alignment is required (R132 (b); log 14). -/
def State.fetch (s : State) : Word × State := s.memRead s.pc .word

/-- The hart running, with a `pc` whose word lies inside memory; the state itself if it already is so. An empty memory
gets one granule of 16 bytes. -/
def State.readyToFetch (s : State) : State :=
  let running := if s.halted then { s with halted := false, haltReason := .none } else s
  if InRange s.cfg s.pc 4 then running
  else { running with pc := 0, cfg := { s.cfg with memSize := max s.cfg.memSize 4 } }

/-- The state with a word stored, little-endian, where the next fetch reads (log 23). -/
def State.placeWord (s : State) (w : Word) : State :=
  let t := s.readyToFetch
  { t with mem := Memory.setAll t.cfg.memFill t.mem (storeCells t.pc .word w) }

end Sys2Proof.Machine
end

