-- ==== Sys2Proof/Machine/Execute.lean ====
section
/-!
DEFINITION. The engine's step (40_fetch_dispatch.md R130 to R134).
-/

namespace Sys2Proof.Machine

/-- `execute(insn)` (R133): the one handler the dispatch tree selects, or the illegal-instruction handler (R135). -/
def execute (insn : Word) (s : State) : Result :=
  match decode s.cfg.funct7Strict insn with
  | .ok i => exec i s
  | .error _ => execIllegal s

/-- `tick` (R130): nothing at all on a halted hart; otherwise count, fetch, execute. Tracing has no effect on it (R136;
log 21). -/
def tick (s : State) : Result :=
  if s.halted then .next s
  else
    let (insn, t) := s.countInstruction.fetch
    execute insn t

end Sys2Proof.Machine
end

