-- ==== Sys2Proof/Machine/Step.lean ====
section
/-!
DEFINITION. The step: one tick (40_fetch_dispatch.md R130; 70_reset_and_hazards.md R352).
-/

namespace Sys2Proof.Machine

/-- One tick of the hart. -/
def step (s : State) : Host.Outcome State Fault Refusal := tick s

/-- The state whose very next step runs the given instruction: its word, numbered as spec/opcode_table.json numbers it
and with zeros above `nbits`, stored where the next fetch reads. It stands for the external load of a program (log 23). -/
def State.withFetchWord (s : State) (nbits w : Nat) : State :=
  s.placeWord (BitVec.ofNat 32 (w % 2 ^ nbits))

end Sys2Proof.Machine
end

