-- ==== Sys2Proof/Machine/Render.lean ====
section
/-!
DEFINITION. The renderer `decode(address, word) -> text` and the trace line, as far as the spec settles them
(49_rendering.md R280 to R286). Every concrete string is a constant of Config without a body (R283; log 20).
Nothing here changes a state.
-/

/-- The comment after the rendered instruction of a trace line: operand values and result, in a form the spec does not
give (R286). It may depend on the word and on the states before and after. Open. -/
opaque Sys2Proof.Config.traceComment : Sys2Proof.Word → Sys2Proof.Machine.State → Sys2Proof.Machine.State → String

namespace Sys2Proof.Machine

/-- One operand of a rendered line (R282). -/
inductive RenderedOperand where
  | register (r : RegIdx)
  | immediateWithBase (imm : Word) (base : RegIdx)
  | target (address : Word)
  deriving DecidableEq, Repr

/-- The operand part of a rendered line: of a shape R282 states, or of a shape it leaves open. -/
inductive OperandShape where
  | listed (operands : List RenderedOperand)
  | unstated
  deriving DecidableEq, Repr

/-- The operand shape of each instruction (R282, R285). The order of the listed operands is that of 30_encoding.md R112
(DESIGN CHOICE, log 20). -/
def operandShape (address : Word) : Instr → OperandShape
  | .lui _ _ => .unstated
  | .auipc _ _ => .unstated
  | .jal rd offset => .listed [.register rd, .target (address + jumpOffsetValue offset)]
  | .jalr rd rs1 imm => .listed [.register rd, .immediateWithBase (imm12Value imm) rs1]
  | .beq rs1 rs2 offset => .listed [.register rs1, .register rs2, .target (address + branchOffsetValue offset)]
  | .bne rs1 rs2 offset => .listed [.register rs1, .register rs2, .target (address + branchOffsetValue offset)]
  | .blt rs1 rs2 offset => .listed [.register rs1, .register rs2, .target (address + branchOffsetValue offset)]
  | .bge rs1 rs2 offset => .listed [.register rs1, .register rs2, .target (address + branchOffsetValue offset)]
  | .bltu rs1 rs2 offset => .listed [.register rs1, .register rs2, .target (address + branchOffsetValue offset)]
  | .bgeu rs1 rs2 offset => .listed [.register rs1, .register rs2, .target (address + branchOffsetValue offset)]
  | .lb rd rs1 imm => .listed [.register rd, .immediateWithBase (imm12Value imm) rs1]
  | .lh rd rs1 imm => .listed [.register rd, .immediateWithBase (imm12Value imm) rs1]
  | .lw rd rs1 imm => .listed [.register rd, .immediateWithBase (imm12Value imm) rs1]
  | .lbu rd rs1 imm => .listed [.register rd, .immediateWithBase (imm12Value imm) rs1]
  | .lhu rd rs1 imm => .listed [.register rd, .immediateWithBase (imm12Value imm) rs1]
  | .sb rs1 rs2 imm => .listed [.register rs2, .immediateWithBase (imm12Value imm) rs1]
  | .sh rs1 rs2 imm => .listed [.register rs2, .immediateWithBase (imm12Value imm) rs1]
  | .sw rs1 rs2 imm => .listed [.register rs2, .immediateWithBase (imm12Value imm) rs1]
  | .addi _ _ _ => .unstated
  | .slti _ _ _ => .unstated
  | .sltiu _ _ _ => .unstated
  | .xori _ _ _ => .unstated
  | .ori _ _ _ => .unstated
  | .andi _ _ _ => .unstated
  | .slli _ _ _ => .unstated
  | .srli _ _ _ => .unstated
  | .srai _ _ _ => .unstated
  | .add rd rs1 rs2 => .listed [.register rd, .register rs1, .register rs2]
  | .sub rd rs1 rs2 => .listed [.register rd, .register rs1, .register rs2]
  | .sll rd rs1 rs2 => .listed [.register rd, .register rs1, .register rs2]
  | .slt rd rs1 rs2 => .listed [.register rd, .register rs1, .register rs2]
  | .sltu rd rs1 rs2 => .listed [.register rd, .register rs1, .register rs2]
  | .xor rd rs1 rs2 => .listed [.register rd, .register rs1, .register rs2]
  | .srl rd rs1 rs2 => .listed [.register rd, .register rs1, .register rs2]
  | .sra rd rs1 rs2 => .listed [.register rd, .register rs1, .register rs2]
  | .or rd rs1 rs2 => .listed [.register rd, .register rs1, .register rs2]
  | .and rd rs1 rs2 => .listed [.register rd, .register rs1, .register rs2]
  | .ecall => .listed []
  | .ebreak => .listed []
  | .csrrs _ _ _ => .unstated

/-- What a word renders as, before any text is chosen: the marker of an illegal word, or a mnemonic and operands. -/
inductive Rendering where
  | marker
  | line (mnemonic : String) (operands : OperandShape)
  deriving DecidableEq, Repr

/-- The rendering of a word at an address: the classification is the decoder's own (R281; 40_fetch_dispatch.md R137),
every illegal word gives the one marker (R284). -/
def rendering (strict : Bool) (address insn : Word) : Rendering :=
  match decode strict insn with
  | .ok i => .line i.mnemonic (operandShape address i)
  | .error _ => .marker

/-- The text of one operand (R282); how it is written is open (R283). -/
def RenderedOperand.text : RenderedOperand → String
  | .register r => Config.registerText r
  | .immediateWithBase imm base => Config.immediateWithBaseText imm base
  | .target address => Config.targetText address

/-- The left-justified mnemonic in its fixed width (R282 (a)). -/
def mnemonicColumn (mnemonic : String) : String :=
  let name := Config.mnemonicText mnemonic
  name ++ String.ofList (List.replicate (Config.mnemonicWidth - name.length) ' ')

/-- The operands of a line, in order (R282): those of a stated shape, or free texts that may depend on the address and
the word where the spec states none (log 20). -/
def operandTexts (address insn : Word) : OperandShape → List String
  | .listed operands => operands.map RenderedOperand.text
  | .unstated => Config.unstatedOperandTexts address insn

/-- `decode(address, word) -> text` (R280, R282, R284): the operands are separated by commas whatever their shape
(R282 (b)). -/
def render (strict : Bool) (address insn : Word) : String :=
  match rendering strict address insn with
  | .marker => Config.illegalMarker
  | .line mnemonic shape =>
    mnemonicColumn mnemonic ++ String.intercalate ("," ++ Config.commaPad) (operandTexts address insn shape)

/-- The lines a tick writes to the trace sink (R286; 40_fetch_dispatch.md R136): none on a halted hart, one for an
executed instruction, the halting one included (log 21). A line holds the rendering and after it the comment; what
stands before the rendering, the pc and the word or nothing, is open and so a free text (R283; log 21). -/
def State.traceLines (s : State) : List String :=
  if s.halted then []
  else
    let (insn, fetched) := s.countInstruction.fetch
    match execute insn fetched with
    | .next t =>
      [Config.traceLead s.pc insn ++ render s.cfg.funct7Strict s.pc insn ++ Config.traceComment insn s t]
    | .fault _ => []
    | .refused _ => []

/-- `tick(trace_enabled)` with what it writes to the sink (40_fetch_dispatch.md R130, R136). -/
def tickTraced (traceEnabled : Bool) (s : State) : Result × List String :=
  (tick s, if traceEnabled then s.traceLines else [])

end Sys2Proof.Machine
end

