-- ==== Sys2Proof/Machine/Interface.lean ====
section
/-!
DEFINITION. What the host can do to the core between ticks (70_reset_and_hazards.md R345 to R348), beside `tick`
(Execute.lean), `reset()` (`State.hartReset` in Ops.lean) and the creation of memory and hart (`State.created`).
The host is assumed not to write memory during a run (R348; log 22).
-/

namespace Sys2Proof.Machine

/-- The cells an image occupies: its bytes from address 0 (R346). -/
def imageCells (image : List Byte) : List Host.Cell := image.zipIdx.map fun byteAndIndex => (byteAndIndex.2, byteAndIndex.1)

/-- `load(IMAGE)` (R346): copy to address 0 if it fits (`true`). If it does not fit (`false`) memory is unspecified and
the model gives no run from it a meaning (log 19). -/
def State.loadImage (s : State) (image : List Byte) : Result :=
  if image.length ≤ s.cfg.capacity then
    .next { s with mem := Memory.setAll s.cfg.memFill s.mem (imageCells image) }
  else .refused .failedLoad

/-- `is_halted()` (R347). -/
def State.isHalted (s : State) : Bool := s.halted

/-- The text of a halt reason, by the parameter `HALT_REASON_TEXT` (10_state.md R31; log 10). -/
def HaltTexts.text (t : HaltTexts) : HaltReason → String
  | .none => t.whenRunning
  | .illegalInstruction => t.illegalInstruction
  | .environmentCall => t.environmentCall
  | .environmentBreak => t.environmentBreak

/-- `halt_reason()` (R347). -/
def State.haltReasonText (s : State) : String := HaltTexts.text s.cfg.haltTexts s.haltReason

/-- `instruction_count()` (R347). -/
def State.instructionCount (s : State) : Nat := s.icount

/-- The register dump, x0 to x31 (R347). -/
def State.dumpRegisters (s : State) : List Word := (List.finRange 32).map s.readReg

/-- The pc dump (R347). -/
def State.dumpPc (s : State) : Word := s.pc

end Sys2Proof.Machine
end

