-- ==== Sys2Proof/Safety.lean ====
section
/-!
DEFINITION. The terms claims are stated in: the machine's invariant, and what a step or an instruction leaves alone.
-/

namespace Sys2Proof.Machine

/-- The invariant of the machine: lawful parameters (20_memory.md R51, 10_state.md R31), memory in canonical form, and
the hart halted exactly when it has a halt reason (R31: written together). -/
structure State.Inv (s : State) : Prop where
  lawful : s.cfg.Lawful
  memory : Memory.wf s.cfg.memFill s.cfg.capacity s.mem
  reason : s.halted = true ↔ s.haltReason ≠ .none

/-- Every register reads as before. -/
def SameRegisters (s t : State) : Prop := ∀ i : RegIdx, t.readReg i = s.readReg i

/-- Register `rd` reads as `v` unless it is x0, which reads 0; every other register reads as before (10_state.md R21 to R23). -/
def RegisterWritten (rd : RegIdx) (v : Word) (s t : State) : Prop :=
  ∀ i : RegIdx, t.readReg i = if i = 0 then 0 else if i = rd then v else s.readReg i

/-- Every address, in range or not, reads as before. -/
def SameMemory (s t : State) : Prop := ∀ a : Nat, t.byteAt a = s.byteAt a

/-- The counter, the halt state and the parameters are as before. -/
def SameControl (s t : State) : Prop :=
  t.cfg = s.cfg ∧ t.icount = s.icount ∧ t.halted = s.halted ∧ t.haltReason = s.haltReason

/-- The whole effect of an instruction that stores nothing and reports nothing: `x[rd] <- v`, `pc <- pc'`. -/
def WritesRegister (rd : RegIdx) (v pc' : Word) (s t : State) : Prop :=
  RegisterWritten rd v s t ∧ t.pc = pc' ∧ SameMemory s t ∧ SameControl s t ∧ t.oorLog = s.oorLog

/-- The whole effect of an instruction that only moves the program counter. -/
def OnlyMovesPc (pc' : Word) (s t : State) : Prop :=
  SameRegisters s t ∧ t.pc = pc' ∧ SameMemory s t ∧ SameControl s t ∧ t.oorLog = s.oorLog

/-- The whole effect of a halting instruction (60_exceptions.md R303). -/
def OnlyHalts (cause : HaltReason) (s t : State) : Prop :=
  t.halted = true ∧ t.haltReason = cause ∧ SameRegisters s t ∧ t.pc = s.pc ∧ SameMemory s t ∧
    t.icount = s.icount ∧ t.cfg = s.cfg ∧ t.oorLog = s.oorLog

/-- The whole effect of a load out of range (20_memory.md R57): zero into `rd`, one report, `pc <- pc + 4`. -/
def ReadsZero (rd : RegIdx) (addr : Word) (n : Nat) (s t : State) : Prop :=
  RegisterWritten rd 0 s t ∧ t.pc = s.pc + 4 ∧ SameMemory s t ∧ SameControl s t ∧
    t.oorLog = s.oorLog ++ [⟨.read, addr, n⟩]

/-- The whole effect of a store out of range (R57): nothing stored, one report, `pc <- pc + 4`. -/
def DropsStore (addr : Word) (n : Nat) (s t : State) : Prop :=
  SameRegisters s t ∧ t.pc = s.pc + 4 ∧ SameMemory s t ∧ SameControl s t ∧
    t.oorLog = s.oorLog ++ [⟨.write, addr, n⟩]

/-- The whole effect of a store in range (20_memory.md R60 to R62): the `n` bytes from `addr` are the low bytes of `v`,
low byte first, every other address reads as before, and `pc <- pc + 4`. -/
def StoresBytes (addr : Word) (n : Nat) (v : Word) (s t : State) : Prop :=
  (∀ a : Nat, t.byteAt a =
    if addr.toNat ≤ a ∧ a < addr.toNat + n then v.extractLsb' (8 * (a - addr.toNat)) 8 else s.byteAt a) ∧
  SameRegisters s t ∧ t.pc = s.pc + 4 ∧ SameControl s t ∧ t.oorLog = s.oorLog

/-- Two states a program cannot tell apart: they differ at most in the counter and the report log (10_state.md R32, R37). -/
def SameVisible (s t : State) : Prop :=
  t.cfg = s.cfg ∧ t.regs = s.regs ∧ t.pc = s.pc ∧ t.halted = s.halted ∧ t.haltReason = s.haltReason ∧ t.mem = s.mem

end Sys2Proof.Machine
end

