-- ==== Sys2Proof/Certificates/Slice0/Obligations.lean ====
section
/-!
DEFINITION. The statements for the provers. Each formalises the rules of spec/ its docstring names; "model's choice"
marks a clause that rests on a log entry. `x[i]` is `readReg`, `mem[a]` is `byteAt`, whatever the address.
-/

namespace Sys2Proof

open Sys2Proof.Machine

/-! ### How a row of the opcode table decodes -/

/-- Every word of the row decodes to the instruction, whatever `FUNCT7_STRICT`. -/
def RowDecodes (value mask : Word) (instr : Word → Instr) : Prop :=
  ∀ (strict : Bool) (w : Word), w &&& mask = value → decode strict w = .ok (instr w)

/-- A row whose funct7 is not examined (30_encoding.md R109): every word of it decodes to the instruction under
`FUNCT7_STRICT = false`; with `true` only those whose funct7 is 0000000, and the others are illegal. -/
def RowDecodesAnyFunct7 (value mask : Word) (instr : Word → Instr) : Prop :=
  ∀ w : Word, w &&& mask = value →
    decode false w = .ok (instr w) ∧
      (funct7Field w = 0b0000000#7 → decode true w = .ok (instr w)) ∧
      (funct7Field w ≠ 0b0000000#7 → ∃ e, decode true w = .error e)

/-! ### Terms several statements share -/

/-- R170: where a branch goes: its own address plus the offset if taken, else plus 4. -/
def BranchTarget (s : State) (offset : BitVec 13) (taken : Prop) (pc' : Word) : Prop :=
  (taken → pc' = s.pc + offset.signExtend 32) ∧ (¬ taken → pc' = s.pc + 4)

/-- R13: what bit `i` of a shifted word is: `<<`, `>>u`, `>>s`. -/
def ShiftedLeft (a : Word) (n : Nat) (v : Word) : Prop :=
  ∀ i : Nat, i < 32 → v.getLsbD i = if i < n then false else a.getLsbD (i - n)

def ShiftedRightLogical (a : Word) (n : Nat) (v : Word) : Prop :=
  ∀ i : Nat, i < 32 → v.getLsbD i = if i + n < 32 then a.getLsbD (i + n) else false

def ShiftedRightArithmetic (a : Word) (n : Nat) (v : Word) : Prop :=
  ∀ i : Nat, i < 32 → v.getLsbD i = if i + n < 32 then a.getLsbD (i + n) else a.getLsbD 31

/-- The word at `pc` (R131): `mem[pc+3] ++ mem[pc+2] ++ mem[pc+1] ++ mem[pc]`. -/
def WordAtPc (s : State) : Word :=
  s.byteAt (s.pc.toNat + 3) ++ s.byteAt (s.pc.toNat + 2) ++ s.byteAt (s.pc.toNat + 1) ++ s.byteAt s.pc.toNat

end Sys2Proof

section Statements

open Sys2Proof Sys2Proof.Machine

/-! ### Reset, creation, capacity, registers -/

/-- R340, R342, R24: what the host's reset leaves, from any state; a second one changes nothing; and the values of the
fill and of x1 to x31 in `State.reset`. -/
def Obligations.HartResetLeavesSpecValues : Prop :=
  (∀ s : State,
    (∀ i : RegIdx, s.hartReset.readReg i = if i = 0 then 0 else s.cfg.regResetFill) ∧
    s.hartReset.pc = 0 ∧ s.hartReset.icount = 0 ∧ s.hartReset.halted = false ∧ s.hartReset.haltReason = .none ∧
    SameMemory s s.hartReset ∧ s.hartReset.oorLog = s.oorLog ∧ s.hartReset.cfg = s.cfg ∧
    s.hartReset.hartReset = s.hartReset) ∧
  (∀ i : RegIdx, State.reset.readReg i = if i = 0 then 0 else 0xF0F0F0F0)

/-- R36: every byte of a memory just created is `MEM_FILL`, 0xA5 in `State.reset`; addresses beyond hold nothing (R35);
reset leaves memory alone. -/
def Obligations.CreationFillsMemory : Prop :=
  (∀ (c : Config) (a : Nat), (State.created c).byteAt a = if a < c.capacity then c.memFill else 0) ∧
  (∀ a : Nat, a < State.reset.cfg.capacity → State.reset.byteAt a = 0xA5) ∧
  (∀ s : State, s.hartReset.mem = s.mem)

/-- The spec's decision D14 (70_reset_and_hazards.md; log 16): a hart just created is already in the reset state, and
the report log is empty. -/
def Obligations.CreatedHartIsInTheResetState : Prop :=
  ∀ c : Config, (State.created c).hartReset = State.created c ∧ (State.created c).oorLog = []

/-- CAPACITY is the least multiple of 16 not below MEM_SIZE (the spec's decision D12; log 3), and no step resizes
memory. -/
def Obligations.CapacityRoundsUpAndStays : Prop :=
  (∀ c : Config, 16 ∣ c.capacity ∧ c.memSize ≤ c.capacity ∧ ∀ k : Nat, 16 ∣ k → c.memSize ≤ k → c.capacity ≤ k) ∧
  (∀ c : Config, c.Lawful → c.capacity ≤ 2 ^ 32) ∧
  (∀ s t : State, step s = .next t → t.cfg.capacity = s.cfg.capacity)

/-- R22, R23: reading and writing a register, register 0 included. -/
def Obligations.RegisterReadsLastWrite : Prop :=
  ∀ (s : State) (i j : RegIdx) (v : Word),
    s.readReg 0 = 0 ∧
    (i = 0 → s.writeReg i v = s) ∧
    (i ≠ 0 → (s.writeReg i v).readReg i = v) ∧
    (j ≠ i → (s.writeReg i v).readReg j = s.readReg j)

/-! ### Encoding -/

/-- R97 to R101: which word bit each bit of each immediate is. -/
def Obligations.ImmediateBitsComeFromTheWord : Prop :=
  ∀ (w : Word) (i : Nat), i < 32 →
    (immI w).getLsbD i = (if i < 11 then w.getLsbD (i + 20) else w.getLsbD 31) ∧
    (immS w).getLsbD i =
      (if i < 5 then w.getLsbD (i + 7) else if i < 11 then w.getLsbD (i + 20) else w.getLsbD 31) ∧
    (immB w).getLsbD i =
      (if i = 0 then false else if i < 5 then w.getLsbD (i + 7) else if i < 11 then w.getLsbD (i + 20)
        else if i = 11 then w.getLsbD 7 else w.getLsbD 31) ∧
    (immU w).getLsbD i = (if i < 12 then false else w.getLsbD i) ∧
    (immJ w).getLsbD i =
      (if i = 0 then false else if i < 11 then w.getLsbD (i + 20) else if i = 11 then w.getLsbD 20
        else if i < 20 then w.getLsbD i else w.getLsbD 31)

/-- Words of the spec, one or more of each family, decode to what the spec says they are (95_test_vectors.md). -/
def Obligations.SampleWordsDecode : Prop :=
  decode false 0x123450B7 = .ok (.lui 1 0x12345) ∧
  decode false 0xFFFFF097 = .ok (.auipc 1 0xFFFFF) ∧
  decode false 0xFFDFF06F = .ok (.jal 0 (-4)) ∧
  decode false 0x008080E7 = .ok (.jalr 1 1 8) ∧
  decode false 0xFE208CE3 = .ok (.beq 1 2 (-8)) ∧
  decode false 0xFFC0A103 = .ok (.lw 2 1 (-4)) ∧
  decode false 0xFE20AE23 = .ok (.sw 1 2 (-4)) ∧
  decode false 0xFFF0B193 = .ok (.sltiu 3 1 (-1)) ∧
  decode false 0x41F0D193 = .ok (.srai 3 1 31) ∧
  decode false 0x402081B3 = .ok (.sub 3 1 2) ∧
  decode false 0x00100073 = .ok .ebreak ∧
  decode false 0xF14322F3 = .ok (.csrrs 5 6 0xF14)

/-- Every well-formed instruction is read back from its encoding, with every operand, under either `FUNCT7_STRICT`. -/
def Obligations.DecodeReadsBackEveryEncoding : Prop :=
  ∀ (strict : Bool) (i : Instr), i.WellFormed = true → decode strict (encode i) = .ok i

/-- Under `FUNCT7_STRICT = true` every word has one meaning: encoding what a word decodes to gives the word back. -/
def Obligations.EncodeInvertsStrictDecode : Prop :=
  ∀ (w : Word) (i : Instr), decode true w = .ok i → i.WellFormed = true ∧ encode i = w

/-- The dispatch tree and the opcode table agree on every word (30_encoding.md; the spec's decisions D1, D3 to D5; log
11, log 12): a word decodes to the instruction of a row it matches, is illegal exactly when it matches no row, and
matches at most one. -/
def Obligations.DispatchTreeIsTheOpcodeTable : Prop :=
  (∀ (w : Word) (i : Instr), decode false w = .ok i →
    ∃ row ∈ opcodeTable, row.mnemonic = i.mnemonic ∧ w &&& row.mask = row.value) ∧
  (∀ (w : Word) (e : DecodeError), decode false w = .error e → ∀ row ∈ opcodeTable, w &&& row.mask ≠ row.value) ∧
  opcodeTable.Pairwise (fun r q => ∀ w : Word, ¬ (w &&& r.mask = r.value ∧ w &&& q.mask = q.value))

/-- The two values of the parameter of the spec's decision D5 (log 7): `FUNCT7_STRICT = true` only makes words
illegal: it changes no instruction, the words it makes illegal have a nonzero funct7, and they belong to SLLI, SLL,
SLT, SLTU, XOR, OR or AND. -/
def Obligations.StrictFunct7OnlyRemovesWords : Prop :=
  (∀ (w : Word) (i : Instr), decode true w = .ok i → decode false w = .ok i) ∧
  (∀ (w : Word) (i : Instr) (e : DecodeError), decode false w = .ok i → decode true w = .error e →
    funct7Field w ≠ 0b0000000#7 ∧ i.mnemonic ∈ ["SLLI", "SLL", "SLT", "SLTU", "XOR", "OR", "AND"])

/-- 48_system.md (the spec's decisions D2, D3, D4; log 12): the CSR variants but CSRRS, the MISC-MEM opcode, every
other system word, and JALR's opcode with a nonzero funct3 are illegal. -/
def Obligations.UnimplementedSystemWordsAreIllegal : Prop :=
  ∀ (strict : Bool) (w : Word),
    ((w &&& 0x0000707F = 0x00001073 ∨ w &&& 0x0000707F = 0x00003073 ∨ w &&& 0x0000707F = 0x00005073 ∨
      w &&& 0x0000707F = 0x00006073 ∨ w &&& 0x0000707F = 0x00007073) → ∃ e, decode strict w = .error e) ∧
    (opcodeField w = 0b0001111#7 → ∃ e, decode strict w = .error e) ∧
    (w &&& 0x0000707F = 0x00000073 → w ≠ 0x00000073 → w ≠ 0x00100073 → ∃ e, decode strict w = .error e) ∧
    (w &&& 0x0000707F = 0x00004073 → ∃ e, decode strict w = .error e) ∧
    (opcodeField w = 0b1100111#7 → funct3Field w ≠ 0b000#3 → ∃ e, decode strict w = .error e)

/-! ### Upper immediate and jumps -/

/-- R150. -/
def Obligations.LuiWritesUpperImmediate : Prop :=
  RowDecodes 0x00000037 0x0000007F (fun w => .lui (rdField w) (bitsU w)) ∧
  ∀ (rd : RegIdx) (imm20 : BitVec 20) (s : State),
    ∃ t, exec (.lui rd imm20) s = .next t ∧ WritesRegister rd (imm20 ++ 0#12) (s.pc + 4) s t

/-- R151. -/
def Obligations.AuipcAddsUpperImmediateToPc : Prop :=
  RowDecodes 0x00000017 0x0000007F (fun w => .auipc (rdField w) (bitsU w)) ∧
  ∀ (rd : RegIdx) (imm20 : BitVec 20) (s : State),
    ∃ t, exec (.auipc rd imm20) s = .next t ∧ WritesRegister rd (s.pc + (imm20 ++ 0#12)) (s.pc + 4) s t

/-- R161. -/
def Obligations.JalLinksAndJumps : Prop :=
  RowDecodes 0x0000006F 0x0000007F (fun w => .jal (rdField w) (bitsJ w)) ∧
  ∀ (rd : RegIdx) (offset : BitVec 21) (s : State),
    ∃ t, exec (.jal rd offset) s = .next t ∧ WritesRegister rd (s.pc + 4) (s.pc + offset.signExtend 32) s t

/-- JALR, both values of `JALR_LINK_FIRST` (the spec's decision D7, log 8; funct3 000 is its D4, log 12): with `rd =
rs1 ≠ 0` and the link first, the target comes from the link; in every other case from the old `x[rs1]`. Bit 0 of the
target is cleared and every other bit kept. -/
def Obligations.JalrLinksAndJumps : Prop :=
  RowDecodes 0x00000067 0x0000707F (fun w => .jalr (rdField w) (rs1Field w) (bitsI w)) ∧
  ∀ (rd rs1 : RegIdx) (imm : BitVec 12) (s : State),
    ∃ t, exec (.jalr rd rs1 imm) s = .next t ∧ WritesRegister rd (s.pc + 4) t.pc s t ∧
      t.pc.getLsbD 0 = false ∧
      ∀ i : Nat, 1 ≤ i →
        t.pc.getLsbD i =
          ((if s.cfg.jalrLinkFirst = true ∧ rd = rs1 ∧ rs1 ≠ 0 then s.pc + 4 else s.readReg rs1) +
            imm.signExtend 32).getLsbD i

/-! ### Branches -/

/-- R171, R172. -/
def Obligations.EqualityBranchesDecide : Prop :=
  RowDecodes 0x00000063 0x0000707F (fun w => .beq (rs1Field w) (rs2Field w) (bitsB w)) ∧
  RowDecodes 0x00001063 0x0000707F (fun w => .bne (rs1Field w) (rs2Field w) (bitsB w)) ∧
  ∀ (rs1 rs2 : RegIdx) (offset : BitVec 13) (s : State),
    (∃ t, exec (.beq rs1 rs2 offset) s = .next t ∧ OnlyMovesPc t.pc s t ∧
      BranchTarget s offset (s.readReg rs1 = s.readReg rs2) t.pc) ∧
    (∃ t, exec (.bne rs1 rs2 offset) s = .next t ∧ OnlyMovesPc t.pc s t ∧
      BranchTarget s offset (s.readReg rs1 ≠ s.readReg rs2) t.pc)

/-- R173, R174. -/
def Obligations.SignedBranchesDecide : Prop :=
  RowDecodes 0x00004063 0x0000707F (fun w => .blt (rs1Field w) (rs2Field w) (bitsB w)) ∧
  RowDecodes 0x00005063 0x0000707F (fun w => .bge (rs1Field w) (rs2Field w) (bitsB w)) ∧
  ∀ (rs1 rs2 : RegIdx) (offset : BitVec 13) (s : State),
    (∃ t, exec (.blt rs1 rs2 offset) s = .next t ∧ OnlyMovesPc t.pc s t ∧
      BranchTarget s offset ((s.readReg rs1).toInt < (s.readReg rs2).toInt) t.pc) ∧
    (∃ t, exec (.bge rs1 rs2 offset) s = .next t ∧ OnlyMovesPc t.pc s t ∧
      BranchTarget s offset ((s.readReg rs1).toInt ≥ (s.readReg rs2).toInt) t.pc)

/-- R175, R176. -/
def Obligations.UnsignedBranchesDecide : Prop :=
  RowDecodes 0x00006063 0x0000707F (fun w => .bltu (rs1Field w) (rs2Field w) (bitsB w)) ∧
  RowDecodes 0x00007063 0x0000707F (fun w => .bgeu (rs1Field w) (rs2Field w) (bitsB w)) ∧
  ∀ (rs1 rs2 : RegIdx) (offset : BitVec 13) (s : State),
    (∃ t, exec (.bltu rs1 rs2 offset) s = .next t ∧ OnlyMovesPc t.pc s t ∧
      BranchTarget s offset ((s.readReg rs1).toNat < (s.readReg rs2).toNat) t.pc) ∧
    (∃ t, exec (.bgeu rs1 rs2 offset) s = .next t ∧ OnlyMovesPc t.pc s t ∧
      BranchTarget s offset ((s.readReg rs1).toNat ≥ (s.readReg rs2).toNat) t.pc)

/-! ### Loads -/

/-- R191, R194: any address; out of range zero is loaded and one report made. Holds under either `OOR_POLICY`. -/
def Obligations.ByteLoadsExtend : Prop :=
  RowDecodes 0x00000003 0x0000707F (fun w => .lb (rdField w) (rs1Field w) (bitsI w)) ∧
  RowDecodes 0x00004003 0x0000707F (fun w => .lbu (rdField w) (rs1Field w) (bitsI w)) ∧
  ∀ (rd rs1 : RegIdx) (imm : BitVec 12) (s : State),
    let ea := s.readReg rs1 + imm.signExtend 32
    (InRange s.cfg ea 1 →
      (∃ t, exec (.lb rd rs1 imm) s = .next t ∧
        WritesRegister rd ((s.byteAt ea.toNat).signExtend 32) (s.pc + 4) s t) ∧
      (∃ t, exec (.lbu rd rs1 imm) s = .next t ∧
        WritesRegister rd ((s.byteAt ea.toNat).zeroExtend 32) (s.pc + 4) s t)) ∧
    (¬ InRange s.cfg ea 1 →
      (∃ t, exec (.lb rd rs1 imm) s = .next t ∧ ReadsZero rd ea 1 s t) ∧
      (∃ t, exec (.lbu rd rs1 imm) s = .next t ∧ ReadsZero rd ea 1 s t))

/-- R192, R195: in range under either policy; out of range under `OOR_POLICY = whole`. -/
def Obligations.HalfwordLoadsExtend : Prop :=
  RowDecodes 0x00001003 0x0000707F (fun w => .lh (rdField w) (rs1Field w) (bitsI w)) ∧
  RowDecodes 0x00005003 0x0000707F (fun w => .lhu (rdField w) (rs1Field w) (bitsI w)) ∧
  ∀ (rd rs1 : RegIdx) (imm : BitVec 12) (s : State),
    let ea := s.readReg rs1 + imm.signExtend 32
    (InRange s.cfg ea 2 →
      (∃ t, exec (.lh rd rs1 imm) s = .next t ∧
        WritesRegister rd ((s.byteAt (ea.toNat + 1) ++ s.byteAt ea.toNat).signExtend 32) (s.pc + 4) s t) ∧
      (∃ t, exec (.lhu rd rs1 imm) s = .next t ∧
        WritesRegister rd ((s.byteAt (ea.toNat + 1) ++ s.byteAt ea.toNat).zeroExtend 32) (s.pc + 4) s t)) ∧
    (s.cfg.oorPolicy = .whole → ¬ InRange s.cfg ea 2 →
      (∃ t, exec (.lh rd rs1 imm) s = .next t ∧ ReadsZero rd ea 2 s t) ∧
      (∃ t, exec (.lhu rd rs1 imm) s = .next t ∧ ReadsZero rd ea 2 s t))

/-- R193, R56. -/
def Obligations.WordLoadReadsLittleEndian : Prop :=
  RowDecodes 0x00002003 0x0000707F (fun w => .lw (rdField w) (rs1Field w) (bitsI w)) ∧
  ∀ (rd rs1 : RegIdx) (imm : BitVec 12) (s : State),
    let ea := s.readReg rs1 + imm.signExtend 32
    (InRange s.cfg ea 4 →
      ∃ t, exec (.lw rd rs1 imm) s = .next t ∧
        WritesRegister rd
          (s.byteAt (ea.toNat + 3) ++ s.byteAt (ea.toNat + 2) ++ s.byteAt (ea.toNat + 1) ++ s.byteAt ea.toNat)
          (s.pc + 4) s t) ∧
    (s.cfg.oorPolicy = .whole → ¬ InRange s.cfg ea 4 →
      ∃ t, exec (.lw rd rs1 imm) s = .next t ∧ ReadsZero rd ea 4 s t)

/-! ### Stores. The address is `x[rs1] + imm_s`; memory is in canonical form (`EveryStepKeepsTheInvariant` keeps it). -/

/-- R211, R60: any address, under either policy. -/
def Obligations.ByteStoreWritesLowByte : Prop :=
  RowDecodes 0x00000023 0x0000707F (fun w => .sb (rs1Field w) (rs2Field w) (bitsS w)) ∧
  ∀ (rs1 rs2 : RegIdx) (imm : BitVec 12) (s : State), Memory.wf s.cfg.memFill s.cfg.capacity s.mem →
    let ea := s.readReg rs1 + imm.signExtend 32
    (InRange s.cfg ea 1 → ∃ t, exec (.sb rs1 rs2 imm) s = .next t ∧ StoresBytes ea 1 (s.readReg rs2) s t) ∧
    (¬ InRange s.cfg ea 1 → ∃ t, exec (.sb rs1 rs2 imm) s = .next t ∧ DropsStore ea 1 s t)

/-- R212, R61. -/
def Obligations.HalfwordStoreWritesTwoBytes : Prop :=
  RowDecodes 0x00001023 0x0000707F (fun w => .sh (rs1Field w) (rs2Field w) (bitsS w)) ∧
  ∀ (rs1 rs2 : RegIdx) (imm : BitVec 12) (s : State), Memory.wf s.cfg.memFill s.cfg.capacity s.mem →
    let ea := s.readReg rs1 + imm.signExtend 32
    (InRange s.cfg ea 2 →
      ∃ t, exec (.sh rs1 rs2 imm) s = .next t ∧ StoresBytes ea 2 (s.readReg rs2) s t) ∧
    (s.cfg.oorPolicy = .whole → ¬ InRange s.cfg ea 2 →
      ∃ t, exec (.sh rs1 rs2 imm) s = .next t ∧ DropsStore ea 2 s t)

/-- R213, R62. -/
def Obligations.WordStoreWritesFourBytes : Prop :=
  RowDecodes 0x00002023 0x0000707F (fun w => .sw (rs1Field w) (rs2Field w) (bitsS w)) ∧
  ∀ (rs1 rs2 : RegIdx) (imm : BitVec 12) (s : State), Memory.wf s.cfg.memFill s.cfg.capacity s.mem →
    let ea := s.readReg rs1 + imm.signExtend 32
    (InRange s.cfg ea 4 →
      ∃ t, exec (.sw rs1 rs2 imm) s = .next t ∧ StoresBytes ea 4 (s.readReg rs2) s t) ∧
    (s.cfg.oorPolicy = .whole → ¬ InRange s.cfg ea 4 →
      ∃ t, exec (.sw rs1 rs2 imm) s = .next t ∧ DropsStore ea 4 s t)

/-! ### Accesses checked byte by byte (R58, `OOR_POLICY = per_byte`) -/

/-- 20_memory.md's other reading (the spec's decision D11; log 5): a multi-byte load under `per_byte` reads its
in-range bytes and zeros for the others, at every address; it makes reports exactly when some byte is out of range
(their form is the model's choice, log 6). -/
def Obligations.PerByteLoadsReadInRangeBytes : Prop :=
  ∀ (rd rs1 : RegIdx) (imm : BitVec 12) (s : State), s.cfg.oorPolicy = .perByte →
    let ea := s.readReg rs1 + imm.signExtend 32
    let half := s.byteAt (ea.toNat + 1) ++ s.byteAt ea.toNat
    let word := s.byteAt (ea.toNat + 3) ++ s.byteAt (ea.toNat + 2) ++ s.byteAt (ea.toNat + 1) ++ s.byteAt ea.toNat
    let loads := fun (i : Instr) (n : Nat) (v : Word) => ∃ t reports, exec i s = .next t ∧ RegisterWritten rd v s t ∧
      t.pc = s.pc + 4 ∧ SameMemory s t ∧ SameControl s t ∧ t.oorLog = s.oorLog ++ reports ∧
      (reports = [] ↔ InRange s.cfg ea n)
    loads (.lh rd rs1 imm) 2 (half.signExtend 32) ∧ loads (.lhu rd rs1 imm) 2 (half.zeroExtend 32) ∧
      loads (.lw rd rs1 imm) 4 word

/-- The same for stores: a multi-byte store under `per_byte` stores its in-range bytes and drops the others. -/
def Obligations.PerByteStoresKeepInRangeBytes : Prop :=
  ∀ (rs1 rs2 : RegIdx) (imm : BitVec 12) (s : State), s.cfg.oorPolicy = .perByte →
    Memory.wf s.cfg.memFill s.cfg.capacity s.mem →
    let ea := s.readReg rs1 + imm.signExtend 32
    let stores := fun (i : Instr) (n : Nat) => ∃ t reports, exec i s = .next t ∧ SameRegisters s t ∧
      t.pc = s.pc + 4 ∧ SameControl s t ∧ t.oorLog = s.oorLog ++ reports ∧ (reports = [] ↔ InRange s.cfg ea n) ∧
      ∀ a : Nat, t.byteAt a =
        if ea.toNat ≤ a ∧ a < ea.toNat + n ∧ a < s.cfg.capacity then
          (s.readReg rs2).extractLsb' (8 * (a - ea.toNat)) 8
        else s.byteAt a
    stores (.sh rs1 rs2 imm) 2 ∧ stores (.sw rs1 rs2 imm) 4

/-- The spec's decision D11 (log 5: it is followed where R58 calls the point not settled): under `per_byte` an access
whose bytes pass 0xFFFFFFFF does not wrap to address 0. The bytes past it are out of range: a load reads them as zero, a
store drops them and changes nothing below its address, a fetch gives zeros for them. -/
def Obligations.PerByteAccessesDoNotWrap : Prop :=
  ∀ (r1 r2 : RegIdx) (imm : BitVec 12) (s : State), s.cfg.oorPolicy = .perByte → s.cfg.capacity ≤ 2 ^ 32 →
    Memory.wf s.cfg.memFill s.cfg.capacity s.mem →
    let ea := s.readReg r1 + imm.signExtend 32
    let byte := fun k => if ea.toNat + k < 2 ^ 32 then s.byteAt (ea.toNat + k) else 0
    let reports := fun (t : State) => ∃ r, r ≠ [] ∧ t.oorLog = s.oorLog ++ r
    let stores := fun (i : Instr) => ∃ t, exec i s = .next t ∧ t.pc = s.pc + 4 ∧ reports t ∧
      ∀ a : Nat, t.byteAt a =
        if ea.toNat ≤ a ∧ a < s.cfg.capacity then (s.readReg r2).extractLsb' (8 * (a - ea.toNat)) 8 else s.byteAt a
    (2 ^ 32 ≤ ea.toNat + 1 →
      (∃ t, exec (.lh r2 r1 imm) s = .next t ∧
        RegisterWritten r2 ((s.byteAt ea.toNat).zeroExtend 32) s t ∧ t.pc = s.pc + 4 ∧ reports t) ∧
      (∃ t, exec (.lhu r2 r1 imm) s = .next t ∧
        RegisterWritten r2 ((s.byteAt ea.toNat).zeroExtend 32) s t ∧ t.pc = s.pc + 4 ∧ reports t) ∧
      stores (.sh r1 r2 imm)) ∧
    (2 ^ 32 ≤ ea.toNat + 3 →
      (∃ t, exec (.lw r2 r1 imm) s = .next t ∧
        RegisterWritten r2 (0#8 ++ byte 2 ++ byte 1 ++ byte 0) s t ∧ t.pc = s.pc + 4 ∧ reports t) ∧
      stores (.sw r1 r2 imm)) ∧
    (2 ^ 32 ≤ s.pc.toNat + 3 → (WordAtPc s).extractLsb' 24 8 = 0 ∧
      (2 ^ 32 ≤ s.pc.toNat + 2 → (WordAtPc s).extractLsb' 16 8 = 0) ∧
      (2 ^ 32 ≤ s.pc.toNat + 1 → (WordAtPc s).extractLsb' 8 8 = 0))

/-! ### Register-immediate -/

/-- R221. -/
def Obligations.AddiAddsSignExtendedImmediate : Prop :=
  RowDecodes 0x00000013 0x0000707F (fun w => .addi (rdField w) (rs1Field w) (bitsI w)) ∧
  ∀ (rd rs1 : RegIdx) (imm : BitVec 12) (s : State),
    ∃ t, exec (.addi rd rs1 imm) s = .next t ∧
      WritesRegister rd (BitVec.ofNat 32 ((s.readReg rs1).toNat + (imm.signExtend 32).toNat)) (s.pc + 4) s t

/-- R222, R223. -/
def Obligations.ImmediateComparisonsWriteOneOrZero : Prop :=
  RowDecodes 0x00002013 0x0000707F (fun w => .slti (rdField w) (rs1Field w) (bitsI w)) ∧
  RowDecodes 0x00003013 0x0000707F (fun w => .sltiu (rdField w) (rs1Field w) (bitsI w)) ∧
  ∀ (rd rs1 : RegIdx) (imm : BitVec 12) (s : State),
    (∃ t, exec (.slti rd rs1 imm) s = .next t ∧
      WritesRegister rd (if (s.readReg rs1).toInt < imm.toInt then 1 else 0) (s.pc + 4) s t) ∧
    (∃ t, exec (.sltiu rd rs1 imm) s = .next t ∧
      WritesRegister rd (if (s.readReg rs1).toNat < (imm.signExtend 32).toNat then 1 else 0) (s.pc + 4) s t)

/-- R224, R225, R226. -/
def Obligations.ImmediateLogicIsBitwise : Prop :=
  RowDecodes 0x00004013 0x0000707F (fun w => .xori (rdField w) (rs1Field w) (bitsI w)) ∧
  RowDecodes 0x00006013 0x0000707F (fun w => .ori (rdField w) (rs1Field w) (bitsI w)) ∧
  RowDecodes 0x00007013 0x0000707F (fun w => .andi (rdField w) (rs1Field w) (bitsI w)) ∧
  ∀ (rd rs1 : RegIdx) (imm : BitVec 12) (s : State),
    (∃ t, exec (.xori rd rs1 imm) s = .next t ∧
      WritesRegister rd (s.readReg rs1 ^^^ imm.signExtend 32) (s.pc + 4) s t) ∧
    (∃ t, exec (.ori rd rs1 imm) s = .next t ∧
      WritesRegister rd (s.readReg rs1 ||| imm.signExtend 32) (s.pc + 4) s t) ∧
    (∃ t, exec (.andi rd rs1 imm) s = .next t ∧
      WritesRegister rd (s.readReg rs1 &&& imm.signExtend 32) (s.pc + 4) s t)

/-- R228, R229 and SLLI, whose unexamined funct7 is the spec's decision D5 (log 7): shifts by an immediate, bit by
bit. -/
def Obligations.ImmediateShiftsMoveBits : Prop :=
  RowDecodesAnyFunct7 0x00001013 0x0000707F (fun w => .slli (rdField w) (rs1Field w) (shamtField w)) ∧
  RowDecodes 0x00005013 0xFE00707F (fun w => .srli (rdField w) (rs1Field w) (shamtField w)) ∧
  RowDecodes 0x40005013 0xFE00707F (fun w => .srai (rdField w) (rs1Field w) (shamtField w)) ∧
  ∀ (rd rs1 : RegIdx) (shamt : BitVec 5) (s : State),
    (∃ t v, exec (.slli rd rs1 shamt) s = .next t ∧ WritesRegister rd v (s.pc + 4) s t ∧
      ShiftedLeft (s.readReg rs1) shamt.toNat v) ∧
    (∃ t v, exec (.srli rd rs1 shamt) s = .next t ∧ WritesRegister rd v (s.pc + 4) s t ∧
      ShiftedRightLogical (s.readReg rs1) shamt.toNat v) ∧
    (∃ t v, exec (.srai rd rs1 shamt) s = .next t ∧ WritesRegister rd v (s.pc + 4) s t ∧
      ShiftedRightArithmetic (s.readReg rs1) shamt.toNat v)

/-! ### Register-register -/

/-- R241, R242: modulo 2^32. -/
def Obligations.RegisterAddAndSubtractWrap : Prop :=
  RowDecodes 0x00000033 0xFE00707F (fun w => .add (rdField w) (rs1Field w) (rs2Field w)) ∧
  RowDecodes 0x40000033 0xFE00707F (fun w => .sub (rdField w) (rs1Field w) (rs2Field w)) ∧
  ∀ (rd rs1 rs2 : RegIdx) (s : State),
    (∃ t, exec (.add rd rs1 rs2) s = .next t ∧
      WritesRegister rd (BitVec.ofNat 32 ((s.readReg rs1).toNat + (s.readReg rs2).toNat)) (s.pc + 4) s t) ∧
    (∃ t, exec (.sub rd rs1 rs2) s = .next t ∧
      WritesRegister rd (BitVec.ofInt 32 ((s.readReg rs1).toInt - (s.readReg rs2).toInt)) (s.pc + 4) s t)

/-- R244, R245; what words with a nonzero funct7 decode to, by `FUNCT7_STRICT`, is the spec's decision D5 (log 7). -/
def Obligations.RegisterComparisonsWriteOneOrZero : Prop :=
  RowDecodesAnyFunct7 0x00002033 0x0000707F (fun w => .slt (rdField w) (rs1Field w) (rs2Field w)) ∧
  RowDecodesAnyFunct7 0x00003033 0x0000707F (fun w => .sltu (rdField w) (rs1Field w) (rs2Field w)) ∧
  ∀ (rd rs1 rs2 : RegIdx) (s : State),
    (∃ t, exec (.slt rd rs1 rs2) s = .next t ∧
      WritesRegister rd (if (s.readReg rs1).toInt < (s.readReg rs2).toInt then 1 else 0) (s.pc + 4) s t) ∧
    (∃ t, exec (.sltu rd rs1 rs2) s = .next t ∧
      WritesRegister rd (if (s.readReg rs1).toNat < (s.readReg rs2).toNat then 1 else 0) (s.pc + 4) s t)

/-- R246, R249, R250; what words with a nonzero funct7 decode to, by `FUNCT7_STRICT`, is the spec's decision D5 (log
7). -/
def Obligations.RegisterLogicIsBitwise : Prop :=
  RowDecodesAnyFunct7 0x00004033 0x0000707F (fun w => .xor (rdField w) (rs1Field w) (rs2Field w)) ∧
  RowDecodesAnyFunct7 0x00006033 0x0000707F (fun w => .or (rdField w) (rs1Field w) (rs2Field w)) ∧
  RowDecodesAnyFunct7 0x00007033 0x0000707F (fun w => .and (rdField w) (rs1Field w) (rs2Field w)) ∧
  ∀ (rd rs1 rs2 : RegIdx) (s : State),
    (∃ t, exec (.xor rd rs1 rs2) s = .next t ∧
      WritesRegister rd (s.readReg rs1 ^^^ s.readReg rs2) (s.pc + 4) s t) ∧
    (∃ t, exec (.or rd rs1 rs2) s = .next t ∧
      WritesRegister rd (s.readReg rs1 ||| s.readReg rs2) (s.pc + 4) s t) ∧
    (∃ t, exec (.and rd rs1 rs2) s = .next t ∧
      WritesRegister rd (s.readReg rs1 &&& s.readReg rs2) (s.pc + 4) s t)

/-- R243, R247, R248: the amount is the low five bits of `x[rs2]`. What SLL's words with a nonzero funct7 decode to, by
`FUNCT7_STRICT`, is the spec's decision D5 (log 7). -/
def Obligations.RegisterShiftsMoveBits : Prop :=
  RowDecodesAnyFunct7 0x00001033 0x0000707F (fun w => .sll (rdField w) (rs1Field w) (rs2Field w)) ∧
  RowDecodes 0x00005033 0xFE00707F (fun w => .srl (rdField w) (rs1Field w) (rs2Field w)) ∧
  RowDecodes 0x40005033 0xFE00707F (fun w => .sra (rdField w) (rs1Field w) (rs2Field w)) ∧
  ∀ (rd rs1 rs2 : RegIdx) (s : State),
    (∃ t v, exec (.sll rd rs1 rs2) s = .next t ∧ WritesRegister rd v (s.pc + 4) s t ∧
      ShiftedLeft (s.readReg rs1) ((s.readReg rs2).toNat % 32) v) ∧
    (∃ t v, exec (.srl rd rs1 rs2) s = .next t ∧ WritesRegister rd v (s.pc + 4) s t ∧
      ShiftedRightLogical (s.readReg rs1) ((s.readReg rs2).toNat % 32) v) ∧
    (∃ t v, exec (.sra rd rs1 rs2) s = .next t ∧ WritesRegister rd v (s.pc + 4) s t ∧
      ShiftedRightArithmetic (s.readReg rs1) ((s.readReg rs2).toNat % 32) v)

/-! ### System and halting -/

/-- R303 for ECALL; that its `pc` stays is the spec's decision D8 (log 13), and the whole-word match its D3 (log 12). -/
def Obligations.EcallHaltsInPlace : Prop :=
  (∀ (strict : Bool) (w : Word), decode strict w = .ok .ecall ↔ w = 0x00000073) ∧
  ∀ s : State, ∃ t, exec .ecall s = .next t ∧ OnlyHalts .environmentCall s t

/-- R261, R303 for EBREAK; the whole-word match is the spec's decision D3 (log 12). -/
def Obligations.EbreakHaltsInPlace : Prop :=
  (∀ (strict : Bool) (w : Word), decode strict w = .ok .ebreak ↔ w = 0x00100073) ∧
  ∀ s : State, ∃ t, exec .ebreak s = .next t ∧ OnlyHalts .environmentBreak s t

/-- CSRRS, both values of `CSR_INDEX_EXT`; that it advances `pc` and is the funct3 010 word are the spec's decisions D6
and D24 (log 9). -/
def Obligations.CsrrsAndsIndexWithRegister : Prop :=
  RowDecodes 0x00002073 0x0000707F (fun w => .csrrs (rdField w) (rs1Field w) (csrField w)) ∧
  ∀ (rd rs1 : RegIdx) (csr : BitVec 12) (s : State),
    (s.cfg.csrIndexExt = .zext → ∃ t, exec (.csrrs rd rs1 csr) s = .next t ∧
      WritesRegister rd (csr.zeroExtend 32 &&& s.readReg rs1) (s.pc + 4) s t) ∧
    (s.cfg.csrIndexExt = .sext → ∃ t, exec (.csrrs rd rs1 csr) s = .next t ∧
      WritesRegister rd (csr.signExtend 32 &&& s.readReg rs1) (s.pc + 4) s t)

/-- R130, R131, R133: a step of a running hart whose word at `pc` decodes to `i` is `exec i` after counting. The `pc` is
still the instruction's own; nothing else is added around `exec`. -/
def Obligations.StepRunsTheDecodedInstruction : Prop :=
  ∀ (s : State) (i : Instr), s.halted = false → InRange s.cfg s.pc 4 →
    decode s.cfg.funct7Strict (WordAtPc s) = .ok i → step s = exec i { s with icount := s.icount + 1 }

/-- A word that is no instruction halts the hart in place and is counted; that its `pc` stays is the spec's decision D8
(log 13). -/
def Obligations.IllegalWordHaltsInPlace : Prop :=
  ∀ (s : State) (e : DecodeError), s.halted = false → InRange s.cfg s.pc 4 →
    decode s.cfg.funct7Strict (WordAtPc s) = .error e →
    ∃ t, step s = .next t ∧ OnlyHalts .illegalInstruction { s with icount := s.icount + 1 } t

/-- Derived by the spec from its out-of-range rule (R132 (a), (c); log 14): a fetch out of range, straddling the end
included, reports once and halts with IllegalInstruction. -/
def Obligations.OutOfRangeFetchHalts : Prop :=
  ∀ s : State, s.halted = false → s.cfg.oorPolicy = .whole → ¬ InRange s.cfg s.pc 4 →
    ∃ t, step s = .next t ∧
      OnlyHalts .illegalInstruction
        { s with icount := s.icount + 1, oorLog := s.oorLog ++ [⟨.read, s.pc, 4⟩] } t

/-- 20_memory.md's other reading (the spec's decision D11; log 5): under `per_byte` a fetch, at any `pc`, gives
the word of its in-range bytes and zeros, which is executed after counting and after the fetch's reports, none exactly
when it is in range (their form is the model's choice, log 6). -/
def Obligations.PerByteFetchRunsTheComposedWord : Prop :=
  ∀ s : State, s.halted = false → s.cfg.oorPolicy = .perByte →
    ∃ reports : List OorReport, (reports = [] ↔ InRange s.cfg s.pc 4) ∧
      (∀ i, decode s.cfg.funct7Strict (WordAtPc s) = .ok i →
        step s = exec i { s with icount := s.icount + 1, oorLog := s.oorLog ++ reports }) ∧
      (∀ e, decode s.cfg.funct7Strict (WordAtPc s) = .error e → ∃ t, step s = .next t ∧
        OnlyHalts .illegalInstruction { s with icount := s.icount + 1, oorLog := s.oorLog ++ reports } t)

/-- R304, R30: any number of ticks of a halted hart change nothing. -/
def Obligations.HaltedHartStaysAsItIs : Prop :=
  ∀ (n : Nat) (s : State), s.halted = true → Host.Core.run Sys2Proof.core n s = .next s

/-- R300, R303: a step of a running hart has one word `w`, the word at `pc` (its out-of-range bytes zero under
`per_byte`, the spec's decision D11, log 5) or, out of range under `OOR_POLICY = whole`, zero; it halts exactly when `w`
is no instruction, ECALL's word or EBREAK's (the spec's decision D3, log 12), with that cause; and halting changes no
register, no memory and no `pc` (for ECALL and an illegal word the spec's decision D8, log 13), and is counted once. -/
def Obligations.OnlyThreeCausesHalt : Prop :=
  ∀ s t : State, s.halted = false → step s = .next t → ∃ w : Word,
    (InRange s.cfg s.pc 4 → w = WordAtPc s) ∧
    (s.cfg.oorPolicy = .perByte → w = WordAtPc s) ∧
    (s.cfg.oorPolicy = .whole → ¬ InRange s.cfg s.pc 4 → w = 0) ∧
    (t.halted = true ↔ (∃ e, decode s.cfg.funct7Strict w = .error e) ∨ w = 0x00000073 ∨ w = 0x00100073) ∧
    ((∃ e, decode s.cfg.funct7Strict w = .error e) → t.haltReason = .illegalInstruction) ∧
    (w = 0x00000073 → t.haltReason = .environmentCall) ∧
    (w = 0x00100073 → t.haltReason = .environmentBreak) ∧
    (t.halted = true → SameRegisters s t ∧ t.pc = s.pc ∧ SameMemory s t ∧ t.icount = s.icount + 1 ∧ t.cfg = s.cfg)

/-- The spec's decisions D16, D17 (log 17, log 18), R306: a tick of a running hart counts exactly one instruction; the
report log only grows, by at most one report under `OOR_POLICY = whole`; no step changes the parameters. -/
def Obligations.StepCountsOneAndAppendsReports : Prop :=
  ∀ s t : State, s.halted = false → step s = .next t →
    t.icount = s.icount + 1 ∧ t.cfg = s.cfg ∧
    ∃ reports, t.oorLog = s.oorLog ++ reports ∧ (s.cfg.oorPolicy = .whole → reports.length ≤ 1)

/-! ### Whole-machine statements -/

/-- The reset state meets the invariant. -/
def Obligations.ResetMeetsTheInvariant : Prop := State.reset.Inv

/-- Every step keeps the invariant: canonical memory inside the array, lawful parameters, a halt reason exactly when
halted (R31). -/
def Obligations.EveryStepKeepsTheInvariant : Prop :=
  ∀ s t : State, s.Inv → step s = .next t → t.Inv

/-- An even `pc` stays even, whatever executes (10_state.md; the spec's decision D9: no alignment check; log 14). -/
def Obligations.PcStaysEven : Prop :=
  ∀ s t : State, s.pc.getLsbD 0 = false → step s = .next t → t.pc.getLsbD 0 = false

/-- Every tick of every state completes, under either `OOR_POLICY`, and so does any number of ticks: no fault, no
refusal (60_exceptions.md; that an access past 0xFFFFFFFF completes is the spec's decision D11, log 5). -/
def Obligations.EveryTickCompletes : Prop :=
  ∀ (n : Nat) (s : State), ∃ t, Host.Core.run Sys2Proof.core n s = .next t

/-- The spec's decisions D16, D17 (log 17, log 18): the counter and the report log influence nothing else: from two
states that differ only there, any number of steps complete, in states that differ only there. -/
def Obligations.CounterAndReportsAreInvisible : Prop :=
  ∀ (n : Nat) (s s' : State), SameVisible s s' →
    ∃ t t', Host.Core.run Sys2Proof.core n s = .next t ∧ Host.Core.run Sys2Proof.core n s' = .next t' ∧ SameVisible t t'

/-- The canonical form: two memories in it that read the same at every address are the same data. -/
def Obligations.CanonicalMemoriesThatReadAlikeAreEqual : Prop :=
  ∀ (fill : Byte) (capacity : Nat) (m m' : Memory), Memory.wf fill capacity m → Memory.wf fill capacity m' →
    (∀ a : Nat, Memory.get fill m a = Memory.get fill m' a) → m = m'

/-- 20_memory.md, the source's scenario 4: a stored word is loaded back unchanged, from any in-range address, aligned
or not. -/
def Obligations.StoredWordLoadsBackUnchanged : Prop :=
  ∀ (rd rs1 rs2 : RegIdx) (imm : BitVec 12) (s : State), s.Inv →
    InRange s.cfg (s.readReg rs1 + imm.signExtend 32) 4 →
    ∃ t u, exec (.sw rs1 rs2 imm) s = .next t ∧ exec (.lw rd rs1 imm) t = .next u ∧
      RegisterWritten rd (s.readReg rs2) s u

/-- 20_memory.md, derived by the spec: a word stored over the next instruction is the word the very next fetch reads. -/
def Obligations.StoreIsSeenByTheNextFetch : Prop :=
  ∀ (rs1 rs2 : RegIdx) (imm : BitVec 12) (s : State), s.Inv → InRange s.cfg (s.pc + 4) 4 →
    s.readReg rs1 + imm.signExtend 32 = s.pc + 4 →
    ∃ t, exec (.sw rs1 rs2 imm) s = .next t ∧ t.fetch = (s.readReg rs2, t)

/-! ### The host's interface, the renderer, placing an instruction -/

/-- 70_reset_and_hazards.md: a load that fits copies the image to address 0 and leaves every other byte; one that does
not fit is refused (model's choice among the two the rule allows, log 19). -/
def Obligations.LoadCopiesTheImage : Prop :=
  ∀ (s : State) (image : List Byte), Memory.wf s.cfg.memFill s.cfg.capacity s.mem →
    (image.length ≤ s.cfg.capacity → ∃ t, s.loadImage image = .next t ∧
      (∀ a : Nat, t.byteAt a = match image[a]? with | some b => b | none => s.byteAt a) ∧
      SameRegisters s t ∧ t.pc = s.pc ∧ SameControl s t ∧ t.oorLog = s.oorLog ∧
      Memory.wf t.cfg.memFill t.cfg.capacity t.mem) ∧
    (s.cfg.capacity < image.length → s.loadImage image = .refused .failedLoad)

/-- 70_reset_and_hazards.md, 10_state.md: what the host's accessors return; the three halt reasons render to three
different texts. -/
def Obligations.HostAccessorsReadTheState : Prop :=
  ∀ s : State,
    s.isHalted = s.halted ∧ s.instructionCount = s.icount ∧ s.dumpPc = s.pc ∧
    (∀ i : RegIdx, s.dumpRegisters[i.val]? = some (s.readReg i)) ∧
    (s.cfg.Lawful → ∀ r q : HaltReason, r ≠ .none → q ≠ .none → r ≠ q →
      ({ s with haltReason := r } : State).haltReasonText ≠ ({ s with haltReason := q } : State).haltReasonText)

/-- 49_rendering.md (the spec's decisions D19, D21; log 20): a word renders as the marker exactly when it is illegal;
any other word renders with the mnemonic of the decoded instruction and its operands; in the rendered line JAL and the
six branches show the absolute target last, JALR an immediate with its base. The order of the operands before them is
the model's choice (log 20). -/
def Obligations.RenderingAgreesWithDecoding : Prop :=
  ∀ (strict : Bool) (address w : Word),
    (rendering strict address w = .marker ↔ ∃ e, decode strict w = .error e) ∧
    ((∃ e, decode strict w = .error e) → render strict address w = Config.illegalMarker) ∧
    (∀ i, decode strict w = .ok i → rendering strict address w = .line i.mnemonic (operandShape address i)) ∧
    (∀ rd offset, decode strict w = .ok (.jal rd offset) →
      rendering strict address w = .line "JAL" (.listed [.register rd, .target (address + immJ w)])) ∧
    (∀ rd rs1 imm, decode strict w = .ok (.jalr rd rs1 imm) →
      rendering strict address w = .line "JALR" (.listed [.register rd, .immediateWithBase (immI w) rs1])) ∧
    (∀ branch ∈ [Instr.beq, Instr.bne, Instr.blt, Instr.bge, Instr.bltu, Instr.bgeu], ∀ rs1 rs2 offset,
      decode strict w = .ok (branch rs1 rs2 offset) →
        rendering strict address w = .line (branch rs1 rs2 offset).mnemonic
          (.listed [.register rs1, .register rs2, .target (address + immB w)]))

/-- 40_fetch_dispatch.md, 49_rendering.md (the spec's decision D23; log 21): tracing changes no outcome; off, or on a
halted hart, it writes nothing; a tick of a running hart writes one line, which holds the rendering of the word it runs
and after it a comment. That word is the one at `pc` (under `per_byte` its out-of-range bytes zero: D11, log 5), or 0 if
`pc` is out of range under `OOR_POLICY = whole`. What stands before the rendering depends on `pc` and the word alone and
is a free text (log 21). -/
def Obligations.TraceHasNoEffect : Prop :=
  ∀ s : State,
    (∀ on : Bool, (tickTraced on s).1 = step s) ∧
    (tickTraced false s).2 = [] ∧
    (s.halted = true → (tickTraced true s).2 = []) ∧
    (s.halted = false → InRange s.cfg s.pc 4 ∨ s.cfg.oorPolicy = .perByte →
      ∃ comment, (tickTraced true s).2 =
        [Config.traceLead s.pc (WordAtPc s) ++ render s.cfg.funct7Strict s.pc (WordAtPc s) ++ comment]) ∧
    (s.halted = false → s.cfg.oorPolicy = .whole → ¬ InRange s.cfg s.pc 4 →
      ∃ comment, (tickTraced true s).2 =
        [Config.traceLead s.pc 0 ++ render s.cfg.funct7Strict s.pc 0 ++ comment])

/-- Placing an instruction where the next fetch reads it makes the very next step run it, from any state of the
invariant (the model's own means of loading, log 23). -/
def Obligations.PlacedWordIsTheNextToRun : Prop :=
  ∀ (s : State) (nbits w : Nat), s.Inv → nbits ≤ 32 →
    (s.withFetchWord nbits w).halted = false ∧ InRange (s.withFetchWord nbits w).cfg (s.withFetchWord nbits w).pc 4 ∧
    WordAtPc (s.withFetchWord nbits w) = BitVec.ofNat 32 (w % 2 ^ nbits) ∧
    step (s.withFetchWord nbits w) =
      execute (BitVec.ofNat 32 (w % 2 ^ nbits)) (s.withFetchWord nbits w).countInstruction

end Statements
end

