-- ==== Sys2Proof/Laws/Decode.lean ====
section
/-!
SUPPORT. For each encoding format (30_encoding.md R102): the bits of an encoded word, and what every field function
reads back from it. One lemma per format; `simp` uses each conjunct as a rewrite.
-/

namespace Sys2Proof

theorem toFin_eq_of_bits {x : BitVec 5} {r : RegIdx} (h : x = regBits r) : x.toFin = r := by
  rw [h]; rfl

/-! ### Format R -/

theorem encodeR_getLsbD (funct7 : BitVec 7) (rs2 rs1 : RegIdx) (funct3 : BitVec 3) (rd : RegIdx) (opcode : BitVec 7) (i : Nat) :
    (encodeR funct7 rs2 rs1 funct3 rd opcode).getLsbD i =
      if i < 7 then opcode.getLsbD i
      else if i < 12 then (regBits rd).getLsbD (i - 7)
      else if i < 15 then funct3.getLsbD (i - 12)
      else if i < 20 then (regBits rs1).getLsbD (i - 15)
      else if i < 25 then (regBits rs2).getLsbD (i - 20)
      else funct7.getLsbD (i - 25) := by
  change BitVec.getLsbD (w := 7 + 5 + 5 + 3 + 5 + 7)
    (funct7 ++ regBits rs2 ++ regBits rs1 ++ funct3 ++ regBits rd ++ opcode) i = _
  simp only [BitVec.getLsbD_append]
  split_ifs <;> first | omega | rfl

theorem encodeR_fields (funct7 : BitVec 7) (rs2 rs1 : RegIdx) (funct3 : BitVec 3) (rd : RegIdx) (opcode : BitVec 7) :
    opcodeField (encodeR funct7 rs2 rs1 funct3 rd opcode) = opcode ∧
    rdField (encodeR funct7 rs2 rs1 funct3 rd opcode) = rd ∧
    funct3Field (encodeR funct7 rs2 rs1 funct3 rd opcode) = funct3 ∧
    rs1Field (encodeR funct7 rs2 rs1 funct3 rd opcode) = rs1 ∧
    rs2Field (encodeR funct7 rs2 rs1 funct3 rd opcode) = rs2 ∧
    funct7Field (encodeR funct7 rs2 rs1 funct3 rd opcode) = funct7 := by
  refine ⟨?_, toFin_eq_of_bits ?_, ?_, toFin_eq_of_bits ?_, toFin_eq_of_bits ?_, ?_⟩ <;>
  · apply BitVec.eq_of_getLsbD_eq
    intro i hi
    simp only [opcodeField, funct3Field, funct7Field, BitVec.getLsbD_extractLsb', encodeR_getLsbD, hi, decide_true, Bool.true_and]
    split_ifs <;> first | omega | (congr 1; omega)

/-! ### Format I -/

theorem encodeI_getLsbD (imm : BitVec 12) (rs1 : RegIdx) (funct3 : BitVec 3) (rd : RegIdx) (opcode : BitVec 7) (i : Nat) :
    (encodeI imm rs1 funct3 rd opcode).getLsbD i =
      if i < 7 then opcode.getLsbD i
      else if i < 12 then (regBits rd).getLsbD (i - 7)
      else if i < 15 then funct3.getLsbD (i - 12)
      else if i < 20 then (regBits rs1).getLsbD (i - 15)
      else imm.getLsbD (i - 20) := by
  change BitVec.getLsbD (w := 12 + 5 + 3 + 5 + 7)
    (imm ++ regBits rs1 ++ funct3 ++ regBits rd ++ opcode) i = _
  simp only [BitVec.getLsbD_append]
  split_ifs <;> first | omega | rfl

theorem encodeI_fields (imm : BitVec 12) (rs1 : RegIdx) (funct3 : BitVec 3) (rd : RegIdx) (opcode : BitVec 7) :
    opcodeField (encodeI imm rs1 funct3 rd opcode) = opcode ∧
    rdField (encodeI imm rs1 funct3 rd opcode) = rd ∧
    funct3Field (encodeI imm rs1 funct3 rd opcode) = funct3 ∧
    rs1Field (encodeI imm rs1 funct3 rd opcode) = rs1 ∧
    bitsI (encodeI imm rs1 funct3 rd opcode) = imm ∧
    csrField (encodeI imm rs1 funct3 rd opcode) = imm := by
  refine ⟨?_, toFin_eq_of_bits ?_, ?_, toFin_eq_of_bits ?_, ?_, ?_⟩ <;>
  · apply BitVec.eq_of_getLsbD_eq
    intro i hi
    simp only [opcodeField, funct3Field, bitsI, csrField, BitVec.getLsbD_extractLsb', encodeI_getLsbD, hi, decide_true, Bool.true_and]
    split_ifs <;> first | omega | (congr 1; omega)

/-! ### Format Shift -/

theorem encodeShift_getLsbD (funct7 : BitVec 7) (shamt : BitVec 5) (rs1 : RegIdx) (funct3 : BitVec 3) (rd : RegIdx) (opcode : BitVec 7) (i : Nat) :
    (encodeShift funct7 shamt rs1 funct3 rd opcode).getLsbD i =
      if i < 7 then opcode.getLsbD i
      else if i < 12 then (regBits rd).getLsbD (i - 7)
      else if i < 15 then funct3.getLsbD (i - 12)
      else if i < 20 then (regBits rs1).getLsbD (i - 15)
      else if i < 25 then shamt.getLsbD (i - 20)
      else funct7.getLsbD (i - 25) := by
  change BitVec.getLsbD (w := 7 + 5 + 5 + 3 + 5 + 7)
    (funct7 ++ shamt ++ regBits rs1 ++ funct3 ++ regBits rd ++ opcode) i = _
  simp only [BitVec.getLsbD_append]
  split_ifs <;> first | omega | rfl

theorem encodeShift_fields (funct7 : BitVec 7) (shamt : BitVec 5) (rs1 : RegIdx) (funct3 : BitVec 3) (rd : RegIdx) (opcode : BitVec 7) :
    opcodeField (encodeShift funct7 shamt rs1 funct3 rd opcode) = opcode ∧
    rdField (encodeShift funct7 shamt rs1 funct3 rd opcode) = rd ∧
    funct3Field (encodeShift funct7 shamt rs1 funct3 rd opcode) = funct3 ∧
    rs1Field (encodeShift funct7 shamt rs1 funct3 rd opcode) = rs1 ∧
    shamtField (encodeShift funct7 shamt rs1 funct3 rd opcode) = shamt ∧
    funct7Field (encodeShift funct7 shamt rs1 funct3 rd opcode) = funct7 := by
  refine ⟨?_, toFin_eq_of_bits ?_, ?_, toFin_eq_of_bits ?_, ?_, ?_⟩ <;>
  · apply BitVec.eq_of_getLsbD_eq
    intro i hi
    simp only [opcodeField, funct3Field, shamtField, funct7Field, BitVec.getLsbD_extractLsb', encodeShift_getLsbD, hi, decide_true, Bool.true_and]
    split_ifs <;> first | omega | (congr 1; omega)

/-! ### Format S -/

theorem encodeS_getLsbD (imm : BitVec 12) (rs2 rs1 : RegIdx) (funct3 : BitVec 3) (opcode : BitVec 7) (i : Nat) :
    (encodeS imm rs2 rs1 funct3 opcode).getLsbD i =
      if i < 7 then opcode.getLsbD i
      else if i < 12 then (imm.extractLsb' 0 5).getLsbD (i - 7)
      else if i < 15 then funct3.getLsbD (i - 12)
      else if i < 20 then (regBits rs1).getLsbD (i - 15)
      else if i < 25 then (regBits rs2).getLsbD (i - 20)
      else (imm.extractLsb' 5 7).getLsbD (i - 25) := by
  change BitVec.getLsbD (w := 7 + 5 + 5 + 3 + 5 + 7)
    (imm.extractLsb' 5 7 ++ regBits rs2 ++ regBits rs1 ++ funct3 ++ imm.extractLsb' 0 5 ++ opcode) i = _
  simp only [BitVec.getLsbD_append]
  split_ifs <;> first | omega | rfl

theorem encodeS_fields (imm : BitVec 12) (rs2 rs1 : RegIdx) (funct3 : BitVec 3) (opcode : BitVec 7) :
    opcodeField (encodeS imm rs2 rs1 funct3 opcode) = opcode ∧
    funct3Field (encodeS imm rs2 rs1 funct3 opcode) = funct3 ∧
    rs1Field (encodeS imm rs2 rs1 funct3 opcode) = rs1 ∧
    rs2Field (encodeS imm rs2 rs1 funct3 opcode) = rs2 := by
  refine ⟨?_, ?_, toFin_eq_of_bits ?_, toFin_eq_of_bits ?_⟩ <;>
  · apply BitVec.eq_of_getLsbD_eq
    intro i hi
    simp only [opcodeField, funct3Field, BitVec.getLsbD_extractLsb', encodeS_getLsbD, hi, decide_true, Bool.true_and]
    split_ifs <;> first | omega | (congr 1; omega)

theorem bitsS_encodeS (imm : BitVec 12) (rs2 rs1 : RegIdx) (funct3 : BitVec 3) (opcode : BitVec 7) :
    bitsS (encodeS imm rs2 rs1 funct3 opcode) = imm := by
  apply BitVec.eq_of_getLsbD_eq
  intro i hi
  change BitVec.getLsbD (w := 7 + 5) ((encodeS imm rs2 rs1 funct3 opcode).extractLsb' 25 7 ++ (encodeS imm rs2 rs1 funct3 opcode).extractLsb' 7 5) i = _
  simp only [BitVec.getLsbD_append, BitVec.getLsbD_extractLsb', encodeS_getLsbD]
  interval_cases i <;> simp

/-! ### Format B -/

theorem encodeB_getLsbD (offset : BitVec 13) (rs2 rs1 : RegIdx) (funct3 : BitVec 3) (opcode : BitVec 7) (i : Nat) :
    (encodeB offset rs2 rs1 funct3 opcode).getLsbD i =
      if i < 7 then opcode.getLsbD i
      else if i < 8 then (offset.extractLsb' 11 1).getLsbD (i - 7)
      else if i < 12 then (offset.extractLsb' 1 4).getLsbD (i - 8)
      else if i < 15 then funct3.getLsbD (i - 12)
      else if i < 20 then (regBits rs1).getLsbD (i - 15)
      else if i < 25 then (regBits rs2).getLsbD (i - 20)
      else if i < 31 then (offset.extractLsb' 5 6).getLsbD (i - 25)
      else (offset.extractLsb' 12 1).getLsbD (i - 31) := by
  change BitVec.getLsbD (w := 1 + 6 + 5 + 5 + 3 + 4 + 1 + 7)
    (offset.extractLsb' 12 1 ++ offset.extractLsb' 5 6 ++ regBits rs2 ++ regBits rs1 ++ funct3 ++ offset.extractLsb' 1 4 ++ offset.extractLsb' 11 1 ++ opcode) i = _
  simp only [BitVec.getLsbD_append]
  split_ifs <;> first | omega | rfl

theorem encodeB_fields (offset : BitVec 13) (rs2 rs1 : RegIdx) (funct3 : BitVec 3) (opcode : BitVec 7) :
    opcodeField (encodeB offset rs2 rs1 funct3 opcode) = opcode ∧
    funct3Field (encodeB offset rs2 rs1 funct3 opcode) = funct3 ∧
    rs1Field (encodeB offset rs2 rs1 funct3 opcode) = rs1 ∧
    rs2Field (encodeB offset rs2 rs1 funct3 opcode) = rs2 := by
  refine ⟨?_, ?_, toFin_eq_of_bits ?_, toFin_eq_of_bits ?_⟩ <;>
  · apply BitVec.eq_of_getLsbD_eq
    intro i hi
    simp only [opcodeField, funct3Field, BitVec.getLsbD_extractLsb', encodeB_getLsbD, hi, decide_true, Bool.true_and]
    split_ifs <;> first | omega | (congr 1; omega)

theorem bitsB_encodeB (offset : BitVec 13) (rs2 rs1 : RegIdx) (funct3 : BitVec 3) (opcode : BitVec 7)
    (h : evenOffset offset = true) :
    bitsB (encodeB offset rs2 rs1 funct3 opcode) = offset := by
  apply BitVec.eq_of_getLsbD_eq
  intro i hi
  change BitVec.getLsbD (w := 1 + 1 + 6 + 4 + 1) ((encodeB offset rs2 rs1 funct3 opcode).extractLsb' 31 1 ++ (encodeB offset rs2 rs1 funct3 opcode).extractLsb' 7 1 ++
    (encodeB offset rs2 rs1 funct3 opcode).extractLsb' 25 6 ++ (encodeB offset rs2 rs1 funct3 opcode).extractLsb' 8 4 ++ 0#1) i = _
  simp only [BitVec.getLsbD_append, BitVec.getLsbD_extractLsb', encodeB_getLsbD]
  have h0 : offset[0] = false := by simpa [evenOffset] using h
  interval_cases i <;> simp [h0]

/-! ### Format U -/

theorem encodeU_getLsbD (imm20 : BitVec 20) (rd : RegIdx) (opcode : BitVec 7) (i : Nat) :
    (encodeU imm20 rd opcode).getLsbD i =
      if i < 7 then opcode.getLsbD i
      else if i < 12 then (regBits rd).getLsbD (i - 7)
      else imm20.getLsbD (i - 12) := by
  change BitVec.getLsbD (w := 20 + 5 + 7)
    (imm20 ++ regBits rd ++ opcode) i = _
  simp only [BitVec.getLsbD_append]
  split_ifs <;> first | omega | rfl

theorem encodeU_fields (imm20 : BitVec 20) (rd : RegIdx) (opcode : BitVec 7) :
    opcodeField (encodeU imm20 rd opcode) = opcode ∧
    rdField (encodeU imm20 rd opcode) = rd ∧
    bitsU (encodeU imm20 rd opcode) = imm20 := by
  refine ⟨?_, toFin_eq_of_bits ?_, ?_⟩ <;>
  · apply BitVec.eq_of_getLsbD_eq
    intro i hi
    simp only [opcodeField, bitsU, BitVec.getLsbD_extractLsb', encodeU_getLsbD, hi, decide_true, Bool.true_and]
    split_ifs <;> first | omega | (congr 1; omega)

/-! ### Format J -/

theorem encodeJ_getLsbD (offset : BitVec 21) (rd : RegIdx) (opcode : BitVec 7) (i : Nat) :
    (encodeJ offset rd opcode).getLsbD i =
      if i < 7 then opcode.getLsbD i
      else if i < 12 then (regBits rd).getLsbD (i - 7)
      else if i < 20 then (offset.extractLsb' 12 8).getLsbD (i - 12)
      else if i < 21 then (offset.extractLsb' 11 1).getLsbD (i - 20)
      else if i < 31 then (offset.extractLsb' 1 10).getLsbD (i - 21)
      else (offset.extractLsb' 20 1).getLsbD (i - 31) := by
  change BitVec.getLsbD (w := 1 + 10 + 1 + 8 + 5 + 7)
    (offset.extractLsb' 20 1 ++ offset.extractLsb' 1 10 ++ offset.extractLsb' 11 1 ++ offset.extractLsb' 12 8 ++ regBits rd ++ opcode) i = _
  simp only [BitVec.getLsbD_append]
  split_ifs <;> first | omega | rfl

theorem encodeJ_fields (offset : BitVec 21) (rd : RegIdx) (opcode : BitVec 7) :
    opcodeField (encodeJ offset rd opcode) = opcode ∧
    rdField (encodeJ offset rd opcode) = rd := by
  refine ⟨?_, toFin_eq_of_bits ?_⟩ <;>
  · apply BitVec.eq_of_getLsbD_eq
    intro i hi
    simp only [opcodeField, BitVec.getLsbD_extractLsb', encodeJ_getLsbD, hi, decide_true, Bool.true_and]
    split_ifs <;> first | omega | (congr 1; omega)

theorem bitsJ_encodeJ (offset : BitVec 21) (rd : RegIdx) (opcode : BitVec 7)
    (h : evenOffset offset = true) :
    bitsJ (encodeJ offset rd opcode) = offset := by
  apply BitVec.eq_of_getLsbD_eq
  intro i hi
  change BitVec.getLsbD (w := 1 + 8 + 1 + 10 + 1) ((encodeJ offset rd opcode).extractLsb' 31 1 ++ (encodeJ offset rd opcode).extractLsb' 12 8 ++
    (encodeJ offset rd opcode).extractLsb' 20 1 ++ (encodeJ offset rd opcode).extractLsb' 21 10 ++ 0#1) i = _
  simp only [BitVec.getLsbD_append, BitVec.getLsbD_extractLsb', encodeJ_getLsbD]
  have h0 : offset[0] = false := by simpa [evenOffset] using h
  interval_cases i <;> simp [h0]

/-! ### The opcode table's masks read the fields -/

theorem and_opcodeMask (w : Word) : w &&& 0x0000007F#32 = (opcodeField w).setWidth 32 := by
  apply BitVec.eq_of_getLsbD_eq
  intro i hi
  interval_cases i <;> simp [opcodeField]

theorem and_funct3Mask (w : Word) :
    w &&& 0x0000707F#32 = (funct3Field w ++ (0#5 ++ opcodeField w : BitVec 12) : BitVec 15).setWidth 32 := by
  apply BitVec.eq_of_getLsbD_eq
  intro i hi
  rw [BitVec.getLsbD_setWidth]
  change _ = (_ && BitVec.getLsbD (w := 3 + 12) (funct3Field w ++ (0#5 ++ opcodeField w : BitVec (5 + 7))) i)
  simp only [BitVec.getLsbD_append]
  interval_cases i <;> simp [opcodeField, funct3Field]

theorem and_funct7Mask (w : Word) :
    w &&& 0xFE00707F#32 =
      (funct7Field w ++ (0#10 ++ (funct3Field w ++ (0#5 ++ opcodeField w : BitVec 12) : BitVec 15) : BitVec 25) : BitVec 32) := by
  apply BitVec.eq_of_getLsbD_eq
  intro i hi
  change _ = BitVec.getLsbD (w := 7 + 25)
    (funct7Field w ++ (0#10 ++ (funct3Field w ++ (0#5 ++ opcodeField w : BitVec (5 + 7)) : BitVec (3 + 12)) :
      BitVec (10 + 15))) i
  simp only [BitVec.getLsbD_append]
  interval_cases i <;> simp [opcodeField, funct3Field, funct7Field]

/-! ### The fields of a word whose masked bits are known -/

theorem opcodeField_of_masked {w mask value : Word} (h : w &&& mask = value)
    (hm : opcodeField mask = BitVec.allOnes 7) : opcodeField w = opcodeField value := by
  rw [← h, show opcodeField (w &&& mask) = opcodeField w &&& opcodeField mask from BitVec.extractLsb'_and, hm,
    BitVec.and_allOnes]

theorem funct3Field_of_masked {w mask value : Word} (h : w &&& mask = value)
    (hm : funct3Field mask = BitVec.allOnes 3) : funct3Field w = funct3Field value := by
  rw [← h, show funct3Field (w &&& mask) = funct3Field w &&& funct3Field mask from BitVec.extractLsb'_and, hm,
    BitVec.and_allOnes]

theorem funct7Field_of_masked {w mask value : Word} (h : w &&& mask = value)
    (hm : funct7Field mask = BitVec.allOnes 7) : funct7Field w = funct7Field value := by
  rw [← h, show funct7Field (w &&& mask) = funct7Field w &&& funct7Field mask from BitVec.extractLsb'_and, hm,
    BitVec.and_allOnes]

/-! ### The bits of the scattered immediates -/

theorem bitsS_getLsbD (w : Word) (i : Nat) : (bitsS w).getLsbD i =
    if i < 5 then w.getLsbD (7 + i) else (decide (i - 5 < 7) && w.getLsbD (25 + (i - 5))) := by
  change BitVec.getLsbD (w := 7 + 5) (w.extractLsb' 25 7 ++ w.extractLsb' 7 5) i = _
  simp only [BitVec.getLsbD_append, BitVec.getLsbD_extractLsb']
  split <;> simp_all

theorem bitsB_getLsbD (w : Word) {i : Nat} (hi : i < 13) : (bitsB w).getLsbD i =
    if i < 1 then false else if i < 5 then w.getLsbD (i + 7) else if i < 11 then w.getLsbD (i + 20)
      else if i = 11 then w.getLsbD 7 else w.getLsbD 31 := by
  change BitVec.getLsbD (w := 1 + 1 + 6 + 4 + 1)
    (w.extractLsb' 31 1 ++ w.extractLsb' 7 1 ++ w.extractLsb' 25 6 ++ w.extractLsb' 8 4 ++ 0#1) i = _
  simp only [BitVec.getLsbD_append, BitVec.getLsbD_extractLsb']
  interval_cases i <;> simp

theorem bitsJ_getLsbD (w : Word) {i : Nat} (hi : i < 21) : (bitsJ w).getLsbD i =
    if i < 1 then false else if i < 11 then w.getLsbD (i + 20) else if i = 11 then w.getLsbD 20
      else if i < 20 then w.getLsbD i else w.getLsbD 31 := by
  change BitVec.getLsbD (w := 1 + 8 + 1 + 10 + 1)
    (w.extractLsb' 31 1 ++ w.extractLsb' 12 8 ++ w.extractLsb' 20 1 ++ w.extractLsb' 21 10 ++ 0#1) i = _
  simp only [BitVec.getLsbD_append, BitVec.getLsbD_extractLsb']
  interval_cases i <;> simp

theorem evenOffset_bitsB (w : Word) : evenOffset (bitsB w) = true := by
  simp [evenOffset, bitsB_getLsbD, -BitVec.getLsbD_eq_getElem]

theorem evenOffset_bitsJ (w : Word) : evenOffset (bitsJ w) = true := by
  simp [evenOffset, bitsJ_getLsbD, -BitVec.getLsbD_eq_getElem]

/-! ### A word is its fields put together -/

theorem regBits_toFin (x : BitVec 5) : regBits x.toFin = x := rfl

theorem encodeR_of_fields (w : Word) :
    encodeR (funct7Field w) (rs2Field w) (rs1Field w) (funct3Field w) (rdField w) (opcodeField w) = w := by
  apply BitVec.eq_of_getLsbD_eq
  intro i hi
  simp only [encodeR_getLsbD, rs1Field, rs2Field, rdField, regBits_toFin, funct7Field, funct3Field, opcodeField,
    BitVec.getLsbD_extractLsb']
  interval_cases i <;> simp

theorem encodeI_of_fields (w : Word) :
    encodeI (bitsI w) (rs1Field w) (funct3Field w) (rdField w) (opcodeField w) = w := by
  apply BitVec.eq_of_getLsbD_eq
  intro i hi
  simp only [encodeI_getLsbD, rs1Field, rdField, regBits_toFin, bitsI, funct3Field, opcodeField,
    BitVec.getLsbD_extractLsb']
  interval_cases i <;> simp

theorem encodeShift_of_fields (w : Word) :
    encodeShift (funct7Field w) (shamtField w) (rs1Field w) (funct3Field w) (rdField w) (opcodeField w) = w := by
  apply BitVec.eq_of_getLsbD_eq
  intro i hi
  simp only [encodeShift_getLsbD, rs1Field, shamtField, rdField, regBits_toFin, funct7Field, funct3Field, opcodeField,
    BitVec.getLsbD_extractLsb']
  interval_cases i <;> simp

theorem encodeS_of_fields (w : Word) :
    encodeS (bitsS w) (rs2Field w) (rs1Field w) (funct3Field w) (opcodeField w) = w := by
  apply BitVec.eq_of_getLsbD_eq
  intro i hi
  simp only [encodeS_getLsbD, rs2Field, rs1Field, regBits_toFin, funct3Field, opcodeField, BitVec.getLsbD_extractLsb']
  interval_cases i <;> simp [bitsS_getLsbD, -BitVec.getLsbD_eq_getElem]

theorem encodeB_of_fields (w : Word) :
    encodeB (bitsB w) (rs2Field w) (rs1Field w) (funct3Field w) (opcodeField w) = w := by
  apply BitVec.eq_of_getLsbD_eq
  intro i hi
  simp only [encodeB_getLsbD, rs2Field, rs1Field, regBits_toFin, funct3Field, opcodeField, BitVec.getLsbD_extractLsb']
  interval_cases i <;> simp [bitsB_getLsbD, -BitVec.getLsbD_eq_getElem]

theorem encodeU_of_fields (w : Word) : encodeU (bitsU w) (rdField w) (opcodeField w) = w := by
  apply BitVec.eq_of_getLsbD_eq
  intro i hi
  simp only [encodeU_getLsbD, rdField, regBits_toFin, bitsU, opcodeField, BitVec.getLsbD_extractLsb']
  interval_cases i <;> simp

theorem encodeJ_of_fields (w : Word) : encodeJ (bitsJ w) (rdField w) (opcodeField w) = w := by
  apply BitVec.eq_of_getLsbD_eq
  intro i hi
  simp only [encodeJ_getLsbD, rdField, regBits_toFin, opcodeField, BitVec.getLsbD_extractLsb']
  interval_cases i <;> simp [bitsJ_getLsbD, -BitVec.getLsbD_eq_getElem]

/-! ### funct7, where the tree looks at it or not -/

theorem examinedFunct7_ok {w : Word} {plain alternate i : Instr} (h : examinedFunct7 w plain alternate = .ok i) :
    (funct7Field w = 0b0000000#7 ∧ i = plain) ∨ (funct7Field w = 0b0100000#7 ∧ i = alternate) := by
  unfold examinedFunct7 at h
  split_ifs at h with h0 h1
  · cases h; exact .inl ⟨h0, rfl⟩
  · cases h; exact .inr ⟨h1, rfl⟩

theorem unexaminedFunct7_ok {strict : Bool} {w : Word} {a i : Instr} (h : unexaminedFunct7 strict w a = .ok i) :
    i = a ∧ (strict = true → funct7Field w = 0b0000000#7) := by
  unfold unexaminedFunct7 at h
  split at h
  · cases h
  · next hx =>
    cases h
    exact ⟨rfl, fun hs => by simpa [hs] using hx⟩

/-- The last branch of a class that has all eight funct3 values. -/
theorem funct3_last {x : BitVec 3} (h0 : x ≠ 0b000#3) (h1 : x ≠ 0b001#3) (h2 : x ≠ 0b010#3) (h3 : x ≠ 0b011#3)
    (h4 : x ≠ 0b100#3) (h5 : x ≠ 0b101#3) (h6 : x ≠ 0b110#3) : x = 0b111#3 := by
  have := x.isLt
  simp only [ne_eq, ← BitVec.toNat_inj, BitVec.toNat_ofNat] at *
  omega

end Sys2Proof
end

