-- ==== Sys2Proof/Laws/Memory.lean ====
section
/-!
SUPPORT. The laws of the byte array: read after write, writes leave other addresses alone, every write keeps the
canonical form.
-/

namespace Sys2Proof.Machine

theorem Memory.get_of_notMem (fill : Byte) (m : Memory) (a : Nat) (h : ∀ c ∈ m, c.1 ≠ a) :
    Memory.get fill m a = fill := by
  induction m with
  | nil => rfl
  | cons c rest ih =>
    have hc : a ≠ c.1 := fun e => h c (by simp) e.symm
    simp [Memory.get, hc, ih fun d hd => h d (by simp [hd])]

/-- A write leaves every other address alone, whatever the list. -/
theorem Memory.get_set_other (fill : Byte) (m : Memory) {a x : Nat} (b : Byte) (h : x ≠ a) :
    Memory.get fill (Memory.set fill m a b) x = Memory.get fill m x := by
  induction m with
  | nil => by_cases hb : b = fill <;> simp [Memory.set, Memory.get, hb, h]
  | cons c rest ih =>
    obtain ⟨k, d⟩ := c
    unfold Memory.set
    by_cases h1 : a < k
    · by_cases hb : b = fill <;> simp [h1, hb, Memory.get, h]
    · by_cases h2 : a = k
      · subst h2
        by_cases hb : b = fill <;> simp [hb, Memory.get, h]
      · simp only [h1, h2, if_false]
        by_cases h3 : x = k <;> simp [Memory.get, h3, ih]

/-- The address written reads as the byte written, in a memory whose addresses rise. -/
theorem Memory.get_set_same (fill : Byte) (m : Memory) (a : Nat) (b : Byte)
    (hm : m.Pairwise (fun c d => c.1 < d.1)) : Memory.get fill (Memory.set fill m a b) a = b := by
  induction m with
  | nil => by_cases hb : b = fill <;> simp [Memory.set, Memory.get, hb]
  | cons c rest ih =>
    obtain ⟨k, d⟩ := c
    rw [List.pairwise_cons] at hm
    obtain ⟨hk, hrest⟩ := hm
    unfold Memory.set
    by_cases h1 : a < k
    · by_cases hb : b = fill
      · simp only [h1, hb, if_true]
        apply Memory.get_of_notMem
        intro e he
        rcases List.mem_cons.mp he with rfl | he
        · exact Nat.ne_of_gt h1
        · exact Nat.ne_of_gt (Nat.lt_trans h1 (hk e he))
      · simp [h1, hb, Memory.get]
    · by_cases h2 : a = k
      · subst h2
        by_cases hb : b = fill
        · simp only [hb, lt_irrefl, if_false, if_true]
          exact Memory.get_of_notMem _ _ _ fun e he => Nat.ne_of_gt (hk e he)
        · simp [hb, Memory.get]
      · simp only [h1, h2, if_false]
        simp [Memory.get, h2, ih hrest]

/-- Every cell of the list after a write is the one written or was there. -/
theorem Memory.mem_set {fill : Byte} {m : Memory} {a : Nat} {b : Byte} {c : Host.Cell}
    (h : c ∈ Memory.set fill m a b) : (c = (a, b) ∧ b ≠ fill) ∨ c ∈ m := by
  induction m with
  | nil =>
    by_cases hb : b = fill
    · simp [Memory.set, hb] at h
    · exact .inl ⟨by simpa [Memory.set, hb] using h, hb⟩
  | cons d rest ih =>
    obtain ⟨k, e⟩ := d
    unfold Memory.set at h
    by_cases h1 : a < k
    · by_cases hb : b = fill
      · exact .inr (by simpa [h1, hb] using h)
      · simp only [h1, hb, if_true, if_false, List.mem_cons] at h
        rcases h with h | h
        · exact .inl ⟨h, hb⟩
        · exact .inr (by simpa using h)
    · by_cases h2 : a = k
      · by_cases hb : b = fill
        · simp only [h2, hb, lt_irrefl, if_false, if_true] at h
          exact .inr (by simp [h])
        · simp only [h2, hb, lt_irrefl, if_false, if_true, List.mem_cons] at h
          rcases h with h | h
          · exact .inl ⟨by rw [h2]; exact h, hb⟩
          · exact .inr (by simp [h])
      · simp only [h1, h2, if_false, List.mem_cons] at h
        rcases h with h | h
        · exact .inr (by simp [h])
        · rcases ih h with h | h
          · exact .inl h
          · exact .inr (by simp [h])

theorem Memory.pairwise_set (fill : Byte) (m : Memory) (a : Nat) (b : Byte)
    (hm : m.Pairwise (fun c d => c.1 < d.1)) : (Memory.set fill m a b).Pairwise (fun c d => c.1 < d.1) := by
  induction m with
  | nil => by_cases hb : b = fill <;> simp [Memory.set, hb]
  | cons c rest ih =>
    obtain ⟨k, d⟩ := c
    have hm' := hm
    rw [List.pairwise_cons] at hm
    obtain ⟨hk, hrest⟩ := hm
    unfold Memory.set
    by_cases h1 : a < k
    · by_cases hb : b = fill
      · simpa [h1, hb] using hm'
      · simp only [h1, hb, if_true, if_false]
        rw [List.pairwise_cons]
        refine ⟨fun e he => ?_, hm'⟩
        rcases List.mem_cons.mp he with rfl | he
        · exact h1
        · exact Nat.lt_trans h1 (hk e he)
    · by_cases h2 : a = k
      · subst h2
        by_cases hb : b = fill
        · simpa [hb] using hrest
        · simp only [hb, lt_irrefl, if_false, if_true]
          rw [List.pairwise_cons]
          exact ⟨hk, hrest⟩
      · simp only [h1, h2, if_false]
        rw [List.pairwise_cons]
        refine ⟨fun e he => ?_, ih hrest⟩
        rcases Memory.mem_set he with ⟨rfl, -⟩ | he
        · exact Nat.lt_of_le_of_ne (Nat.le_of_not_lt h1) (Ne.symm h2)
        · exact hk e he

/-- A write inside the array keeps the canonical form. -/
theorem Memory.set_wf {fill : Byte} {capacity : Nat} {m : Memory} {a : Nat} (b : Byte)
    (hm : Memory.wf fill capacity m) (ha : a < capacity) : Memory.wf fill capacity (Memory.set fill m a b) := by
  refine ⟨Memory.pairwise_set fill m a b hm.1, fun c hc => ?_⟩
  rcases Memory.mem_set hc with ⟨rfl, hb⟩ | hc
  · exact ⟨ha, hb⟩
  · exact hm.2 c hc

@[simp] theorem Memory.setAll_nil (fill : Byte) (m : Memory) : Memory.setAll fill m [] = m := rfl

@[simp] theorem Memory.setAll_cons (fill : Byte) (m : Memory) (c : Host.Cell) (cells : List Host.Cell) :
    Memory.setAll fill m (c :: cells) = Memory.setAll fill (Memory.set fill m c.1 c.2) cells := rfl

theorem Memory.setAll_wf {fill : Byte} {capacity : Nat} {m : Memory} {cells : List Host.Cell}
    (hm : Memory.wf fill capacity m) (h : ∀ c ∈ cells, c.1 < capacity) :
    Memory.wf fill capacity (Memory.setAll fill m cells) := by
  induction cells generalizing m with
  | nil => exact hm
  | cons c rest ih =>
    exact ih (Memory.set_wf c.2 hm (h c (by simp))) fun d hd => h d (by simp [hd])

/-- Writes leave every address they do not name alone. -/
theorem Memory.get_setAll_other (fill : Byte) (m : Memory) (cells : List Host.Cell) (a : Nat)
    (h : ∀ c ∈ cells, c.1 ≠ a) : Memory.get fill (Memory.setAll fill m cells) a = Memory.get fill m a := by
  induction cells generalizing m with
  | nil => rfl
  | cons c rest ih =>
    rw [Memory.setAll_cons, ih _ fun d hd => h d (by simp [hd])]
    exact Memory.get_set_other fill m c.2 (Ne.symm (h c (by simp)))

/-- Each cell written reads as written, where no address is named twice. -/
theorem Memory.get_setAll_mem (fill : Byte) (m : Memory) (cells : List Host.Cell) (c : Host.Cell)
    (hm : m.Pairwise (fun c d => c.1 < d.1)) (hc : c ∈ cells) (hd : cells.Pairwise (fun c d => c.1 ≠ d.1)) :
    Memory.get fill (Memory.setAll fill m cells) c.1 = c.2 := by
  induction cells generalizing m with
  | nil => simp at hc
  | cons d rest ih =>
    rw [List.pairwise_cons] at hd
    rw [Memory.setAll_cons]
    rcases List.mem_cons.mp hc with rfl | hc
    · rw [Memory.get_setAll_other _ _ _ _ fun e he => (hd.1 e he).symm]
      exact Memory.get_set_same fill m _ _ hm
    · exact ih _ (Memory.pairwise_set fill m _ _ hm) hc hd.2

end Sys2Proof.Machine
end

