-- ==== Sys2Proof/Laws/State.lean ====
section
/-!
SUPPORT. One lemma per field per state update, so that no proof unfolds a record update, and the laws of the register
accessors.
-/

namespace Sys2Proof.Machine

/-! ### `State.setPc` -/

@[simp] theorem State.setPc_cfg (s : State) (t : Word) : (s.setPc t).cfg = s.cfg := rfl
@[simp] theorem State.setPc_regs (s : State) (t : Word) : (s.setPc t).regs = s.regs := rfl
@[simp] theorem State.setPc_pc (s : State) (t : Word) : (s.setPc t).pc = t := rfl
@[simp] theorem State.setPc_icount (s : State) (t : Word) : (s.setPc t).icount = s.icount := rfl
@[simp] theorem State.setPc_halted (s : State) (t : Word) : (s.setPc t).halted = s.halted := rfl
@[simp] theorem State.setPc_haltReason (s : State) (t : Word) : (s.setPc t).haltReason = s.haltReason := rfl
@[simp] theorem State.setPc_mem (s : State) (t : Word) : (s.setPc t).mem = s.mem := rfl
@[simp] theorem State.setPc_oorLog (s : State) (t : Word) : (s.setPc t).oorLog = s.oorLog := rfl
@[simp] theorem State.setPc_readReg (s : State) (t : Word) (i : RegIdx) : (s.setPc t).readReg i = s.readReg i := rfl
@[simp] theorem State.setPc_byteAt (s : State) (t : Word) (a : Nat) : (s.setPc t).byteAt a = s.byteAt a := rfl

/-! ### `State.advancePc` -/

@[simp] theorem State.advancePc_cfg (s : State) : s.advancePc.cfg = s.cfg := rfl
@[simp] theorem State.advancePc_regs (s : State) : s.advancePc.regs = s.regs := rfl
@[simp] theorem State.advancePc_pc (s : State) : s.advancePc.pc = s.pc + 4 := rfl
@[simp] theorem State.advancePc_icount (s : State) : s.advancePc.icount = s.icount := rfl
@[simp] theorem State.advancePc_halted (s : State) : s.advancePc.halted = s.halted := rfl
@[simp] theorem State.advancePc_haltReason (s : State) : s.advancePc.haltReason = s.haltReason := rfl
@[simp] theorem State.advancePc_mem (s : State) : s.advancePc.mem = s.mem := rfl
@[simp] theorem State.advancePc_oorLog (s : State) : s.advancePc.oorLog = s.oorLog := rfl
@[simp] theorem State.advancePc_readReg (s : State) (i : RegIdx) : s.advancePc.readReg i = s.readReg i := rfl
@[simp] theorem State.advancePc_byteAt (s : State) (a : Nat) : s.advancePc.byteAt a = s.byteAt a := rfl

/-! ### `State.countInstruction` -/

@[simp] theorem State.countInstruction_cfg (s : State) : s.countInstruction.cfg = s.cfg := rfl
@[simp] theorem State.countInstruction_regs (s : State) : s.countInstruction.regs = s.regs := rfl
@[simp] theorem State.countInstruction_pc (s : State) : s.countInstruction.pc = s.pc := rfl
@[simp] theorem State.countInstruction_icount (s : State) : s.countInstruction.icount = s.icount + 1 := rfl
@[simp] theorem State.countInstruction_halted (s : State) : s.countInstruction.halted = s.halted := rfl
@[simp] theorem State.countInstruction_haltReason (s : State) : s.countInstruction.haltReason = s.haltReason := rfl
@[simp] theorem State.countInstruction_mem (s : State) : s.countInstruction.mem = s.mem := rfl
@[simp] theorem State.countInstruction_oorLog (s : State) : s.countInstruction.oorLog = s.oorLog := rfl
@[simp] theorem State.countInstruction_readReg (s : State) (i : RegIdx) : s.countInstruction.readReg i = s.readReg i := rfl
@[simp] theorem State.countInstruction_byteAt (s : State) (a : Nat) : s.countInstruction.byteAt a = s.byteAt a := rfl

/-! ### `State.raise` -/

@[simp] theorem State.raise_cfg (s : State) (c : HaltReason) : (s.raise c).cfg = s.cfg := rfl
@[simp] theorem State.raise_regs (s : State) (c : HaltReason) : (s.raise c).regs = s.regs := rfl
@[simp] theorem State.raise_pc (s : State) (c : HaltReason) : (s.raise c).pc = s.pc := rfl
@[simp] theorem State.raise_icount (s : State) (c : HaltReason) : (s.raise c).icount = s.icount := rfl
@[simp] theorem State.raise_halted (s : State) (c : HaltReason) : (s.raise c).halted = true := rfl
@[simp] theorem State.raise_haltReason (s : State) (c : HaltReason) : (s.raise c).haltReason = c := rfl
@[simp] theorem State.raise_mem (s : State) (c : HaltReason) : (s.raise c).mem = s.mem := rfl
@[simp] theorem State.raise_oorLog (s : State) (c : HaltReason) : (s.raise c).oorLog = s.oorLog := rfl
@[simp] theorem State.raise_readReg (s : State) (c : HaltReason) (i : RegIdx) : (s.raise c).readReg i = s.readReg i := rfl
@[simp] theorem State.raise_byteAt (s : State) (c : HaltReason) (a : Nat) : (s.raise c).byteAt a = s.byteAt a := rfl

/-! ### `State.report` -/

@[simp] theorem State.report_cfg (s : State) (r : List OorReport) : (s.report r).cfg = s.cfg := rfl
@[simp] theorem State.report_regs (s : State) (r : List OorReport) : (s.report r).regs = s.regs := rfl
@[simp] theorem State.report_pc (s : State) (r : List OorReport) : (s.report r).pc = s.pc := rfl
@[simp] theorem State.report_icount (s : State) (r : List OorReport) : (s.report r).icount = s.icount := rfl
@[simp] theorem State.report_halted (s : State) (r : List OorReport) : (s.report r).halted = s.halted := rfl
@[simp] theorem State.report_haltReason (s : State) (r : List OorReport) : (s.report r).haltReason = s.haltReason := rfl
@[simp] theorem State.report_mem (s : State) (r : List OorReport) : (s.report r).mem = s.mem := rfl
@[simp] theorem State.report_oorLog (s : State) (r : List OorReport) : (s.report r).oorLog = s.oorLog ++ r := rfl
@[simp] theorem State.report_readReg (s : State) (r : List OorReport) (i : RegIdx) : (s.report r).readReg i = s.readReg i := rfl
@[simp] theorem State.report_byteAt (s : State) (r : List OorReport) (a : Nat) : (s.report r).byteAt a = s.byteAt a := rfl

/-! ### `State.memRead` and `State.memWrite` -/

@[simp] theorem State.memRead_fst (s : State) (a : Word) (w : Width) : (s.memRead a w).1 = s.readValue a w := rfl
@[simp] theorem State.memRead_snd (s : State) (a : Word) (w : Width) :
    (s.memRead a w).2 = s.report (accessReports s.cfg .read a w.bytes) := rfl
@[simp] theorem State.memWrite_cfg (s : State) (a : Word) (w : Width) (v : Word) : (s.memWrite a w v).cfg = s.cfg := rfl
@[simp] theorem State.memWrite_regs (s : State) (a : Word) (w : Width) (v : Word) : (s.memWrite a w v).regs = s.regs := rfl
@[simp] theorem State.memWrite_pc (s : State) (a : Word) (w : Width) (v : Word) : (s.memWrite a w v).pc = s.pc := rfl
@[simp] theorem State.memWrite_icount (s : State) (a : Word) (w : Width) (v : Word) : (s.memWrite a w v).icount = s.icount := rfl
@[simp] theorem State.memWrite_halted (s : State) (a : Word) (w : Width) (v : Word) : (s.memWrite a w v).halted = s.halted := rfl
@[simp] theorem State.memWrite_haltReason (s : State) (a : Word) (w : Width) (v : Word) : (s.memWrite a w v).haltReason = s.haltReason := rfl
@[simp] theorem State.memWrite_mem (s : State) (a : Word) (w : Width) (v : Word) :
    (s.memWrite a w v).mem = Memory.setAll s.cfg.memFill s.mem (storedCells s.cfg a w v) := rfl
@[simp] theorem State.memWrite_oorLog (s : State) (a : Word) (w : Width) (v : Word) :
    (s.memWrite a w v).oorLog = s.oorLog ++ accessReports s.cfg .write a w.bytes := rfl
@[simp] theorem State.memWrite_readReg (s : State) (a : Word) (w : Width) (v : Word) (i : RegIdx) :
    (s.memWrite a w v).readReg i = s.readReg i := rfl

/-! ### `State.hartReset` -/

@[simp] theorem State.hartReset_cfg (s : State) : s.hartReset.cfg = s.cfg := rfl
@[simp] theorem State.hartReset_regs (s : State) : s.hartReset.regs = Vector.replicate 31 s.cfg.regResetFill := rfl
@[simp] theorem State.hartReset_pc (s : State) : s.hartReset.pc = 0 := rfl
@[simp] theorem State.hartReset_icount (s : State) : s.hartReset.icount = 0 := rfl
@[simp] theorem State.hartReset_halted (s : State) : s.hartReset.halted = false := rfl
@[simp] theorem State.hartReset_haltReason (s : State) : s.hartReset.haltReason = .none := rfl
@[simp] theorem State.hartReset_mem (s : State) : s.hartReset.mem = s.mem := rfl
@[simp] theorem State.hartReset_oorLog (s : State) : s.hartReset.oorLog = s.oorLog := rfl

/-! ### `State.created` -/

@[simp] theorem State.created_cfg (c : Config) : (State.created c).cfg = c := rfl
@[simp] theorem State.created_regs (c : Config) : (State.created c).regs = Vector.replicate 31 c.regResetFill := rfl
@[simp] theorem State.created_pc (c : Config) : (State.created c).pc = 0 := rfl
@[simp] theorem State.created_icount (c : Config) : (State.created c).icount = 0 := rfl
@[simp] theorem State.created_halted (c : Config) : (State.created c).halted = false := rfl
@[simp] theorem State.created_haltReason (c : Config) : (State.created c).haltReason = .none := rfl
@[simp] theorem State.created_mem (c : Config) : (State.created c).mem = [] := rfl
@[simp] theorem State.created_oorLog (c : Config) : (State.created c).oorLog = [] := rfl

/-! ### `State.writeReg` -/

@[simp] theorem State.writeReg_cfg (s : State) (i : RegIdx) (v : Word) : (s.writeReg i v).cfg = s.cfg := by
  unfold State.writeReg; split <;> rfl
@[simp] theorem State.writeReg_pc (s : State) (i : RegIdx) (v : Word) : (s.writeReg i v).pc = s.pc := by
  unfold State.writeReg; split <;> rfl
@[simp] theorem State.writeReg_icount (s : State) (i : RegIdx) (v : Word) : (s.writeReg i v).icount = s.icount := by
  unfold State.writeReg; split <;> rfl
@[simp] theorem State.writeReg_halted (s : State) (i : RegIdx) (v : Word) : (s.writeReg i v).halted = s.halted := by
  unfold State.writeReg; split <;> rfl
@[simp] theorem State.writeReg_haltReason (s : State) (i : RegIdx) (v : Word) : (s.writeReg i v).haltReason = s.haltReason := by
  unfold State.writeReg; split <;> rfl
@[simp] theorem State.writeReg_mem (s : State) (i : RegIdx) (v : Word) : (s.writeReg i v).mem = s.mem := by
  unfold State.writeReg; split <;> rfl
@[simp] theorem State.writeReg_oorLog (s : State) (i : RegIdx) (v : Word) : (s.writeReg i v).oorLog = s.oorLog := by
  unfold State.writeReg; split <;> rfl

@[simp] theorem State.writeReg_byteAt (s : State) (i : RegIdx) (v : Word) (a : Nat) :
    (s.writeReg i v).byteAt a = s.byteAt a := by
  simp [State.byteAt]

/-- Register 0 reads as zero in every state. -/
@[simp] theorem State.readReg_zero (s : State) : s.readReg 0 = 0 := rfl

/-- A write to register 0 is discarded. -/
@[simp] theorem State.writeReg_zero (s : State) (v : Word) : s.writeReg 0 v = s := rfl

/-- What each register reads after a write. -/
theorem State.writeReg_readReg (s : State) (i j : RegIdx) (v : Word) :
    (s.writeReg i v).readReg j = if j = 0 then 0 else if j = i then v else s.readReg j := by
  unfold State.writeReg State.readReg
  by_cases hj : j = 0
  · simp [hj]
  · by_cases hi : i = 0
    · simp [hj, hi]
    · have hj' : j.val ≠ 0 := fun h => hj (Fin.ext h)
      have hi' : i.val ≠ 0 := fun h => hi (Fin.ext h)
      simp only [hj, hi, if_false, Vector.getElem_set]
      by_cases hij : j = i
      · simp [hij]
      · have hne : ¬ i.val - 1 = j.val - 1 := fun h => hij (Fin.ext (by omega))
        simp [hij, hne]

theorem State.writeReg_readReg_self (s : State) {i : RegIdx} (hi : i ≠ 0) (v : Word) :
    (s.writeReg i v).readReg i = v := by
  simp [State.writeReg_readReg, hi]

theorem State.writeReg_readReg_other (s : State) {i j : RegIdx} (hij : j ≠ i) (v : Word) :
    (s.writeReg i v).readReg j = s.readReg j := by
  rw [State.writeReg_readReg, if_neg hij]
  split
  · next h => rw [h]; rfl
  · rfl

/-- Two register files that read the same everywhere are the same data. -/
theorem State.regs_ext {s t : State} (h : ∀ i : RegIdx, s.readReg i = t.readReg i) : s.regs = t.regs := by
  apply Vector.ext
  intro k hk
  have hk' := h ⟨k + 1, by omega⟩
  simpa [State.readReg, Fin.ext_iff] using hk'

/-- After reset every register but x0 holds the fill (10_state.md R24). -/
theorem State.hartReset_readReg (s : State) (i : RegIdx) :
    s.hartReset.readReg i = if i = 0 then 0 else s.cfg.regResetFill := by
  simp [State.readReg]

theorem State.created_readReg (c : Config) (i : RegIdx) :
    (State.created c).readReg i = if i = 0 then 0 else c.regResetFill := by
  simp [State.readReg]

/-! ### `State.writeAndAdvance` -/

@[simp] theorem State.writeAndAdvance_cfg (s : State) (i : RegIdx) (v : Word) : (s.writeAndAdvance i v).cfg = s.cfg := by
  simp [State.writeAndAdvance]
@[simp] theorem State.writeAndAdvance_pc (s : State) (i : RegIdx) (v : Word) : (s.writeAndAdvance i v).pc = s.pc + 4 := by
  simp [State.writeAndAdvance]
@[simp] theorem State.writeAndAdvance_icount (s : State) (i : RegIdx) (v : Word) : (s.writeAndAdvance i v).icount = s.icount := by
  simp [State.writeAndAdvance]
@[simp] theorem State.writeAndAdvance_halted (s : State) (i : RegIdx) (v : Word) : (s.writeAndAdvance i v).halted = s.halted := by
  simp [State.writeAndAdvance]
@[simp] theorem State.writeAndAdvance_haltReason (s : State) (i : RegIdx) (v : Word) : (s.writeAndAdvance i v).haltReason = s.haltReason := by
  simp [State.writeAndAdvance]
@[simp] theorem State.writeAndAdvance_mem (s : State) (i : RegIdx) (v : Word) : (s.writeAndAdvance i v).mem = s.mem := by
  simp [State.writeAndAdvance]
@[simp] theorem State.writeAndAdvance_oorLog (s : State) (i : RegIdx) (v : Word) : (s.writeAndAdvance i v).oorLog = s.oorLog := by
  simp [State.writeAndAdvance]

@[simp] theorem State.writeAndAdvance_byteAt (s : State) (i : RegIdx) (v : Word) (a : Nat) :
    (s.writeAndAdvance i v).byteAt a = s.byteAt a := by
  simp [State.writeAndAdvance]

theorem State.writeAndAdvance_readReg (s : State) (i j : RegIdx) (v : Word) :
    (s.writeAndAdvance i v).readReg j = if j = 0 then 0 else if j = i then v else s.readReg j := by
  simp [State.writeAndAdvance, State.writeReg_readReg]

end Sys2Proof.Machine
end

