-- ==== Sys2Proof/Laws/Ops.lean ====
section
/-!
SUPPORT. One lemma per shared operation, saying once everything it can do: the range check, reads, writes, reports
(20_memory.md R52 to R62).
-/

namespace Sys2Proof.Machine

/-! ### Reads -/

/-- A byte in range reads from the array. -/
theorem State.byteAt_of_lt {s : State} {a : Nat} (h : a < s.cfg.capacity) :
    s.byteAt a = Memory.get s.cfg.memFill s.mem a := if_pos h

/-- A byte past 0xFFFFFFFF is out of range: an access does not wrap (D11). -/
theorem State.byteAt_past_top {s : State} {a : Nat} (hc : s.cfg.capacity ≤ 2 ^ 32) (h : 2 ^ 32 ≤ a) : s.byteAt a = 0 :=
  if_neg (by omega)

theorem State.byteAt_of_ge {s : State} {a : Nat} (h : s.cfg.capacity ≤ a) : s.byteAt a = 0 :=
  if_neg (Nat.not_lt.mpr h)

/-- An access in range reads the bytes it touches, under either policy. -/
theorem State.readValue_inRange {s : State} {a : Word} {w : Width} (h : InRange s.cfg a w.bytes) :
    s.readValue a w = composeBytes s.byteAt a.toNat w := by
  unfold State.readValue
  split
  · rw [if_pos h]
    cases w <;> simp only [Width.bytes, InRange] at h <;> unfold composeBytes
    · rw [State.byteAt_of_lt (by omega)]
    · rw [State.byteAt_of_lt (by omega), State.byteAt_of_lt (by omega)]
    · rw [State.byteAt_of_lt (by omega), State.byteAt_of_lt (by omega), State.byteAt_of_lt (by omega),
        State.byteAt_of_lt (by omega)]
  · rfl

theorem State.readValue_perByte {s : State} (h : s.cfg.oorPolicy = .perByte) (a : Word) (w : Width) :
    s.readValue a w = composeBytes s.byteAt a.toNat w := by
  simp [State.readValue, h]

theorem State.readValue_outOfRange {s : State} {a : Word} {w : Width} (hp : s.cfg.oorPolicy = .whole)
    (h : ¬ InRange s.cfg a w.bytes) : s.readValue a w = 0 := by
  simp only [State.readValue, hp, if_neg h]

/-- A one-byte read is the byte's reading, in range or not, under either policy. -/
theorem State.readValue_byte (s : State) (a : Word) : s.readValue a .byte = (s.byteAt a.toNat).zeroExtend 32 := by
  by_cases h : InRange s.cfg a 1
  · rw [State.readValue_inRange (w := .byte) h]; rfl
  · have hb : s.byteAt a.toNat = 0 := State.byteAt_of_ge (by simpa [InRange] using h)
    cases hp : s.cfg.oorPolicy
    · rw [State.readValue_outOfRange (w := .byte) hp h, hb]; rfl
    · rw [State.readValue_perByte hp]; rfl

/-! ### Reports -/

theorem accessReports_inRange {c : Config} {a : Word} {n : Nat} (kind : AccessKind) (h : InRange c a n) :
    accessReports c kind a n = [] := by
  unfold accessReports
  split
  · exact if_pos h
  · simp only [List.map_eq_nil_iff, List.filter_eq_nil_iff, List.mem_range, decide_eq_true_eq, not_le]
    intro k hk
    simp only [InRange] at h
    omega

/-- An access makes a report exactly when it is not in range, under either policy. -/
theorem accessReports_eq_nil {c : Config} {a : Word} {n : Nat} {kind : AccessKind} (hn : 1 ≤ n) :
    accessReports c kind a n = [] ↔ InRange c a n := by
  refine ⟨fun h => ?_, accessReports_inRange kind⟩
  unfold accessReports at h
  split at h
  · by_contra hr
    simp [hr] at h
  · simp only [List.map_eq_nil_iff, List.filter_eq_nil_iff, List.mem_range, decide_eq_true_eq, not_le] at h
    have := h (n - 1) (by omega)
    simp only [InRange]
    omega

theorem accessReports_whole {c : Config} {a : Word} {n : Nat} (kind : AccessKind) (hp : c.oorPolicy = .whole)
    (h : ¬ InRange c a n) : accessReports c kind a n = [⟨kind, a, n⟩] := by
  simp only [accessReports, hp, if_neg h]

/-- A one-byte access out of range makes one report, the same under either policy. -/
theorem accessReports_byte {c : Config} {a : Word} (kind : AccessKind) (h : ¬ InRange c a 1) :
    accessReports c kind a 1 = [⟨kind, a, 1⟩] := by
  cases hp : c.oorPolicy
  · exact accessReports_whole kind hp h
  · have : c.capacity ≤ a.toNat := by simpa [InRange] using h
    simp [accessReports, hp, this]

/-! ### Writes -/

theorem mem_storeCells {a : Word} {w : Width} {v : Word} {c : Host.Cell} :
    c ∈ storeCells a w v ↔ ∃ k < w.bytes, c = (a.toNat + k, v.extractLsb' (8 * k) 8) := by
  simp [storeCells, eq_comm]

/-- No two cells of a store name the same address. -/
theorem storeCells_distinct (a : Word) (w : Width) (v : Word) :
    (storeCells a w v).Pairwise (fun c d => c.1 ≠ d.1) := by
  unfold storeCells
  rw [List.pairwise_map]
  exact (List.nodup_range (n := w.bytes)).imp fun {i j} hij => by simpa using hij

theorem storedCells_inRange {c : Config} {a : Word} {w : Width} (v : Word) (h : InRange c a w.bytes) :
    storedCells c a w v = storeCells a w v := by
  unfold storedCells
  split
  · exact if_pos h
  · rw [List.filter_eq_self]
    intro d hd
    obtain ⟨k, hk, rfl⟩ := mem_storeCells.mp hd
    simp only [InRange] at h
    simp only [decide_eq_true_eq]
    omega

theorem storedCells_outOfRange {c : Config} {a : Word} {w : Width} (v : Word) (hp : c.oorPolicy = .whole)
    (h : ¬ InRange c a w.bytes) : storedCells c a w v = [] := by
  simp only [storedCells, hp, if_neg h]

/-- A store changes only cells of the store, inside the array. -/
theorem mem_storedCells {c : Config} {a : Word} {w : Width} {v : Word} {d : Host.Cell}
    (h : d ∈ storedCells c a w v) : d ∈ storeCells a w v ∧ d.1 < c.capacity := by
  by_cases hr : InRange c a w.bytes
  · rw [storedCells_inRange v hr] at h
    refine ⟨h, ?_⟩
    obtain ⟨k, hk, rfl⟩ := mem_storeCells.mp h
    simp only [InRange] at hr
    simp only
    omega
  · cases hp : c.oorPolicy
    · rw [storedCells_outOfRange v hp hr] at h
      simp at h
    · simpa [storedCells, hp] using h

/-- A store keeps the canonical form. -/
theorem State.memWrite_wf {s : State} (a : Word) (w : Width) (v : Word)
    (hm : Memory.wf s.cfg.memFill s.cfg.capacity s.mem) :
    Memory.wf (s.memWrite a w v).cfg.memFill (s.memWrite a w v).cfg.capacity (s.memWrite a w v).mem :=
  Memory.setAll_wf hm fun _ hd => (mem_storedCells hd).2

/-- The memory of a hart just created, and so of `State.reset`, is in canonical form. -/
theorem State.created_wf (c : Config) : Memory.wf c.memFill c.capacity (State.created c).mem := by
  simp [Memory.wf]

theorem State.reset_wf : Memory.wf State.reset.cfg.memFill State.reset.cfg.capacity State.reset.mem :=
  State.created_wf Config.default

/-- What each address reads as after a store, in range or not, under either policy. -/
theorem State.memWrite_byteAt {s : State} (a : Word) (w : Width) (v : Word)
    (hm : Memory.wf s.cfg.memFill s.cfg.capacity s.mem) (x : Nat) :
    (s.memWrite a w v).byteAt x =
      if a.toNat ≤ x ∧ x < a.toNat + w.bytes ∧ x < s.cfg.capacity ∧
          (s.cfg.oorPolicy = .perByte ∨ InRange s.cfg a w.bytes) then
        v.extractLsb' (8 * (x - a.toNat)) 8
      else s.byteAt x := by
  have hpw : (storedCells s.cfg a w v).Pairwise (fun c d => c.1 ≠ d.1) := by
    unfold storedCells
    split
    · split
      · exact storeCells_distinct a w v
      · exact .nil
    · exact (storeCells_distinct a w v).filter _
  by_cases hx : a.toNat ≤ x ∧ x < a.toNat + w.bytes ∧ x < s.cfg.capacity ∧
      (s.cfg.oorPolicy = .perByte ∨ InRange s.cfg a w.bytes)
  · rw [if_pos hx]
    obtain ⟨h1, h2, h3, h4⟩ := hx
    have hmem : (x, v.extractLsb' (8 * (x - a.toNat)) 8) ∈ storeCells a w v :=
      mem_storeCells.mpr ⟨x - a.toNat, by omega, by simp only [Prod.mk.injEq, and_true]; omega⟩
    have hstored : (x, v.extractLsb' (8 * (x - a.toNat)) 8) ∈ storedCells s.cfg a w v := by
      rcases h4 with h4 | h4
      · simpa [storedCells, h4, h3] using hmem
      · rwa [storedCells_inRange v h4]
    exact (State.byteAt_of_lt (s := s.memWrite a w v) h3).trans (Memory.get_setAll_mem _ _ _ _ hm.1 hstored hpw)
  · rw [if_neg hx]
    have hother : ∀ c ∈ storedCells s.cfg a w v, c.1 ≠ x := by
      intro c hc
      obtain ⟨hc', hlt⟩ := mem_storedCells hc
      obtain ⟨k, hk, rfl⟩ := mem_storeCells.mp hc'
      have hp : s.cfg.oorPolicy = .perByte ∨ InRange s.cfg a w.bytes := by
        by_cases hr : InRange s.cfg a w.bytes
        · exact .inr hr
        · cases hp : s.cfg.oorPolicy
          · simp [storedCells_outOfRange v hp hr] at hc
          · exact .inl rfl
      rintro rfl
      exact hx ⟨by simp, by simpa using hk, hlt, hp⟩
    simp only [State.byteAt, State.memWrite, Memory.get_setAll_other _ _ _ _ hother]

/-! ### Immediates -/

/-- Clearing bit 0 keeps every other bit. -/
theorem clearBit0_getLsbD (t : Word) (i : Nat) : (clearBit0 t).getLsbD i = (decide (i ≠ 0) && t.getLsbD i) := by
  change BitVec.getLsbD (w := 31 + 1) (t.extractLsb' 1 31 ++ 0#1) i = _
  rw [BitVec.getLsbD_append]
  cases i with
  | zero => simp
  | succ k =>
    have hk : 1 + k < 32 → k < 31 := by omega
    by_cases h : 1 + k < 32
    · simp [hk h, Nat.add_comm]
    · rw [BitVec.getLsbD_of_ge t (k + 1) (by omega)]
      simp [BitVec.getLsbD_extractLsb', BitVec.getLsbD_of_ge t (1 + k) (by omega)]

end Sys2Proof.Machine
end

