-- ==== Sys2Proof/Laws/Exec.lean ====
section
/-!
SUPPORT. One lemma per shared shape of a meaning, and the step taken apart: halted, or fetched and executed.
-/

namespace Sys2Proof.Machine

/-! ### Loads and stores -/

/-- What a load does, in range or not, under either policy: the reports, the register, the pc. -/
theorem State.loadWith_eq (s : State) (w : Width) (extend : Word → Word) (rd rs1 : RegIdx) (imm : BitVec 12) :
    s.loadWith w extend rd rs1 imm =
      .next ((s.report (accessReports s.cfg .read (s.effectiveAddress rs1 imm) w.bytes)).writeAndAdvance rd
        (extend (s.readValue (s.effectiveAddress rs1 imm) w))) := rfl

/-- What a store does, in range or not, under either policy: the memory write and the pc. -/
theorem State.storeWith_eq (s : State) (w : Width) (rs1 rs2 : RegIdx) (imm : BitVec 12) :
    s.storeWith w rs1 rs2 imm =
      .next (s.memWrite (s.effectiveAddress rs1 imm) w (s.readReg rs2)).advancePc := rfl

/-! ### What any instruction can do -/

/-- The shapes a next state of `exec` can have: a register written and the pc moved; the pc moved; a load; a store; a
halt. Every whole-machine claim is a case split over these five. -/
inductive Shape (s : State) : State → Prop
  | move (rd : RegIdx) (v pc' : Word) : Shape s ((s.writeReg rd v).setPc pc')
  | jump (pc' : Word) : Shape s (s.setPc pc')
  | load (a : Word) (w : Width) (rd : RegIdx) (v : Word) :
      Shape s ((s.report (accessReports s.cfg .read a w.bytes)).writeAndAdvance rd v)
  | store (a : Word) (w : Width) (v : Word) : Shape s (s.memWrite a w v).advancePc
  | halt (cause : HaltReason) (h : cause ≠ .none) : Shape s (s.raise cause)

theorem State.writeAndAdvance_shape (s : State) (rd : RegIdx) (v : Word) : Shape s (s.writeAndAdvance rd v) := by
  have := Shape.move (s := s) rd v (s.pc + 4)
  rwa [show (s.writeReg rd v).setPc (s.pc + 4) = s.writeAndAdvance rd v by
    simp [State.writeAndAdvance, State.advancePc]] at this

theorem State.branchIf_shape (s : State) (c : Word → Word → Bool) (rs1 rs2 : RegIdx) (offset : BitVec 13) :
    Shape s (s.branchIf c rs1 rs2 offset) := by
  unfold State.branchIf
  split <;> exact Shape.jump _

/-- What any instruction can do, said once. -/
theorem exec_shape {i : Instr} {s t : State} (h : exec i s = .next t) : Shape s t := by
  cases i with
  | lui rd imm20 => cases h; exact s.writeAndAdvance_shape _ _
  | auipc rd imm20 => cases h; exact s.writeAndAdvance_shape _ _
  | jal rd offset => cases h; exact Shape.move _ _ _
  | jalr rd rs1 imm => cases h; exact Shape.move _ _ _
  | beq rs1 rs2 offset => cases h; exact s.branchIf_shape _ _ _ _
  | bne rs1 rs2 offset => cases h; exact s.branchIf_shape _ _ _ _
  | blt rs1 rs2 offset => cases h; exact s.branchIf_shape _ _ _ _
  | bge rs1 rs2 offset => cases h; exact s.branchIf_shape _ _ _ _
  | bltu rs1 rs2 offset => cases h; exact s.branchIf_shape _ _ _ _
  | bgeu rs1 rs2 offset => cases h; exact s.branchIf_shape _ _ _ _
  | lb rd rs1 imm => cases h; exact Shape.load _ _ _ _
  | lh rd rs1 imm => cases h; exact Shape.load _ _ _ _
  | lw rd rs1 imm => cases h; exact Shape.load _ _ _ _
  | lbu rd rs1 imm => cases h; exact Shape.load _ _ _ _
  | lhu rd rs1 imm => cases h; exact Shape.load _ _ _ _
  | sb rs1 rs2 imm => cases h; exact Shape.store _ _ _
  | sh rs1 rs2 imm => cases h; exact Shape.store _ _ _
  | sw rs1 rs2 imm => cases h; exact Shape.store _ _ _
  | addi rd rs1 imm => cases h; exact s.writeAndAdvance_shape _ _
  | slti rd rs1 imm => cases h; exact s.writeAndAdvance_shape _ _
  | sltiu rd rs1 imm => cases h; exact s.writeAndAdvance_shape _ _
  | xori rd rs1 imm => cases h; exact s.writeAndAdvance_shape _ _
  | ori rd rs1 imm => cases h; exact s.writeAndAdvance_shape _ _
  | andi rd rs1 imm => cases h; exact s.writeAndAdvance_shape _ _
  | slli rd rs1 shamt => cases h; exact s.writeAndAdvance_shape _ _
  | srli rd rs1 shamt => cases h; exact s.writeAndAdvance_shape _ _
  | srai rd rs1 shamt => cases h; exact s.writeAndAdvance_shape _ _
  | add rd rs1 rs2 => cases h; exact s.writeAndAdvance_shape _ _
  | sub rd rs1 rs2 => cases h; exact s.writeAndAdvance_shape _ _
  | sll rd rs1 rs2 => cases h; exact s.writeAndAdvance_shape _ _
  | slt rd rs1 rs2 => cases h; exact s.writeAndAdvance_shape _ _
  | sltu rd rs1 rs2 => cases h; exact s.writeAndAdvance_shape _ _
  | xor rd rs1 rs2 => cases h; exact s.writeAndAdvance_shape _ _
  | srl rd rs1 rs2 => cases h; exact s.writeAndAdvance_shape _ _
  | sra rd rs1 rs2 => cases h; exact s.writeAndAdvance_shape _ _
  | or rd rs1 rs2 => cases h; exact s.writeAndAdvance_shape _ _
  | and rd rs1 rs2 => cases h; exact s.writeAndAdvance_shape _ _
  | ecall => cases h; exact Shape.halt _ (by decide)
  | ebreak => cases h; exact Shape.halt _ (by decide)
  | csrrs rd rs1 csr => cases h; exact s.writeAndAdvance_shape _ _

theorem execute_shape {insn : Word} {s t : State} (h : execute insn s = .next t) : Shape s t := by
  unfold execute at h
  split at h
  · exact exec_shape h
  · cases h; exact Shape.halt _ (by decide)

/-! ### The step -/

theorem step_of_halted {s : State} (h : s.halted = true) : step s = .next s := by
  simp [step, tick, h]

/-- A running hart counts, fetches (reporting if out of range) and executes, whatever its `pc` (R130 to R133). -/
theorem step_of_running {s : State} (h : s.halted = false) :
    step s = execute (s.readValue s.pc .word)
      (s.countInstruction.report (accessReports s.cfg .read s.pc 4)) := by
  simp only [step, tick, h, Bool.false_eq_true, if_false]
  rfl

/-- A step that answers a next state: the hart was halted and nothing happened, or one word was fetched and executed. -/
theorem step_next {s t : State} (h : step s = .next t) :
    (s.halted = true ∧ t = s) ∨
      (s.halted = false ∧
        execute (s.readValue s.pc .word) (s.countInstruction.report (accessReports s.cfg .read s.pc 4)) = .next t) := by
  cases hh : s.halted
  · rw [step_of_running hh] at h; exact .inr ⟨rfl, h⟩
  · rw [step_of_halted hh] at h; cases h; exact .inl ⟨rfl, rfl⟩

/-- A running hart whose word at `pc` lies in memory executes that word after counting, and reports nothing. -/
theorem step_of_inRange {s : State} (h : s.halted = false) (hr : InRange s.cfg s.pc 4) :
    step s = execute (composeBytes s.byteAt s.pc.toNat .word) s.countInstruction := by
  rw [step_of_running h, State.readValue_inRange (w := .word) hr, accessReports_inRange _ hr]
  simp only [State.report, List.append_nil]

/-- Every instruction completes, in every state: no fault, no refusal. -/
theorem exec_completes (i : Instr) (s : State) : ∃ t, exec i s = .next t := by
  cases i <;> exact ⟨_, rfl⟩

theorem execute_completes (insn : Word) (s : State) : ∃ t, execute insn s = .next t := by
  unfold execute
  split
  · exact exec_completes _ s
  · exact ⟨_, rfl⟩

/-! ### Loads and stores in range -/

theorem State.loadWith_inRange {s : State} {w : Width} (extend : Word → Word) (rd : RegIdx) {rs1 : RegIdx}
    {imm : BitVec 12} (hr : InRange s.cfg (s.effectiveAddress rs1 imm) w.bytes) :
    s.loadWith w extend rd rs1 imm =
      .next (s.writeAndAdvance rd (extend (composeBytes s.byteAt (s.effectiveAddress rs1 imm).toNat w))) := by
  rw [State.loadWith_eq, State.readValue_inRange hr, accessReports_inRange _ hr]
  simp only [State.report, List.append_nil]

theorem State.storeWith_inRange {s : State} {w : Width} {rs1 : RegIdx} (rs2 : RegIdx) {imm : BitVec 12}
    (hr : InRange s.cfg (s.effectiveAddress rs1 imm) w.bytes) :
    s.storeWith w rs1 rs2 imm =
      .next (State.advancePc
        { s with
          mem := Memory.setAll s.cfg.memFill s.mem
            (storeCells (s.effectiveAddress rs1 imm) w (s.readReg rs2)) }) := by
  rw [State.storeWith_eq, State.memWrite, storedCells_inRange _ hr, accessReports_inRange _ hr]
  simp only [List.append_nil]

end Sys2Proof.Machine
end

