-- ==== Sys2Proof/Laws/Host.lean ====
section
/-!
SUPPORT. The laws of what writes memory from outside a step: the host's load and the placing of a word. Both keep the
canonical form.
-/

namespace Sys2Proof.Machine

/-- The cells of an image are its bytes, each at its index. -/
theorem mem_imageCells {image : List Byte} {c : Host.Cell} : c ∈ imageCells image ↔ image[c.1]? = some c.2 := by
  unfold imageCells
  simp only [List.mem_map, Prod.exists, List.mk_mem_zipIdx_iff_getElem?]
  constructor
  · rintro ⟨a, b, h, rfl⟩
    exact h
  · intro h
    exact ⟨c.2, c.1, h, rfl⟩

/-- No two cells of an image name the same address. -/
theorem imageCells_distinct (image : List Byte) : (imageCells image).Pairwise (fun c d => c.1 ≠ d.1) := by
  unfold imageCells
  rw [List.pairwise_map]
  have h : (image.zipIdx.map Prod.snd).Nodup := by
    rw [List.zipIdx_map_snd]
    exact List.nodup_range'
  rwa [List.Nodup, List.pairwise_map] at h

theorem imageCells_lt {image : List Byte} {c : Host.Cell} (h : c ∈ imageCells image) : c.1 < image.length :=
  (List.getElem?_eq_some_iff.mp (mem_imageCells.mp h)).1

/-- A load keeps the canonical form. -/
theorem State.loadImage_wf {s t : State} {image : List Byte} (h : s.loadImage image = .next t)
    (hm : Memory.wf s.cfg.memFill s.cfg.capacity s.mem) : Memory.wf t.cfg.memFill t.cfg.capacity t.mem := by
  unfold State.loadImage at h
  split at h
  · next hfit =>
    cases h
    exact Memory.setAll_wf hm fun c hc => Nat.lt_of_lt_of_le (imageCells_lt hc) hfit
  · cases h

/-! ### Where a word is placed -/

theorem State.readyToFetch_inRange (s : State) : InRange s.readyToFetch.cfg s.readyToFetch.pc 4 := by
  unfold State.readyToFetch
  by_cases h : InRange s.cfg s.pc 4
  · simp only [if_pos h]
    split <;> exact h
  · simp only [if_neg h]
    simp only [InRange, Config.capacity, BitVec.ofNat_eq_ofNat, BitVec.toNat_ofNat]
    omega

theorem State.readyToFetch_wf {s : State} (hm : Memory.wf s.cfg.memFill s.cfg.capacity s.mem) :
    Memory.wf s.readyToFetch.cfg.memFill s.readyToFetch.cfg.capacity s.readyToFetch.mem := by
  unfold State.readyToFetch
  by_cases h : InRange s.cfg s.pc 4
  · simp only [if_pos h]
    split <;> exact hm
  · simp only [if_neg h]
    refine ⟨by split <;> exact hm.1, fun c hc => ?_⟩
    have hc' := hm.2 c (by split at hc <;> exact hc)
    refine ⟨Nat.lt_of_lt_of_le hc'.1 ?_, hc'.2⟩
    simp only [Config.capacity]
    omega

/-- Placing a word keeps the canonical form. -/
theorem State.placeWord_wf {s : State} (w : Word) (hm : Memory.wf s.cfg.memFill s.cfg.capacity s.mem) :
    Memory.wf (s.placeWord w).cfg.memFill (s.placeWord w).cfg.capacity (s.placeWord w).mem := by
  refine Memory.setAll_wf (State.readyToFetch_wf hm) fun c hc => ?_
  obtain ⟨k, hk, rfl⟩ := mem_storeCells.mp hc
  have hr := s.readyToFetch_inRange
  simp only [InRange, Width.bytes] at hr hk
  change s.readyToFetch.pc.toNat + k < s.readyToFetch.cfg.capacity
  omega

end Sys2Proof.Machine
end

