-- ==== Sys2Proof/Laws/PerInstr.lean ====
section
/-!
SUPPORT. Statements made per instruction. `EncodeMatches`: an instruction's encoding has the bits its row of
spec/opcode_table.json fixes.
-/

namespace Sys2Proof.Laws.EncodeMatches

/-- Some row of the opcode table with the instruction's mnemonic matches the instruction's encoding. -/
def Statement (i : Instr) : Prop :=
  ∃ row ∈ opcodeTable, row.mnemonic = i.mnemonic ∧ encode i &&& row.mask = row.value

/-- Choosing the row by its place in the table. -/
theorem of_row {i : Instr} (k : Nat) (value mask : Word) (hk : opcodeTable[k]? = some ⟨i.mnemonic, value, mask⟩)
    (hv : encode i &&& mask = value) : Statement i :=
  ⟨_, List.mem_of_getElem? hk, rfl, hv⟩

theorem lui (rd : RegIdx) (imm20 : BitVec 20) : Statement (.lui rd imm20) :=
  of_row 0 0x00000037 0x0000007F rfl
    ((and_opcodeMask (encodeU imm20 rd 0b0110111)).trans (by simp [encodeU_fields]))

theorem auipc (rd : RegIdx) (imm20 : BitVec 20) : Statement (.auipc rd imm20) :=
  of_row 1 0x00000017 0x0000007F rfl
    ((and_opcodeMask (encodeU imm20 rd 0b0010111)).trans (by simp [encodeU_fields]))

theorem jal (rd : RegIdx) (offset : BitVec 21) : Statement (.jal rd offset) :=
  of_row 2 0x0000006F 0x0000007F rfl
    ((and_opcodeMask (encodeJ offset rd 0b1101111)).trans (by simp [encodeJ_fields]))

theorem jalr (rd rs1 : RegIdx) (imm : BitVec 12) : Statement (.jalr rd rs1 imm) :=
  of_row 3 0x00000067 0x0000707F rfl
    ((and_funct3Mask (encodeI imm rs1 0b000 rd 0b1100111)).trans (by simp [encodeI_fields]))

theorem beq (rs1 rs2 : RegIdx) (offset : BitVec 13) : Statement (.beq rs1 rs2 offset) :=
  of_row 4 0x00000063 0x0000707F rfl
    ((and_funct3Mask (encodeB offset rs2 rs1 0b000 0b1100011)).trans (by simp [encodeB_fields]))

theorem bne (rs1 rs2 : RegIdx) (offset : BitVec 13) : Statement (.bne rs1 rs2 offset) :=
  of_row 5 0x00001063 0x0000707F rfl
    ((and_funct3Mask (encodeB offset rs2 rs1 0b001 0b1100011)).trans (by simp [encodeB_fields]))

theorem blt (rs1 rs2 : RegIdx) (offset : BitVec 13) : Statement (.blt rs1 rs2 offset) :=
  of_row 6 0x00004063 0x0000707F rfl
    ((and_funct3Mask (encodeB offset rs2 rs1 0b100 0b1100011)).trans (by simp [encodeB_fields]))

theorem bge (rs1 rs2 : RegIdx) (offset : BitVec 13) : Statement (.bge rs1 rs2 offset) :=
  of_row 7 0x00005063 0x0000707F rfl
    ((and_funct3Mask (encodeB offset rs2 rs1 0b101 0b1100011)).trans (by simp [encodeB_fields]))

theorem bltu (rs1 rs2 : RegIdx) (offset : BitVec 13) : Statement (.bltu rs1 rs2 offset) :=
  of_row 8 0x00006063 0x0000707F rfl
    ((and_funct3Mask (encodeB offset rs2 rs1 0b110 0b1100011)).trans (by simp [encodeB_fields]))

theorem bgeu (rs1 rs2 : RegIdx) (offset : BitVec 13) : Statement (.bgeu rs1 rs2 offset) :=
  of_row 9 0x00007063 0x0000707F rfl
    ((and_funct3Mask (encodeB offset rs2 rs1 0b111 0b1100011)).trans (by simp [encodeB_fields]))

theorem lb (rd rs1 : RegIdx) (imm : BitVec 12) : Statement (.lb rd rs1 imm) :=
  of_row 10 0x00000003 0x0000707F rfl
    ((and_funct3Mask (encodeI imm rs1 0b000 rd 0b0000011)).trans (by simp [encodeI_fields]))

theorem lh (rd rs1 : RegIdx) (imm : BitVec 12) : Statement (.lh rd rs1 imm) :=
  of_row 11 0x00001003 0x0000707F rfl
    ((and_funct3Mask (encodeI imm rs1 0b001 rd 0b0000011)).trans (by simp [encodeI_fields]))

theorem lw (rd rs1 : RegIdx) (imm : BitVec 12) : Statement (.lw rd rs1 imm) :=
  of_row 12 0x00002003 0x0000707F rfl
    ((and_funct3Mask (encodeI imm rs1 0b010 rd 0b0000011)).trans (by simp [encodeI_fields]))

theorem lbu (rd rs1 : RegIdx) (imm : BitVec 12) : Statement (.lbu rd rs1 imm) :=
  of_row 13 0x00004003 0x0000707F rfl
    ((and_funct3Mask (encodeI imm rs1 0b100 rd 0b0000011)).trans (by simp [encodeI_fields]))

theorem lhu (rd rs1 : RegIdx) (imm : BitVec 12) : Statement (.lhu rd rs1 imm) :=
  of_row 14 0x00005003 0x0000707F rfl
    ((and_funct3Mask (encodeI imm rs1 0b101 rd 0b0000011)).trans (by simp [encodeI_fields]))

theorem sb (rs1 rs2 : RegIdx) (imm : BitVec 12) : Statement (.sb rs1 rs2 imm) :=
  of_row 15 0x00000023 0x0000707F rfl
    ((and_funct3Mask (encodeS imm rs2 rs1 0b000 0b0100011)).trans (by simp [encodeS_fields]))

theorem sh (rs1 rs2 : RegIdx) (imm : BitVec 12) : Statement (.sh rs1 rs2 imm) :=
  of_row 16 0x00001023 0x0000707F rfl
    ((and_funct3Mask (encodeS imm rs2 rs1 0b001 0b0100011)).trans (by simp [encodeS_fields]))

theorem sw (rs1 rs2 : RegIdx) (imm : BitVec 12) : Statement (.sw rs1 rs2 imm) :=
  of_row 17 0x00002023 0x0000707F rfl
    ((and_funct3Mask (encodeS imm rs2 rs1 0b010 0b0100011)).trans (by simp [encodeS_fields]))

theorem addi (rd rs1 : RegIdx) (imm : BitVec 12) : Statement (.addi rd rs1 imm) :=
  of_row 18 0x00000013 0x0000707F rfl
    ((and_funct3Mask (encodeI imm rs1 0b000 rd 0b0010011)).trans (by simp [encodeI_fields]))

theorem slti (rd rs1 : RegIdx) (imm : BitVec 12) : Statement (.slti rd rs1 imm) :=
  of_row 19 0x00002013 0x0000707F rfl
    ((and_funct3Mask (encodeI imm rs1 0b010 rd 0b0010011)).trans (by simp [encodeI_fields]))

theorem sltiu (rd rs1 : RegIdx) (imm : BitVec 12) : Statement (.sltiu rd rs1 imm) :=
  of_row 20 0x00003013 0x0000707F rfl
    ((and_funct3Mask (encodeI imm rs1 0b011 rd 0b0010011)).trans (by simp [encodeI_fields]))

theorem xori (rd rs1 : RegIdx) (imm : BitVec 12) : Statement (.xori rd rs1 imm) :=
  of_row 21 0x00004013 0x0000707F rfl
    ((and_funct3Mask (encodeI imm rs1 0b100 rd 0b0010011)).trans (by simp [encodeI_fields]))

theorem ori (rd rs1 : RegIdx) (imm : BitVec 12) : Statement (.ori rd rs1 imm) :=
  of_row 22 0x00006013 0x0000707F rfl
    ((and_funct3Mask (encodeI imm rs1 0b110 rd 0b0010011)).trans (by simp [encodeI_fields]))

theorem andi (rd rs1 : RegIdx) (imm : BitVec 12) : Statement (.andi rd rs1 imm) :=
  of_row 23 0x00007013 0x0000707F rfl
    ((and_funct3Mask (encodeI imm rs1 0b111 rd 0b0010011)).trans (by simp [encodeI_fields]))

theorem slli (rd rs1 : RegIdx) (shamt : BitVec 5) : Statement (.slli rd rs1 shamt) :=
  of_row 24 0x00001013 0x0000707F rfl
    ((and_funct3Mask (encodeShift 0b0000000 shamt rs1 0b001 rd 0b0010011)).trans (by simp [encodeShift_fields]))

theorem srli (rd rs1 : RegIdx) (shamt : BitVec 5) : Statement (.srli rd rs1 shamt) :=
  of_row 25 0x00005013 0xFE00707F rfl
    ((and_funct7Mask (encodeShift 0b0000000 shamt rs1 0b101 rd 0b0010011)).trans (by simp [encodeShift_fields]))

theorem srai (rd rs1 : RegIdx) (shamt : BitVec 5) : Statement (.srai rd rs1 shamt) :=
  of_row 26 0x40005013 0xFE00707F rfl
    ((and_funct7Mask (encodeShift 0b0100000 shamt rs1 0b101 rd 0b0010011)).trans (by simp [encodeShift_fields]))

theorem add (rd rs1 rs2 : RegIdx) : Statement (.add rd rs1 rs2) :=
  of_row 27 0x00000033 0xFE00707F rfl
    ((and_funct7Mask (encodeR 0b0000000 rs2 rs1 0b000 rd 0b0110011)).trans (by simp [encodeR_fields]))

theorem sub (rd rs1 rs2 : RegIdx) : Statement (.sub rd rs1 rs2) :=
  of_row 28 0x40000033 0xFE00707F rfl
    ((and_funct7Mask (encodeR 0b0100000 rs2 rs1 0b000 rd 0b0110011)).trans (by simp [encodeR_fields]))

theorem sll (rd rs1 rs2 : RegIdx) : Statement (.sll rd rs1 rs2) :=
  of_row 29 0x00001033 0x0000707F rfl
    ((and_funct3Mask (encodeR 0b0000000 rs2 rs1 0b001 rd 0b0110011)).trans (by simp [encodeR_fields]))

theorem slt (rd rs1 rs2 : RegIdx) : Statement (.slt rd rs1 rs2) :=
  of_row 30 0x00002033 0x0000707F rfl
    ((and_funct3Mask (encodeR 0b0000000 rs2 rs1 0b010 rd 0b0110011)).trans (by simp [encodeR_fields]))

theorem sltu (rd rs1 rs2 : RegIdx) : Statement (.sltu rd rs1 rs2) :=
  of_row 31 0x00003033 0x0000707F rfl
    ((and_funct3Mask (encodeR 0b0000000 rs2 rs1 0b011 rd 0b0110011)).trans (by simp [encodeR_fields]))

theorem xor (rd rs1 rs2 : RegIdx) : Statement (.xor rd rs1 rs2) :=
  of_row 32 0x00004033 0x0000707F rfl
    ((and_funct3Mask (encodeR 0b0000000 rs2 rs1 0b100 rd 0b0110011)).trans (by simp [encodeR_fields]))

theorem srl (rd rs1 rs2 : RegIdx) : Statement (.srl rd rs1 rs2) :=
  of_row 33 0x00005033 0xFE00707F rfl
    ((and_funct7Mask (encodeR 0b0000000 rs2 rs1 0b101 rd 0b0110011)).trans (by simp [encodeR_fields]))

theorem sra (rd rs1 rs2 : RegIdx) : Statement (.sra rd rs1 rs2) :=
  of_row 34 0x40005033 0xFE00707F rfl
    ((and_funct7Mask (encodeR 0b0100000 rs2 rs1 0b101 rd 0b0110011)).trans (by simp [encodeR_fields]))

theorem or (rd rs1 rs2 : RegIdx) : Statement (.or rd rs1 rs2) :=
  of_row 35 0x00006033 0x0000707F rfl
    ((and_funct3Mask (encodeR 0b0000000 rs2 rs1 0b110 rd 0b0110011)).trans (by simp [encodeR_fields]))

theorem and (rd rs1 rs2 : RegIdx) : Statement (.and rd rs1 rs2) :=
  of_row 36 0x00007033 0x0000707F rfl
    ((and_funct3Mask (encodeR 0b0000000 rs2 rs1 0b111 rd 0b0110011)).trans (by simp [encodeR_fields]))

theorem ecall : Statement .ecall :=
  of_row 37 0x00000073 0xFFFFFFFF rfl (by decide)

theorem ebreak : Statement .ebreak :=
  of_row 38 0x00100073 0xFFFFFFFF rfl (by decide)

theorem csrrs (rd rs1 : RegIdx) (csr : BitVec 12) : Statement (.csrrs rd rs1 csr) :=
  of_row 39 0x00002073 0x0000707F rfl
    ((and_funct3Mask (encodeI csr rs1 0b010 rd 0b1110011)).trans (by simp [encodeI_fields]))

end Sys2Proof.Laws.EncodeMatches
end

