-- ==== Sys2Proof/Laws/Safety.lean ====
section
/-!
SUPPORT. How the effects of Safety.lean are met by the shared state updates.
-/

namespace Sys2Proof.Machine

theorem writesRegister_setPc (s : State) (rd : RegIdx) (v pc' : Word) :
    WritesRegister rd v pc' s ((s.writeReg rd v).setPc pc') :=
  ⟨fun i => by simp [State.writeReg_readReg], rfl, fun a => by simp, by simp [SameControl], by simp⟩

theorem writesRegister_writeAndAdvance (s : State) (rd : RegIdx) (v : Word) :
    WritesRegister rd v (s.pc + 4) s (s.writeAndAdvance rd v) :=
  ⟨fun i => s.writeAndAdvance_readReg rd i v, by simp, fun a => by simp, by simp [SameControl], by simp⟩

theorem onlyMovesPc_branchIf (s : State) (c : Word → Word → Bool) (rs1 rs2 : RegIdx) (offset : BitVec 13) :
    OnlyMovesPc (s.branchIf c rs1 rs2 offset).pc s (s.branchIf c rs1 rs2 offset) := by
  unfold State.branchIf
  split <;> exact ⟨fun _ => rfl, rfl, fun _ => rfl, ⟨rfl, rfl, rfl, rfl⟩, rfl⟩

theorem onlyHalts_raise (s : State) (cause : HaltReason) : OnlyHalts cause s (s.raise cause) :=
  ⟨rfl, rfl, fun _ => rfl, rfl, fun _ => rfl, rfl, rfl, rfl⟩

/-- A store in range stores its bytes and nothing else. -/
theorem State.storeWith_storesBytes {s : State} {w : Width} {rs1 : RegIdx} (rs2 : RegIdx) {imm : BitVec 12}
    (hm : Memory.wf s.cfg.memFill s.cfg.capacity s.mem)
    (hr : InRange s.cfg (s.effectiveAddress rs1 imm) w.bytes) :
    ∃ t, s.storeWith w rs1 rs2 imm = .next t ∧ StoresBytes (s.effectiveAddress rs1 imm) w.bytes (s.readReg rs2) s t :=
  ⟨_, State.storeWith_eq s w rs1 rs2 imm, fun a => by
      rw [State.advancePc, State.setPc_byteAt, State.memWrite_byteAt _ _ _ hm]
      simp only [InRange] at hr
      refine if_congr ⟨fun h => ⟨h.1, h.2.1⟩, fun h => ⟨h.1, h.2, by omega, .inr hr⟩⟩ rfl rfl,
    fun _ => rfl, rfl, ⟨rfl, rfl, rfl, rfl⟩, by simp [State.memWrite, accessReports_inRange _ hr]⟩

end Sys2Proof.Machine
end

