-- ==== Sys2Proof/Tests/Slice0.lean ====
section
/-!
SUPPORT. The model's own tests: ill-formed instructions refused, words written out from the spec's formats decoded,
single steps against the vectors of spec/95_test_vectors.md (the number V<n>, T<n> or S<n> stands before each), and for
every statement with hypotheses a state and operands that meet them (test_witness_<statement>).
-/

namespace Sys2Proof.Tests

open Sys2Proof.Machine

/-! ### Helpers -/

/-- The vectors' machine: CAPACITY 0x50, everything else default. -/
def vectorConfig : Config := { Config.default with memSize := 0x50 }

def perByteConfig : Config := { vectorConfig with oorPolicy := .perByte }

/-- A vector's start state: the word at `pc`, some registers and some bytes, everything else as created. -/
def startWith (c : Config) (pc w : Word) (regs : List (RegIdx × Word)) (bytes : List Host.Cell) : State :=
  let s := regs.foldl (fun s r => s.writeReg r.1 r.2) (State.created c)
  { s with pc := pc, mem := Memory.setAll c.memFill [] (bytes ++ storeCells pc .word w) }

def start (pc w : Word) (regs : List (RegIdx × Word)) : State := startWith vectorConfig pc w regs []

def nextOf : Result → Option State
  | .next t => some t
  | .fault _ => none
  | .refused _ => none

/-- Some registers and the pc after one tick. -/
def registersAfter (s : State) (rs : List RegIdx) : Option (List Word × Word) :=
  (nextOf (step s)).map fun t => (rs.map t.readReg, t.pc)

/-- Some bytes, the reports and the pc after one tick. -/
def bytesAfter (s : State) (addresses : List Nat) : Option (List Byte × List OorReport × Word) :=
  (nextOf (step s)).map fun t => (addresses.map t.byteAt, t.oorLog, t.pc)

/-- The halt reason, the counter, the reports and the pc after one tick. -/
def haltAfter (s : State) : Option (HaltReason × Nat × List OorReport × Word) :=
  (nextOf (step s)).map fun t => (t.haltReason, t.icount, t.oorLog, t.pc)

/-- The vectors' data for loads: `mem[0x40..0x45] = EF CD AB 89 7F 80`. -/
def loadData : List Host.Cell :=
  [(0x40, 0xEF), (0x41, 0xCD), (0x42, 0xAB), (0x43, 0x89), (0x44, 0x7F), (0x45, 0x80)]


/-! ### Ill-formed instructions are refused: an odd offset (30_encoding.md R99, R101) -/

theorem test_illFormed_jal : (Instr.jal 1 3).WellFormed = false := by decide
theorem test_illFormed_beq : (Instr.beq 1 2 (-1)).WellFormed = false := by decide
theorem test_illFormed_bne : (Instr.bne 1 2 (-1)).WellFormed = false := by decide
theorem test_illFormed_blt : (Instr.blt 1 2 (-1)).WellFormed = false := by decide
theorem test_illFormed_bge : (Instr.bge 1 2 (-1)).WellFormed = false := by decide
theorem test_illFormed_bltu : (Instr.bltu 1 2 (-1)).WellFormed = false := by decide
theorem test_illFormed_bgeu : (Instr.bgeu 1 2 (-1)).WellFormed = false := by decide
theorem test_wellFormed_even :
    (Instr.jal 1 (-2)).WellFormed = true ∧ (Instr.beq 1 2 4094).WellFormed = true := by decide

/-! ### Decoding: one word for each constructor, its fields written out from the formats of 30_encoding.md R102 and the
values of R105 to R107, highest bit first -/

theorem test_decode_lui : decode false 0b10101011110011011110_10001_0110111 = .ok (.lui 17 0xABCDE) := by decide
theorem test_decode_auipc : decode false 0b10000000000000000001_11110_0010111 = .ok (.auipc 30 0x80001) := by decide
theorem test_decode_jal : decode false 0b1_0101010101_1_01010101_10101_1101111 = .ok (.jal 21 (-0xAA556)) := by decide
theorem test_decode_jalr : decode false 0b101010101011_01001_000_10010_1100111 = .ok (.jalr 18 9 (-1365)) := by decide
theorem test_decode_beq : decode false 0b1_101010_10011_00110_000_1010_0_1100011 = .ok (.beq 6 19 (-2732)) := by decide
theorem test_decode_bne : decode false 0b0_101010_10011_00111_001_1010_0_1100011 = .ok (.bne 7 19 1364) := by decide
theorem test_decode_blt : decode false 0b0_000000_10011_01010_100_0000_1_1100011 = .ok (.blt 10 19 2048) := by decide
theorem test_decode_bge : decode false 0b1_000000_10011_01011_101_0000_0_1100011 = .ok (.bge 11 19 (-4096)) := by decide
theorem test_decode_bltu : decode false 0b0_111111_10011_01100_110_1111_1_1100011 = .ok (.bltu 12 19 4094) := by decide
theorem test_decode_bgeu : decode false 0b1_111111_10011_01101_111_1111_1_1100011 = .ok (.bgeu 13 19 (-2)) := by decide
theorem test_decode_lb : decode false 0b100000000000_01011_000_11000_0000011 = .ok (.lb 24 11 (-2048)) := by decide
theorem test_decode_lh : decode false 0b100000000001_01011_001_11000_0000011 = .ok (.lh 24 11 (-2047)) := by decide
theorem test_decode_lw : decode false 0b100000000010_01011_010_11000_0000011 = .ok (.lw 24 11 (-2046)) := by decide
theorem test_decode_lbu : decode false 0b100000000100_01011_100_11000_0000011 = .ok (.lbu 24 11 (-2044)) := by decide
theorem test_decode_lhu : decode false 0b100000000101_01011_101_11000_0000011 = .ok (.lhu 24 11 (-2043)) := by decide
theorem test_decode_sb : decode false 0b1010101_01101_11010_000_01010_0100011 = .ok (.sb 26 13 (-1366)) := by decide
theorem test_decode_sh : decode false 0b0101010_01101_11010_001_10101_0100011 = .ok (.sh 26 13 1365) := by decide
theorem test_decode_sw : decode false 0b1000000_01101_11010_010_11111_0100011 = .ok (.sw 26 13 (-2017)) := by decide
theorem test_decode_addi : decode false 0b010110100101_11101_000_01100_0010011 = .ok (.addi 12 29 0x5A5) := by decide
theorem test_decode_slti : decode false 0b010110100111_11101_010_01100_0010011 = .ok (.slti 12 29 0x5A7) := by decide
theorem test_decode_sltiu : decode false 0b010110101000_11101_011_01100_0010011 = .ok (.sltiu 12 29 0x5A8) := by decide
theorem test_decode_xori : decode false 0b010110101001_11101_100_01100_0010011 = .ok (.xori 12 29 0x5A9) := by decide
theorem test_decode_ori : decode false 0b010110101011_11101_110_01100_0010011 = .ok (.ori 12 29 0x5Ab) := by decide
theorem test_decode_andi : decode false 0b010110101100_11101_111_01100_0010011 = .ok (.andi 12 29 0x5Ac) := by decide
theorem test_decode_slli : decode false 0b0000000_10101_01010_001_00101_0010011 = .ok (.slli 5 10 21) := by decide
theorem test_decode_srli : decode false 0b0000000_11111_01010_101_00110_0010011 = .ok (.srli 6 10 31) := by decide
theorem test_decode_srai : decode false 0b0100000_00001_01010_101_00111_0010011 = .ok (.srai 7 10 1) := by decide
theorem test_decode_add : decode false 0b0000000_10010_00101_000_11111_0110011 = .ok (.add 31 5 18) := by decide
theorem test_decode_sub : decode false 0b0100000_10010_00101_000_11111_0110011 = .ok (.sub 31 5 18) := by decide
theorem test_decode_sll : decode false 0b0000000_10010_00110_001_11110_0110011 = .ok (.sll 30 6 18) := by decide
theorem test_decode_slt : decode false 0b0000000_10010_00111_010_11101_0110011 = .ok (.slt 29 7 18) := by decide
theorem test_decode_sltu : decode false 0b0000000_10010_01000_011_11100_0110011 = .ok (.sltu 28 8 18) := by decide
theorem test_decode_xor : decode false 0b0000000_10010_01001_100_11011_0110011 = .ok (.xor 27 9 18) := by decide
theorem test_decode_srl : decode false 0b0000000_10010_01010_101_11010_0110011 = .ok (.srl 26 10 18) := by decide
theorem test_decode_sra : decode false 0b0100000_10010_01010_101_11010_0110011 = .ok (.sra 26 10 18) := by decide
theorem test_decode_or : decode false 0b0000000_10010_01011_110_11001_0110011 = .ok (.or 25 11 18) := by decide
theorem test_decode_and : decode false 0b0000000_10010_01100_111_11000_0110011 = .ok (.and 24 12 18) := by decide
theorem test_decode_ecall : decode false 0b000000000000_00000_000_00000_1110011 = .ok (.ecall) := by decide
theorem test_decode_ebreak : decode false 0b000000000001_00000_000_00000_1110011 = .ok (.ebreak) := by decide
theorem test_decode_csrrs : decode false 0b110010000001_01110_010_10100_1110011 = .ok (.csrrs 20 14 0xC81) := by decide

/-- V94, V95, V96, V125, V129: funct7 where it is not examined, both values of `FUNCT7_STRICT`. -/
theorem test_decode_unexamined_funct7 :
    decode false 0x02409193 = .ok (.slli 3 1 4) ∧ decode false 0x40409193 = .ok (.slli 3 1 4) ∧
    decode true 0x02409193 = .error .unknownFunct7 ∧
    decode false 0x022091B3 = .ok (.sll 3 1 2) ∧ decode true 0x022091B3 = .error .unknownFunct7 := by decide

/-- V20, V39, V59, V75, V124, V127: illegal at each level of the tree. -/
theorem test_decode_illegal :
    decode false 0x00009067 = .error .unknownFunct3 ∧ decode false 0x0020A463 = .error .unknownFunct3 ∧
    decode false 0x04003103 = .error .unknownFunct3 ∧ decode false 0x04203023 = .error .unknownFunct3 ∧
    decode false 0x022081B3 = .error .unknownFunct7 ∧ decode false 0x0220D1B3 = .error .unknownFunct7 := by decide

/-- V139 to V155: the unimplemented system words, FENCE, fill, zeros, ones. -/
theorem test_decode_illegal_system :
    decode false 0x300312F3 = .error .unknownFunct3 ∧ decode false 0x00004073 = .error .unknownFunct3 ∧
    decode false 0x000000F3 = .error .unknownSystemWord ∧ decode false 0x30200073 = .error .unknownSystemWord ∧
    decode false 0x10500073 = .error .unknownSystemWord ∧ decode false 0x0FF0000F = .error .unknownOpcode ∧
    decode false 0x00000000 = .error .unknownOpcode ∧ decode false 0xFFFFFFFF = .error .unknownOpcode ∧
    decode false 0xA5A5A5A5 = .error .unknownOpcode := by decide

/-- T1: the fields of 0xA5A5A5A5. `immB` is what R99 gives, where T1 itself prints 0xFFFFF24A (log 27). -/
theorem test_fields_T1 :
    opcodeField 0xA5A5A5A5 = 0x25 ∧ rdField 0xA5A5A5A5 = 11 ∧ funct3Field 0xA5A5A5A5 = 2 ∧
    rs1Field 0xA5A5A5A5 = 11 ∧ rs2Field 0xA5A5A5A5 = 26 ∧ funct7Field 0xA5A5A5A5 = 0x52 ∧
    immI 0xA5A5A5A5 = 0xFFFFFA5A ∧ immS 0xA5A5A5A5 = 0xFFFFFA4B ∧ immB 0xA5A5A5A5 = 0xFFFFFA4A ∧
    immU 0xA5A5A5A5 = 0xA5A5A000 ∧ immJ 0xA5A5A5A5 = 0xFFF5A25A := by decide

/-- T2: chosen immediates, decoded. -/
theorem test_immediates_T2 :
    immI 0xFFF00013 = 0xFFFFFFFF ∧ immI 0x7FF00013 = 0x000007FF ∧ immS 0x7E002FA3 = 0x000007FF ∧
    immS 0x54002AA3 = 0x00000555 ∧ immB 0x000000E3 = 0x00000800 ∧ immB 0x2A0005E3 = 0x00000AAA ∧
    immB 0x80000063 = 0xFFFFF000 ∧ immU 0x12345037 = 0x12345000 ∧ immJ 0x0010006F = 0x00000800 ∧
    immJ 0x000FF06F = 0x000FF000 ∧ immJ 0x7FE0006F = 0x000007FE ∧ immJ 0x8000006F = 0xFFF00000 := by decide

/-- Bytes come lowest address first, and too few of them are refused. -/
theorem test_decodeBytes :
    decodeBytes false [0xB7, 0x50, 0x34, 0x12, 0x99] = .ok (.lui 1 0x12345, [0x99]) ∧
    decodeBytes false [0xB7, 0x50, 0x34] = .error .truncated ∧
    decodeTableWord 32 0x00100073 = some .ebreak ∧ decodeTableWord 7 0xFFFFFFB7 = some (.lui 0 0) := by decide

/-! ### One step: registers -/

/-- V2: `lui x1, 0xFFFFF`. -/
theorem test_step_lui_V2 : registersAfter (start 0 0xFFFFF0B7 []) [1] = some ([0xFFFFF000], 0x4) := by decide
/-- V4: `lui x0, 0x12345`. -/
theorem test_step_lui_V4 : registersAfter (start 0 0x12345037 []) [0] = some ([0x0], 0x4) := by decide
/-- V6: `auipc x1, 0xFFFFF`. -/
theorem test_step_auipc_V6 : registersAfter (start 0x10 0xFFFFF097 []) [1] = some ([0xFFFFF010], 0x14) := by decide
/-- V7: `auipc x1, 0`. -/
theorem test_step_auipc_V7 : registersAfter (start 0x24 0x00000097 []) [1] = some ([0x24], 0x28) := by decide
/-- V12: `jal x1, -8`. -/
theorem test_step_jal_V12 : registersAfter (start 0x4 0xFF9FF0EF []) [1] = some ([0x8], 0xFFFFFFFC) := by decide
/-- V13: `jal x5, +2`. -/
theorem test_step_jal_V13 : registersAfter (start 0x10 0x002002EF []) [5] = some ([0x14], 0x12) := by decide
/-- V15: `jalr x1, 8(x1`. -/
theorem test_step_jalr_V15 : registersAfter (start 0x10 0x008080E7 [(1, 0x100)]) [1] = some ([0x14], 0x1C) := by decide
/-- V16: `jalr x1, 8(x1`. -/
theorem test_step_jalr_V16 :
    registersAfter (startWith { vectorConfig with jalrLinkFirst := false } 0x10 0x008080E7 [(1, 0x100)] []) [1] =
      some ([0x14], 0x108) := by decide
/-- V33: `beq x1, x2, -8`. -/
theorem test_step_beq_V33 :
    registersAfter (start 0x8 0xFE208CE3 [(1, 0x7), (2, 0x7)]) [0] = some ([0x0], 0x0) := by decide
/-- V21: `beq x1, x2, +16`. -/
theorem test_step_beq_V21 :
    registersAfter (start 0x20 0x00208863 [(1, 0xFFFFFFFF), (2, 0x1)]) [0] = some ([0x0], 0x24) := by decide
/-- V22: `bne x1, x2, +16`. -/
theorem test_step_bne_V22 :
    registersAfter (start 0x20 0x00209863 [(1, 0xFFFFFFFF), (2, 0x1)]) [0] = some ([0x0], 0x30) := by decide
/-- V28: `bne x1, x1, +16`. -/
theorem test_step_bne_V28 :
    registersAfter (start 0x20 0x00109863 [(1, 0xFFFFFFFF)]) [0] = some ([0x0], 0x24) := by decide
/-- V23: `blt x1, x2, +16`. -/
theorem test_step_blt_V23 :
    registersAfter (start 0x20 0x0020C863 [(1, 0xFFFFFFFF), (2, 0x1)]) [0] = some ([0x0], 0x30) := by decide
/-- V37: `blt x2, x1, +16`. -/
theorem test_step_blt_V37 :
    registersAfter (start 0x20 0x00114863 [(1, 0x80000000), (2, 0x7FFFFFFF)]) [0] = some ([0x0], 0x24) := by decide
/-- V24: `bge x1, x2, +16`. -/
theorem test_step_bge_V24 :
    registersAfter (start 0x20 0x0020D863 [(1, 0xFFFFFFFF), (2, 0x1)]) [0] = some ([0x0], 0x24) := by decide
/-- V30: `bge x1, x1, +16`. -/
theorem test_step_bge_V30 :
    registersAfter (start 0x20 0x0010D863 [(1, 0xFFFFFFFF)]) [0] = some ([0x0], 0x30) := by decide
/-- V25: `bltu x1, x2, +16`. -/
theorem test_step_bltu_V25 :
    registersAfter (start 0x20 0x0020E863 [(1, 0xFFFFFFFF), (2, 0x1)]) [0] = some ([0x0], 0x24) := by decide
/-- V38: `bltu x2, x1, +16`. -/
theorem test_step_bltu_V38 :
    registersAfter (start 0x20 0x00116863 [(1, 0x80000000), (2, 0x7FFFFFFF)]) [0] = some ([0x0], 0x30) := by decide
/-- V26: `bgeu x1, x2, +16`. -/
theorem test_step_bgeu_V26 :
    registersAfter (start 0x20 0x0020F863 [(1, 0xFFFFFFFF), (2, 0x1)]) [0] = some ([0x0], 0x30) := by decide
/-- V32: `bgeu x1, x1, +16`. -/
theorem test_step_bgeu_V32 :
    registersAfter (start 0x20 0x0010F863 [(1, 0xFFFFFFFF)]) [0] = some ([0x0], 0x30) := by decide
/-- V40: `lb x2, 0x40(x0`. -/
theorem test_step_lb_V40 :
    registersAfter (startWith vectorConfig 0 0x04000103 [] loadData) [2] = some ([0xFFFFFFEF], 0x4) := by decide
/-- V41: `lb x2, 0x44(x0`. -/
theorem test_step_lb_V41 :
    registersAfter (startWith vectorConfig 0 0x04400103 [] loadData) [2] = some ([0x7F], 0x4) := by decide
/-- V42: `lbu x2, 0x40(x0`. -/
theorem test_step_lbu_V42 :
    registersAfter (startWith vectorConfig 0 0x04004103 [] loadData) [2] = some ([0xEF], 0x4) := by decide
/-- V51: `lbu x2, 0x4F(x0`. -/
theorem test_step_lbu_V51 :
    registersAfter (startWith vectorConfig 0 0x04F04103 [] loadData) [2] = some ([0xA5], 0x4) := by decide
/-- V45: `lh x2, 0x44(x0`. -/
theorem test_step_lh_V45 :
    registersAfter (startWith vectorConfig 0 0x04401103 [] loadData) [2] = some ([0xFFFF807F], 0x4) := by decide
/-- V54: `lh x2, 0x4F(x0`. -/
theorem test_step_lh_V54 :
    registersAfter (startWith perByteConfig 0 0x04F01103 [(2, 0x1234)] loadData) [2] = some ([0xA5], 0x4) := by decide
/-- V44: `lhu x2, 0x42(x0`. -/
theorem test_step_lhu_V44 :
    registersAfter (startWith vectorConfig 0 0x04205103 [] loadData) [2] = some ([0x89AB], 0x4) := by decide
/-- V47: `lw x2, 0x41(x0`. -/
theorem test_step_lw_V47 :
    registersAfter (startWith vectorConfig 0 0x04102103 [] loadData) [2] = some ([0x7F89ABCD], 0x4) := by decide
/-- V57: `lw x2, -1(x0`. -/
theorem test_step_lw_V57 :
    registersAfter (startWith vectorConfig 0 0xFFF02103 [(2, 0x1234)] loadData) [2] = some ([0x0], 0x4) := by decide
/-- V60: `sb x2, 0x40(x0`. -/
theorem test_step_sb_V60 :
    bytesAfter (start 0 0x04200023 [(2, 0x89ABCDEF)]) [0x40, 0x41] = some ([0xEF, 0xA5], [], 0x4) := by decide
/-- V67: `sb x2, 0x50(x0`. -/
theorem test_step_sb_V67 :
    bytesAfter (start 0 0x04200823 [(2, 0x89ABCDEF)]) [0x4F] =
      some ([0xA5], [⟨.write, 0x00000050, 1⟩], 0x4) := by decide
/-- V68: `sh x2, 0x4F(x0`. -/
theorem test_step_sh_V68 :
    bytesAfter (start 0 0x042017A3 [(2, 0x89ABCDEF)]) [0x4F] =
      some ([0xA5], [⟨.write, 0x0000004F, 2⟩], 0x4) := by decide
/-- V69: `sh x2, 0x4F(x0`. -/
theorem test_step_sh_V69 :
    bytesAfter (startWith perByteConfig 0 0x042017A3 [(2, 0x89ABCDEF)] []) [0x4F] =
      some ([0xEF], [⟨.write, 0x00000050, 1⟩], 0x4) := by decide
/-- V63: `sw x2, 0x41(x0`. -/
theorem test_step_sw_V63 :
    bytesAfter (start 0 0x042020A3 [(2, 0x89ABCDEF)]) [0x41, 0x42, 0x43, 0x44, 0x45] =
      some ([0xEF, 0xCD, 0xAB, 0x89, 0xA5], [], 0x4) := by decide
/-- V73: `sw x1, -2048(x0`. -/
theorem test_step_sw_V73 :
    bytesAfter (start 0 0x80102023 [(1, 0x1)]) [0x4F] = some ([0xA5], [⟨.write, 0xFFFFF800, 4⟩], 0x4) := by decide
/-- V77: `addi x3, x1, 2047`. -/
theorem test_step_addi_V77 :
    registersAfter (start 0 0x7FF08193 [(1, 0x7FFFFFFF)]) [3] = some ([0x800007FE], 0x4) := by decide
/-- V80: `addi x1, x1, 5`. -/
theorem test_step_addi_V80 : registersAfter (start 0 0x00508093 [(1, 0xA)]) [1] = some ([0xF], 0x4) := by decide
/-- V81: `slti x3, x1, -1`. -/
theorem test_step_slti_V81 : registersAfter (start 0 0xFFF0A193 [(1, 0xFFFFFFFE)]) [3] = some ([0x1], 0x4) := by decide
/-- V82: `slti x3, x1, -1`. -/
theorem test_step_slti_V82 : registersAfter (start 0 0xFFF0A193 [(1, 0x0)]) [3] = some ([0x0], 0x4) := by decide
/-- V83: `sltiu x3, x1, -1`. -/
theorem test_step_sltiu_V83 : registersAfter (start 0 0xFFF0B193 [(1, 0x0)]) [3] = some ([0x1], 0x4) := by decide
/-- V85: `sltiu x3, x1, 1`. -/
theorem test_step_sltiu_V85 : registersAfter (start 0 0x0010B193 [(1, 0x5)]) [3] = some ([0x0], 0x4) := by decide
/-- V86: `xori x3, x1, -1`. -/
theorem test_step_xori_V86 :
    registersAfter (start 0 0xFFF0C193 [(1, 0x12345678)]) [3] = some ([0xEDCBA987], 0x4) := by decide
/-- V88: `ori x3, x1, -256`. -/
theorem test_step_ori_V88 : registersAfter (start 0 0xF000E193 [(1, 0xF)]) [3] = some ([0xFFFFFF0F], 0x4) := by decide
/-- V90: `andi x3, x1, -16`. -/
theorem test_step_andi_V90 :
    registersAfter (start 0 0xFF00F193 [(1, 0x12345678)]) [3] = some ([0x12345670], 0x4) := by decide
/-- V92: `slli x3, x1, 31`. -/
theorem test_step_slli_V92 : registersAfter (start 0 0x01F09193 [(1, 0x3)]) [3] = some ([0x80000000], 0x4) := by decide
/-- V95: `slli x3, x1, 4 with insn[31:25] = 0100000`. -/
theorem test_step_slli_V95 :
    registersAfter (start 0 0x40409193 [(1, 0x89ABCDEF)]) [3] = some ([0x9ABCDEF0], 0x4) := by decide
/-- V97: `srli x3, x1, 4`. -/
theorem test_step_srli_V97 :
    registersAfter (start 0 0x0040D193 [(1, 0x89ABCDEF)]) [3] = some ([0x89ABCDE], 0x4) := by decide
/-- V99: `srli x3, x1, 31`. -/
theorem test_step_srli_V99 : registersAfter (start 0 0x01F0D193 [(1, 0x80000000)]) [3] = some ([0x1], 0x4) := by decide
/-- V98: `srai x3, x1, 4`. -/
theorem test_step_srai_V98 :
    registersAfter (start 0 0x4040D193 [(1, 0x89ABCDEF)]) [3] = some ([0xF89ABCDE], 0x4) := by decide
/-- V114: `add x3, x1, x2`. -/
theorem test_step_add_V114 :
    registersAfter (start 0 0x002081B3 [(1, 0xFFFFFFFF), (2, 0x1)]) [3] = some ([0x0], 0x4) := by decide
/-- V122: `add x1, x1, x1`. -/
theorem test_step_add_V122 :
    registersAfter (start 0 0x001080B3 [(1, 0x40000001)]) [1] = some ([0x80000002], 0x4) := by decide
/-- V115: `sub x3, x1, x2`. -/
theorem test_step_sub_V115 :
    registersAfter (start 0 0x402081B3 [(1, 0x0), (2, 0x1)]) [3] = some ([0xFFFFFFFF], 0x4) := by decide
/-- V116: `sub x3, x0, x2`. -/
theorem test_step_sub_V116 :
    registersAfter (start 0 0x402001B3 [(2, 0x80000000)]) [3] = some ([0x80000000], 0x4) := by decide
/-- V105: `sll x3, x1, x2`. -/
theorem test_step_sll_V105 :
    registersAfter (start 0 0x002091B3 [(1, 0x89ABCDEF), (2, 0x24)]) [3] = some ([0x9ABCDEF0], 0x4) := by decide
/-- V120: `sll x3, x1, x2`. -/
theorem test_step_sll_V120 :
    registersAfter (start 0 0x002091B3 [(1, 0x1), (2, 0x20)]) [3] = some ([0x1], 0x4) := by decide
/-- V117: `slt x3, x1, x2`. -/
theorem test_step_slt_V117 :
    registersAfter (start 0 0x0020A1B3 [(1, 0x80000000), (2, 0x7FFFFFFF)]) [3] = some ([0x1], 0x4) := by decide
/-- V118: `sltu x3, x1, x2`. -/
theorem test_step_sltu_V118 :
    registersAfter (start 0 0x0020B1B3 [(1, 0x80000000), (2, 0x7FFFFFFF)]) [3] = some ([0x0], 0x4) := by decide
/-- V119: `sltu x3, x0, x2`. -/
theorem test_step_sltu_V119 : registersAfter (start 0 0x002031B3 [(2, 0x5)]) [3] = some ([0x1], 0x4) := by decide
/-- V108: `xor x3, x1, x2`. -/
theorem test_step_xor_V108 :
    registersAfter (start 0 0x0020C1B3 [(1, 0x89ABCDEF), (2, 0x24)]) [3] = some ([0x89ABCDCB], 0x4) := by decide
/-- V109: `srl x3, x1, x2`. -/
theorem test_step_srl_V109 :
    registersAfter (start 0 0x0020D1B3 [(1, 0x89ABCDEF), (2, 0x24)]) [3] = some ([0x89ABCDE], 0x4) := by decide
/-- V110: `sra x3, x1, x2`. -/
theorem test_step_sra_V110 :
    registersAfter (start 0 0x4020D1B3 [(1, 0x89ABCDEF), (2, 0x24)]) [3] = some ([0xF89ABCDE], 0x4) := by decide
/-- V121: `sra x3, x1, x2`. -/
theorem test_step_sra_V121 :
    registersAfter (start 0 0x4020D1B3 [(1, 0x80000000), (2, 0xFFFFFFFF)]) [3] = some ([0xFFFFFFFF], 0x4) := by decide
/-- V111: `or x3, x1, x2`. -/
theorem test_step_or_V111 :
    registersAfter (start 0 0x0020E1B3 [(1, 0x89ABCDEF), (2, 0x24)]) [3] = some ([0x89ABCDEF], 0x4) := by decide
/-- V112: `and x3, x1, x2`. -/
theorem test_step_and_V112 :
    registersAfter (start 0 0x0020F1B3 [(1, 0x89ABCDEF), (2, 0x24)]) [3] = some ([0x24], 0x4) := by decide
/-- V131: `ecall`. -/
theorem test_step_ecall_V131 : haltAfter (start 0x10 0x00000073 []) = some (.environmentCall, 1, [], 0x10) := by decide
/-- V132: `ebreak`. -/
theorem test_step_ebreak_V132 :
    haltAfter (start 0x10 0x00100073 []) = some (.environmentBreak, 1, [], 0x10) := by decide
/-- V133: `csrrs x5, 0xF14, x6`. -/
theorem test_step_csrrs_V133 :
    registersAfter (start 0 0xF14322F3 [(6, 0xFFFFFFFF)]) [5] = some ([0xF14], 0x4) := by decide
/-- V134: `csrrs x5, 0xF14, x6`. -/
theorem test_step_csrrs_V134 :
    registersAfter (startWith { vectorConfig with csrIndexExt := .sext } 0 0xF14322F3 [(6, 0xFFFFFFFF)] []) [5] =
      some ([0xFFFFFF14], 0x4) := by decide
/-- V96: `same word as V94`. -/
theorem test_step_illegal_V96 :
    haltAfter (startWith { vectorConfig with funct7Strict := true } 0 0x02409193 [(1, 0x89ABCDEF)] []) =
      some (.illegalInstruction, 1, [], 0x0) := by decide
/-- V154: `uninitialised memory`. -/
theorem test_step_illegal_V154 : haltAfter (start 0 0xA5A5A5A5 []) = some (.illegalInstruction, 1, [], 0x0) := by decide
/-- V157: `pc = 0x4E, straddles the end`. -/
theorem test_step_fetch_V157 :
    haltAfter ({ State.created vectorConfig with pc := 0x4E }) =
      some (.illegalInstruction, 1, [⟨.read, 0x0000004E, 4⟩], 0x4E) := by decide
/-- V158: `pc = 0x4E, straddles the end`. -/
theorem test_step_fetch_V158 :
    haltAfter ({ State.created perByteConfig with pc := 0x4E }) =
      some (.illegalInstruction, 1, [⟨.read, 0x00000050, 1⟩, ⟨.read, 0x00000051, 1⟩], 0x4E) := by decide
/-- V160: `addi x1, x0, 5`. -/
theorem test_step_fetch_V160 : registersAfter (start 0x12 0x00500093 []) [1] = some ([0x5], 0x16) := by decide

/-! ### Other steps -/

/-- S1: the image `97 50 34 12` in 16 bytes, one tick from reset. -/
theorem test_scenario_S1 :
    registersAfter { State.created { Config.default with memSize := 16 } with
      mem := Memory.setAll 0xA5 [] (imageCells [0x97, 0x50, 0x34, 0x12]) } [1, 2] =
      some ([0x12345000, 0xF0F0F0F0], 4) := by decide

/-- S2: EBREAK alone; a second tick changes nothing. -/
theorem test_scenario_S2 :
    (nextOf (Host.Core.run Sys2Proof.core 2 (start 0 0x00100073 []))).map (fun t => (t.haltReason, t.icount, t.pc)) =
      some (.environmentBreak, 1, 0) := by decide

/-- S5: MEM_SIZE 20 gives CAPACITY 32, all 0xA5; nothing beyond. -/
theorem test_creation_S5 :
    Config.capacity { Config.default with memSize := 20 } = 32 ∧
    (State.created { Config.default with memSize := 20 }).byteAt 31 = 0xA5 ∧
    (State.created { Config.default with memSize := 20 }).byteAt 32 = 0 := by decide

/-- S6, T4: register reset. -/
theorem test_reset_S6 :
    (start 0x10 0x13 [(5, 7)]).hartReset.readReg 0 = 0 ∧ (start 0x10 0x13 [(5, 7)]).hartReset.readReg 5 = 0xF0F0F0F0 ∧
    (start 0x10 0x13 [(31, 7)]).hartReset.readReg 31 = 0xF0F0F0F0 ∧ (start 0x10 0x13 []).hartReset.pc = 0 := by decide

/-- Writing the fill removes the entry (log 24). -/
theorem test_memory_canonical :
    Memory.set 0xA5 [(1, 2), (3, 4)] 3 0xA5 = [(1, 2)] ∧ Memory.set 0xA5 [(1, 2), (3, 4)] 2 9 = [(1, 2), (2, 9), (3, 4)] ∧
    Memory.wf 0xA5 0x50 [(1, 2), (0x4F, 4)] ∧ ¬ Memory.wf 0xA5 0x50 [(0x50, 4)] ∧ ¬ Memory.wf 0xA5 0x50 [(1, 0xA5)] ∧
    ¬ Memory.wf 0xA5 0x50 [(3, 4), (1, 2)] := by decide

/-- R345 to R347: `load` of three bytes, and of one byte too many. -/
theorem test_load :
    (nextOf ((State.created vectorConfig).loadImage [1, 2, 3])).map (fun t => [0, 2, 3].map t.byteAt) =
      some [1, 3, 0xA5] ∧
    nextOf ((State.created { vectorConfig with memSize := 1 }).loadImage (List.replicate 17 0)) = none := by decide

/-- R281, R284, R285: the marker, and the absolute target of V33's branch at address 8. -/
theorem test_rendering :
    rendering false 0 0xA5A5A5A5 = .marker ∧
    rendering false 8 0xFE208CE3 = .line "BEQ" (.listed [.register 1, .register 2, .target 0]) ∧
    rendering true 0 0x02409193 = .marker := by decide

/-! ### Witnesses: the hypotheses of each statement can be met together -/

/-- Every row of the opcode table has a word: its own value (the hypothesis of `RowDecodes`). -/
theorem test_witness_RowDecodes : ∀ row ∈ opcodeTable, row.value &&& row.mask = row.value := by decide

/-- The two further hypotheses of `RowDecodesAnyFunct7`, for SLLI, SLL, SLT, SLTU, XOR, OR and AND. -/
theorem test_witness_RowDecodesAnyFunct7 :
    (∀ v ∈ [0x1013, 0x1033, 0x2033, 0x3033, 0x4033, 0x6033, 0x7033],
      (BitVec.ofNat 32 v) &&& 0x0000707F#32 = BitVec.ofNat 32 v ∧ funct7Field (BitVec.ofNat 32 v) = 0) ∧
    (∀ v ∈ [0x1013, 0x1033, 0x2033, 0x3033, 0x4033, 0x6033, 0x7033],
      (BitVec.ofNat 32 (0xFE000000 + v)) &&& 0x0000707F#32 = BitVec.ofNat 32 v ∧
        funct7Field (BitVec.ofNat 32 (0xFE000000 + v)) ≠ 0) := by decide

theorem test_witness_CreationFillsMemory : 0xFFFF < State.reset.cfg.capacity ∧ ¬ 0x10000 < State.reset.cfg.capacity := by
  decide

theorem test_witness_CapacityRoundsUpAndStays :
    (16 ∣ 32 ∧ Config.memSize { Config.default with memSize := 20 } ≤ 32) ∧
    Config.Lawful { Config.default with memSize := 2 ^ 32 } ∧ (nextOf (step State.reset)).isSome = true := by decide

theorem test_witness_RegisterReadsLastWrite : (31 : RegIdx) ≠ 0 ∧ (30 : RegIdx) ≠ 31 := by decide

theorem test_witness_ImmediateBitsComeFromTheWord : 0 < 32 ∧ 31 < 32 := by decide

theorem test_witness_DecodeReadsBackEveryEncoding :
    (Instr.jal 31 (-1048576)).WellFormed = true ∧ (Instr.bgeu 31 30 4094).WellFormed = true ∧
    (Instr.sw 31 30 (-2048)).WellFormed = true := by decide

theorem test_witness_EncodeInvertsStrictDecode : decode true 0x41F0D193 = .ok (.srai 3 1 31) := by decide

theorem test_witness_DispatchTreeIsTheOpcodeTable :
    decode false 0xFE20F1B3 = .ok (.and 3 1 2) ∧ decode false 0x0FF0000F = .error .unknownOpcode := by decide

theorem test_witness_StrictFunct7OnlyRemovesWords :
    decode true 0x402081B3 = .ok (.sub 3 1 2) ∧
    decode false 0x0220E1B3 = .ok (.or 3 1 2) ∧ decode true 0x0220E1B3 = .error .unknownFunct7 := by decide

theorem test_witness_UnimplementedSystemWordsAreIllegal :
    0x300312F3#32 &&& 0x0000707F#32 = 0x00001073#32 ∧ 0x300332F3#32 &&& 0x0000707F#32 = 0x00003073#32 ∧
    0x300352F3#32 &&& 0x0000707F#32 = 0x00005073#32 ∧ 0x300362F3#32 &&& 0x0000707F#32 = 0x00006073#32 ∧
    0x300372F3#32 &&& 0x0000707F#32 = 0x00007073#32 ∧ opcodeField 0x0FF0000F = 0b0001111#7 ∧
    (0x00200073#32 &&& 0x0000707F#32 = 0x00000073#32 ∧ 0x00200073#32 ≠ 0x00000073#32 ∧ 0x00200073#32 ≠ 0x00100073#32) ∧
    0x00004073#32 &&& 0x0000707F#32 = 0x00004073#32 ∧
    (opcodeField 0x00009067 = 0b1100111#7 ∧ funct3Field 0x00009067 ≠ 0b000#3) := by decide

/-- V15, and each way its condition fails. -/
theorem test_witness_JalrLinksAndJumps :
    (State.reset.cfg.jalrLinkFirst = true ∧ (1 : RegIdx) = 1 ∧ (1 : RegIdx) ≠ 0) ∧
    ¬ ((1 : RegIdx) = 2) ∧ ¬ ((0 : RegIdx) ≠ 0) ∧
    ¬ (Config.jalrLinkFirst { Config.default with jalrLinkFirst := false } = true) := by decide

/-- The vectors' branch operands: -1 and 1, and equal ones. -/
def branchState : State := start 0x20 0x13 [(1, 0xFFFFFFFF), (2, 1)]

theorem test_witness_EqualityBranchesDecide :
    branchState.readReg 1 = branchState.readReg 1 ∧ branchState.readReg 1 ≠ branchState.readReg 2 := by decide

theorem test_witness_SignedBranchesDecide :
    (branchState.readReg 1).toInt < (branchState.readReg 2).toInt ∧
    (branchState.readReg 2).toInt ≥ (branchState.readReg 1).toInt := by decide

theorem test_witness_UnsignedBranchesDecide :
    (branchState.readReg 2).toNat < (branchState.readReg 1).toNat ∧
    (branchState.readReg 1).toNat ≥ (branchState.readReg 2).toNat := by decide

/-- A state of each policy whose memory holds something, for the accesses: `x0 + imm` is the address. -/
def wholeState : State := startWith vectorConfig 0 0x13 [(1, 0xFFFFFFFF)] loadData

def perByteState : State := startWith perByteConfig 0 0x13 [(1, 0xFFFFFFFF)] loadData

/-- The last byte of memory, and the one after it, at each width; 0x4F, 0x4E, 0x4C are the last in-range addresses. -/
theorem test_witness_ByteLoadsExtend :
    InRange wholeState.cfg (wholeState.readReg 0 + (0x04F#12).signExtend 32) 1 ∧
    ¬ InRange wholeState.cfg (wholeState.readReg 0 + (0x050#12).signExtend 32) 1 ∧
    InRange perByteState.cfg (perByteState.readReg 0 + (0x04F#12).signExtend 32) 1 ∧
    ¬ InRange perByteState.cfg (perByteState.readReg 1 + (0x000#12).signExtend 32) 1 := by decide

theorem test_witness_HalfwordLoadsExtend :
    InRange wholeState.cfg (wholeState.readReg 0 + (0x04E#12).signExtend 32) 2 ∧
    (wholeState.cfg.oorPolicy = .whole ∧
      ¬ InRange wholeState.cfg (wholeState.readReg 0 + (0x04F#12).signExtend 32) 2) := by decide

theorem test_witness_WordLoadReadsLittleEndian :
    InRange wholeState.cfg (wholeState.readReg 0 + (0x04C#12).signExtend 32) 4 ∧
    (wholeState.cfg.oorPolicy = .whole ∧
      ¬ InRange wholeState.cfg (wholeState.readReg 0 + (0x04D#12).signExtend 32) 4) := by decide

theorem test_witness_ByteStoreWritesLowByte :
    Memory.wf wholeState.cfg.memFill wholeState.cfg.capacity wholeState.mem ∧
    InRange wholeState.cfg (wholeState.readReg 0 + (0x04F#12).signExtend 32) 1 ∧
    ¬ InRange wholeState.cfg (wholeState.readReg 0 + (0x050#12).signExtend 32) 1 := by decide

theorem test_witness_HalfwordStoreWritesTwoBytes :
    Memory.wf wholeState.cfg.memFill wholeState.cfg.capacity wholeState.mem ∧
    InRange wholeState.cfg (wholeState.readReg 0 + (0x04E#12).signExtend 32) 2 ∧
    (wholeState.cfg.oorPolicy = .whole ∧
      ¬ InRange wholeState.cfg (wholeState.readReg 0 + (0x04F#12).signExtend 32) 2) := by decide

theorem test_witness_WordStoreWritesFourBytes :
    Memory.wf wholeState.cfg.memFill wholeState.cfg.capacity wholeState.mem ∧
    InRange wholeState.cfg (wholeState.readReg 0 + (0x04C#12).signExtend 32) 4 ∧
    (wholeState.cfg.oorPolicy = .whole ∧
      ¬ InRange wholeState.cfg (wholeState.readReg 0 + (0x04D#12).signExtend 32) 4) := by decide

/-- In range, straddling, and past 0xFFFFFFFF: the statement holds at each. -/
theorem test_witness_PerByteLoadsReadInRangeBytes :
    perByteState.cfg.oorPolicy = .perByte ∧
    InRange perByteState.cfg (perByteState.readReg 0 + (0x04E#12).signExtend 32) 2 ∧
    ¬ InRange perByteState.cfg (perByteState.readReg 0 + (0x04F#12).signExtend 32) 2 ∧
    ¬ InRange perByteState.cfg (perByteState.readReg 1 + (0xFFE#12).signExtend 32) 4 := by decide

theorem test_witness_PerByteStoresKeepInRangeBytes :
    perByteState.cfg.oorPolicy = .perByte ∧
    Memory.wf perByteState.cfg.memFill perByteState.cfg.capacity perByteState.mem := by decide

/-- A memory that fills the address space, its last byte 0xC3, under `per_byte`; x1 holds the last address. -/
def fullState : State :=
  startWith { perByteConfig with memSize := 2 ^ 32 } 0 0x13 [(1, 0xFFFFFFFF), (2, 0x44332211)]
    [(0xFFFFFFFE, 0x7E), (0xFFFFFFFF, 0xC3)]

/-- The last two-byte address that passes the top, the first four-byte one, and a `pc` for each fetch clause. -/
theorem test_witness_PerByteAccessesDoNotWrap :
    (fullState.cfg.oorPolicy = .perByte ∧ fullState.cfg.capacity ≤ 2 ^ 32 ∧
      Memory.wf fullState.cfg.memFill fullState.cfg.capacity fullState.mem) ∧
    2 ^ 32 ≤ (fullState.readReg 1 + (0x000#12).signExtend 32).toNat + 1 ∧
    2 ^ 32 ≤ (fullState.readReg 1 + (0xFFE#12).signExtend 32).toNat + 3 ∧
    2 ^ 32 ≤ (State.pc { fullState with pc := 0xFFFFFFFD }).toNat + 3 ∧
    2 ^ 32 ≤ (State.pc { fullState with pc := 0xFFFFFFFE }).toNat + 2 ∧
    2 ^ 32 ≤ (State.pc { fullState with pc := 0xFFFFFFFF }).toNat + 1 := by decide

/-- D11: under `per_byte`, `lw x3, -1(x1)` and `sh x2, 0(x1)` with x1 = 0xFFFFFFFF neither read nor write address 0. -/
theorem test_past_the_top :
    (nextOf (exec (.lw 3 1 (-1)) fullState)).map (fun t => (t.readReg 3, t.oorLog.length)) = some (0x0000C37E, 2) ∧
    (nextOf (exec (.sh 1 2 0) fullState)).map (fun t => ([0xFFFFFFFF, 0].map t.byteAt, t.oorLog.length)) =
      some ([0x11, 0x13], 1) := by decide

theorem test_witness_CsrrsAndsIndexWithRegister :
    State.reset.cfg.csrIndexExt = .zext ∧
    (State.created { Config.default with csrIndexExt := .sext }).cfg.csrIndexExt = .sext := by decide

theorem test_witness_StepRunsTheDecodedInstruction :
    wholeState.halted = false ∧ InRange wholeState.cfg wholeState.pc 4 ∧
    decode wholeState.cfg.funct7Strict (WordAtPc wholeState) = .ok (.addi 0 0 0) := by decide

/-- The last address a whole word can be fetched from holds the fill, which is no instruction. -/
theorem test_witness_IllegalWordHaltsInPlace :
    let s := { wholeState with pc := 0x4C }
    s.halted = false ∧ InRange s.cfg s.pc 4 ∧
    decode s.cfg.funct7Strict (WordAtPc s) = .error .unknownOpcode := by decide

theorem test_witness_OutOfRangeFetchHalts :
    let s := { wholeState with pc := 0x4D }
    s.halted = false ∧ s.cfg.oorPolicy = .whole ∧ ¬ InRange s.cfg s.pc 4 := by decide

/-- A straddling fetch whose in-range half is that of `addi x0, x0, 0`, and V158's, whose word is illegal. -/
theorem test_witness_PerByteFetchRunsTheComposedWord :
    let s := { startWith perByteConfig 0 0 [] [(0x4E, 0x13), (0x4F, 0x00)] with pc := 0x4E }
    let q := { State.created perByteConfig with pc := 0x4E }
    (s.halted = false ∧ s.cfg.oorPolicy = .perByte ∧ ¬ InRange s.cfg s.pc 4 ∧
      decode s.cfg.funct7Strict (WordAtPc s) = .ok (.addi 0 0 0)) ∧
    (q.halted = false ∧ q.cfg.oorPolicy = .perByte ∧
      decode q.cfg.funct7Strict (WordAtPc q) = .error .unknownOpcode) := by decide

theorem test_witness_HaltedHartStaysAsItIs : (wholeState.raise .environmentCall).halted = true := by decide

/-- One state for each cause, the third fetching out of range, one that runs on, and one that straddles under `per_byte`. -/
theorem test_witness_OnlyThreeCausesHalt :
    (∃ t, (start 0x10 0x73 []).halted = false ∧ step (start 0x10 0x73 []) = .next t ∧ t.halted = true) ∧
    (∃ t, (start 0x10 0x100073 []).halted = false ∧ step (start 0x10 0x100073 []) = .next t ∧ t.halted = true) ∧
    (∃ t, (start 0x4D 0x13 []).halted = false ∧ step (start 0x4D 0x13 []) = .next t ∧ t.halted = true ∧
      (start 0x4D 0x13 []).cfg.oorPolicy = .whole ∧ ¬ InRange (start 0x4D 0x13 []).cfg (start 0x4D 0x13 []).pc 4) ∧
    (∃ t, wholeState.halted = false ∧ step wholeState = .next t ∧ t.halted = false ∧
      InRange wholeState.cfg wholeState.pc 4) ∧
    (∃ t, perByteState.cfg.oorPolicy = .perByte ∧ State.halted { perByteState with pc := 0x4E } = false ∧
      step { perByteState with pc := 0x4E } = .next t ∧ t.halted = true) :=
  ⟨⟨_, rfl, rfl, rfl⟩, ⟨_, rfl, rfl, rfl⟩, ⟨_, rfl, rfl, rfl, rfl, by decide⟩, ⟨_, rfl, rfl, rfl, by decide⟩,
    ⟨_, rfl, rfl, rfl, rfl⟩⟩

theorem test_witness_StepCountsOneAndAppendsReports :
    wholeState.halted = false ∧ (nextOf (step wholeState)).isSome = true ∧ wholeState.cfg.oorPolicy = .whole := by decide

theorem test_witness_invariant : wholeState.Inv ∧ (wholeState.raise .environmentCall).Inv ∧ perByteState.Inv :=
  ⟨⟨by decide, by decide, by decide⟩, ⟨by decide, by decide, by decide⟩, ⟨by decide, by decide, by decide⟩⟩

theorem test_witness_EveryStepKeepsTheInvariant : ∃ t, wholeState.Inv ∧ step wholeState = .next t :=
  ⟨_, test_witness_invariant.1, rfl⟩

/-- An even, misaligned `pc` (V160). -/
theorem test_witness_PcStaysEven :
    (start 0x12 0x00500093 []).pc.getLsbD 0 = false ∧ (nextOf (step (start 0x12 0x00500093 []))).isSome = true := by
  decide

/-- Two states that differ in the counter and the log. -/
theorem test_witness_CounterAndReportsAreInvisible :
    SameVisible wholeState { wholeState with icount := 9, oorLog := [⟨.read, 0x50, 1⟩] } :=
  ⟨rfl, rfl, rfl, rfl, rfl, rfl⟩

theorem test_witness_CanonicalMemoriesThatReadAlikeAreEqual :
    Memory.wf 0xA5 0x50 [(0, 1), (0x4F, 0)] ∧ ∀ a : Nat,
      Memory.get 0xA5 [(0, 1), (0x4F, 0)] a = Memory.get 0xA5 [(0, 1), (0x4F, 0)] a :=
  ⟨by decide, fun _ => rfl⟩

theorem test_witness_StoredWordLoadsBackUnchanged :
    wholeState.Inv ∧ InRange wholeState.cfg (wholeState.readReg 0 + (0x041#12).signExtend 32) 4 :=
  ⟨test_witness_invariant.1, by decide⟩

theorem test_witness_StoreIsSeenByTheNextFetch :
    wholeState.Inv ∧ InRange wholeState.cfg (wholeState.pc + 4) 4 ∧
    wholeState.readReg 0 + (0x004#12).signExtend 32 = wholeState.pc + 4 :=
  ⟨test_witness_invariant.1, by decide, by decide⟩

/-- An image that fills the memory, and one a byte longer. -/
theorem test_witness_LoadCopiesTheImage :
    let s := State.created { Config.default with memSize := 16 }
    Memory.wf s.cfg.memFill s.cfg.capacity s.mem ∧ (List.replicate 16 (0 : Byte)).length ≤ s.cfg.capacity ∧
    s.cfg.capacity < (List.replicate 17 (0 : Byte)).length := by decide

theorem test_witness_HostAccessorsReadTheState :
    State.reset.cfg.Lawful ∧ HaltReason.illegalInstruction ≠ .none ∧ HaltReason.environmentCall ≠ .none ∧
    HaltReason.illegalInstruction ≠ .environmentCall := by decide

theorem test_witness_RenderingAgreesWithDecoding :
    decode false 0 = .error .unknownOpcode ∧ decode false 0xFFDFF06F = .ok (.jal 0 (-4)) ∧ decode false 0x008080E7 = .ok (.jalr 1 1 8) ∧
    decode false 0xFE208CE3 = .ok (.beq 1 2 (-8)) ∧ decode false 0x00209863 = .ok (.bne 1 2 16) ∧
    decode false 0x0020C863 = .ok (.blt 1 2 16) ∧ decode false 0x0020D863 = .ok (.bge 1 2 16) ∧
    decode false 0x0020E863 = .ok (.bltu 1 2 16) ∧ decode false 0x0020F863 = .ok (.bgeu 1 2 16) := by decide

/-- Halted; running in range; running and straddling under either policy. -/
theorem test_witness_TraceHasNoEffect :
    (wholeState.raise .environmentCall).halted = true ∧
    (wholeState.halted = false ∧ InRange wholeState.cfg wholeState.pc 4) ∧
    (State.halted { perByteState with pc := 0x4D } = false ∧ perByteState.cfg.oorPolicy = .perByte) ∧
    (State.halted { wholeState with pc := 0x4D } = false ∧ wholeState.cfg.oorPolicy = .whole ∧
      ¬ InRange wholeState.cfg 0x4D 4) := by decide

/-- From reset, from a halted state, and from a `pc` outside memory. -/
theorem test_witness_PlacedWordIsTheNextToRun :
    wholeState.Inv ∧ State.Inv { wholeState with pc := 0x50 } ∧ (wholeState.raise .environmentCall).Inv ∧
    (32 ≤ 32 ∧ 0 ≤ 32) :=
  ⟨test_witness_invariant.1, ⟨by decide, by decide, by decide⟩, test_witness_invariant.2.1, by decide⟩

/-- The word placed is the word run, from reset. -/
theorem test_withFetchWord :
    registersAfter (State.reset.withFetchWord 32 0x123450B7) [1] = some ([0x12345000], 4) := by decide

end Sys2Proof.Tests
end

namespace Sys2Proof.Machine

/-! ### Registers and fresh memory (10_state.md R22, R23, R36) -/

/-- Settles O5: each clause is one rule about `writeReg` and `readReg`. -/
theorem registerReadsLastWrite : Obligations.RegisterReadsLastWrite := by
  intro s i j v
  refine ⟨s.readReg_zero, ?_, fun hi => s.writeReg_readReg_self hi v, fun hj => s.writeReg_readReg_other hj v⟩
  rintro rfl
  exact s.writeReg_zero v

/-- A fresh memory lists no cell, so every address in range reads the fill. -/
theorem State.created_byteAt (c : Config) (a : Nat) :
    (State.created c).byteAt a = if a < c.capacity then c.memFill else 0 := by
  split
  · next h => exact (State.byteAt_of_lt h).trans (Memory.get_of_notMem _ _ _ (by simp))
  · next h => exact State.byteAt_of_ge (Nat.not_lt.mp h)

/-- Settles O2: `State.reset` is the fresh hart of the default parameters, and the host's reset keeps `mem`. -/
theorem creationFillsMemory : Obligations.CreationFillsMemory :=
  ⟨State.created_byteAt, fun a ha => (State.created_byteAt Config.default a).trans (if_pos ha), State.hartReset_mem⟩

end Sys2Proof.Machine

namespace Sys2Proof.Machine

/-! ### The immediates bit by bit (30_encoding.md R97 to R101) -/

/-- The idea of R97 to R99 and R101: from the field's top bit upwards, every bit of an extended field is that top bit. -/
theorem signExtend_getLsbD_min {n : Nat} (x : BitVec n) {i : Nat} (hi : i < 32) :
    (x.signExtend 32).getLsbD i = x.getLsbD (min i (n - 1)) := by
  rw [BitVec.getLsbD_signExtend, decide_eq_true hi, Bool.true_and, BitVec.msb_eq_getLsbD_last]
  split
  · next h => rw [Nat.min_eq_left (by omega)]
  · next h => rw [Nat.min_eq_right (by omega)]

theorem immI_getLsbD (w : Word) {i : Nat} (hi : i < 32) :
    (immI w).getLsbD i = if i < 11 then w.getLsbD (i + 20) else w.getLsbD 31 := by
  have hfield : (immI w).getLsbD i = w.getLsbD (20 + min i 11) := by
    rw [immI, signExtend_getLsbD_min _ hi, bitsI, BitVec.getLsbD_extractLsb', decide_eq_true (by omega), Bool.true_and]
  rw [hfield]
  split
  · next h => rw [Nat.min_eq_left (by omega), Nat.add_comm]
  · next h => rw [Nat.min_eq_right (by omega)]

theorem immS_getLsbD (w : Word) {i : Nat} (hi : i < 32) :
    (immS w).getLsbD i =
      if i < 5 then w.getLsbD (i + 7) else if i < 11 then w.getLsbD (i + 20) else w.getLsbD 31 := by
  rw [immS, signExtend_getLsbD_min _ hi, bitsS_getLsbD]
  rcases Nat.lt_or_ge i 11 with h | h
  · rw [Nat.min_eq_left (by omega), decide_eq_true (by omega), Bool.true_and, if_pos h]
    split
    · rw [Nat.add_comm]
    · rw [show 25 + (i - 5) = i + 20 by omega]
  · simp [Nat.min_eq_right h, show ¬ i < 5 by omega, show ¬ i < 11 by omega]

theorem immB_getLsbD (w : Word) {i : Nat} (hi : i < 32) :
    (immB w).getLsbD i =
      if i = 0 then false else if i < 5 then w.getLsbD (i + 7) else if i < 11 then w.getLsbD (i + 20)
        else if i = 11 then w.getLsbD 7 else w.getLsbD 31 := by
  rw [immB, signExtend_getLsbD_min _ hi, bitsB_getLsbD w (by omega)]
  rcases Nat.lt_or_ge i 12 with h | h
  · simp only [Nat.min_eq_left (show i ≤ 13 - 1 by omega), Nat.lt_one_iff]
  · simp [Nat.min_eq_right h, show ¬ i = 0 by omega, show ¬ i < 5 by omega, show ¬ i < 11 by omega,
      show ¬ i = 11 by omega]

theorem immU_getLsbD (w : Word) {i : Nat} (hi : i < 32) :
    (immU w).getLsbD i = if i < 12 then false else w.getLsbD i := by
  change BitVec.getLsbD (w := 20 + 12) (w.extractLsb' 12 20 ++ 0#12) i = _
  rw [BitVec.getLsbD_append]
  split
  · exact BitVec.getLsbD_zero
  · rw [BitVec.getLsbD_extractLsb', decide_eq_true (by omega), Bool.true_and, Nat.add_sub_cancel' (by omega)]

theorem immJ_getLsbD (w : Word) {i : Nat} (hi : i < 32) :
    (immJ w).getLsbD i =
      if i = 0 then false else if i < 11 then w.getLsbD (i + 20) else if i = 11 then w.getLsbD 20
        else if i < 20 then w.getLsbD i else w.getLsbD 31 := by
  rw [immJ, signExtend_getLsbD_min _ hi, bitsJ_getLsbD w (by omega)]
  rcases Nat.lt_or_ge i 20 with h | h
  · simp only [Nat.min_eq_left (show i ≤ 21 - 1 by omega), Nat.lt_one_iff]
  · simp [Nat.min_eq_right h, show ¬ i = 0 by omega, show ¬ i < 11 by omega, show ¬ i = 11 by omega,
      show ¬ i < 20 by omega]

/-- Settles O6: one lemma for each immediate. -/
theorem immediateBitsComeFromTheWord : Obligations.ImmediateBitsComeFromTheWord :=
  fun w _ hi => ⟨immI_getLsbD w hi, immS_getLsbD w hi, immB_getLsbD w hi, immU_getLsbD w hi, immJ_getLsbD w hi⟩

end Sys2Proof.Machine

namespace Sys2Proof.Machine

/-! ### A step in range runs the word at `pc` (40_fetch_dispatch.md R130, R131, R133) -/

/-- A word that decodes is executed as its instruction, from any state. -/
theorem execute_of_decode_ok {insn : Word} {i : Instr} {s : State} (h : decode s.cfg.funct7Strict insn = .ok i) :
    execute insn s = exec i s := by
  unfold execute
  rw [h]

/-- R131's order of the bytes is the little-endian composition of a word read. -/
theorem composeBytes_word_eq_wordAtPc (s : State) : composeBytes s.byteAt s.pc.toNat .word = WordAtPc s := rfl

theorem step_eq_execute_wordAtPc {s : State} (h : s.halted = false) (hr : InRange s.cfg s.pc 4) :
    step s = execute (WordAtPc s) s.countInstruction := by
  rw [step_of_inRange h hr, composeBytes_word_eq_wordAtPc]

/-- Settles O40: the step executes the word at `pc` after counting, and counting leaves the decoder's parameter alone. -/
theorem stepRunsTheDecodedInstruction : Obligations.StepRunsTheDecodedInstruction := by
  intro s i hrun hrange hdecode
  have hcounted : decode s.countInstruction.cfg.funct7Strict (WordAtPc s) = .ok i := by
    rwa [State.countInstruction_cfg]
  calc step s = execute (WordAtPc s) s.countInstruction := step_eq_execute_wordAtPc hrun hrange
    _ = exec i s.countInstruction := execute_of_decode_ok hcounted

end Sys2Proof.Machine

namespace Sys2Proof.Machine

/-! ### Upper immediates (41_upper_immediate.md R150, R151) -/

theorem decode_of_opcode_lui (strict : Bool) {w : Word} (h : opcodeField w = 0b0110111#7) :
    decode strict w = .ok (.lui (rdField w) (bitsU w)) := by
  simp [decode, h]

theorem decode_of_opcode_auipc (strict : Bool) {w : Word} (h : opcodeField w = 0b0010111#7) :
    decode strict w = .ok (.auipc (rdField w) (bitsU w)) := by
  simp [decode, h]

theorem exec_lui (rd : RegIdx) (imm20 : BitVec 20) (s : State) :
    exec (.lui rd imm20) s = .next (s.writeAndAdvance rd (imm20 ++ 0#12)) := rfl

theorem exec_auipc (rd : RegIdx) (imm20 : BitVec 20) (s : State) :
    exec (.auipc rd imm20) s = .next (s.writeAndAdvance rd (s.pc + (imm20 ++ 0#12))) := rfl

/-- Settles O13: the row's mask fixes the opcode, and the meaning is one register write that advances `pc`. -/
theorem luiWritesUpperImmediate : Obligations.LuiWritesUpperImmediate :=
  ⟨fun strict _ h => decode_of_opcode_lui strict (opcodeField_of_masked h (by decide)),
    fun rd imm20 s => ⟨_, exec_lui rd imm20 s, writesRegister_writeAndAdvance s rd (imm20 ++ 0#12)⟩⟩

/-- Settles O14: as LUI, with the written value taken from the instruction's own `pc`. -/
theorem auipcAddsUpperImmediateToPc : Obligations.AuipcAddsUpperImmediateToPc :=
  ⟨fun strict _ h => decode_of_opcode_auipc strict (opcodeField_of_masked h (by decide)),
    fun rd imm20 s => ⟨_, exec_auipc rd imm20 s, writesRegister_writeAndAdvance s rd (s.pc + (imm20 ++ 0#12))⟩⟩

end Sys2Proof.Machine

namespace Sys2Proof.Machine

/-! ### JAL (42_jumps.md R161) -/

theorem decode_of_opcode_jal (strict : Bool) {w : Word} (h : opcodeField w = 0b1101111#7) :
    decode strict w = .ok (.jal (rdField w) (bitsJ w)) := by
  simp [decode, h]

/-- Link and target are both computed from the state before the write, that is from the JAL's own address. -/
theorem exec_jal (rd : RegIdx) (offset : BitVec 21) (s : State) :
    exec (.jal rd offset) s = .next ((s.writeReg rd (s.pc + 4)).setPc (s.pc + offset.signExtend 32)) := rfl

/-- Settles O15: the row's mask fixes the opcode, and the meaning is one register write and one move of `pc`. -/
theorem jalLinksAndJumps : Obligations.JalLinksAndJumps :=
  ⟨fun strict _ h => decode_of_opcode_jal strict (opcodeField_of_masked h (by decide)),
    fun rd offset s => ⟨_, exec_jal rd offset s, writesRegister_setPc s rd (s.pc + 4) (s.pc + offset.signExtend 32)⟩⟩

end Sys2Proof.Machine

namespace Sys2Proof.Machine

/-! ### The conditional branches (43_branches.md R170 to R176) -/

theorem decode_of_opcode_branch (strict : Bool) {w : Word} (h : opcodeField w = 0b1100011#7) :
    decode strict w = decodeBranch w := by
  simp [decode, h]

theorem decodeBranch_of_funct3_beq {w : Word} (h : funct3Field w = 0b000#3) :
    decodeBranch w = .ok (.beq (rs1Field w) (rs2Field w) (bitsB w)) := by
  simp [decodeBranch, h]

theorem decodeBranch_of_funct3_bne {w : Word} (h : funct3Field w = 0b001#3) :
    decodeBranch w = .ok (.bne (rs1Field w) (rs2Field w) (bitsB w)) := by
  simp [decodeBranch, h]

theorem decodeBranch_of_funct3_blt {w : Word} (h : funct3Field w = 0b100#3) :
    decodeBranch w = .ok (.blt (rs1Field w) (rs2Field w) (bitsB w)) := by
  simp [decodeBranch, h]

theorem decodeBranch_of_funct3_bge {w : Word} (h : funct3Field w = 0b101#3) :
    decodeBranch w = .ok (.bge (rs1Field w) (rs2Field w) (bitsB w)) := by
  simp [decodeBranch, h]

theorem decodeBranch_of_funct3_bltu {w : Word} (h : funct3Field w = 0b110#3) :
    decodeBranch w = .ok (.bltu (rs1Field w) (rs2Field w) (bitsB w)) := by
  simp [decodeBranch, h]

theorem decodeBranch_of_funct3_bgeu {w : Word} (h : funct3Field w = 0b111#3) :
    decodeBranch w = .ok (.bgeu (rs1Field w) (rs2Field w) (bitsB w)) := by
  simp [decodeBranch, h]

/-- A branch's row fixes opcode and funct3, so what the class decodes under that funct3 is what the row decodes to. -/
theorem rowDecodes_branch {value : Word} {instr : Word → Instr} (hop : opcodeField value = 0b1100011#7)
    (hclass : ∀ {w : Word}, funct3Field w = funct3Field value → decodeBranch w = .ok (instr w)) :
    RowDecodes value 0x0000707F instr := fun strict w h =>
  calc decode strict w = decodeBranch w :=
        decode_of_opcode_branch strict ((opcodeField_of_masked h (by decide)).trans hop)
    _ = .ok (instr w) := hclass (funct3Field_of_masked h (by decide))

theorem exec_beq (rs1 rs2 : RegIdx) (offset : BitVec 13) (s : State) :
    exec (.beq rs1 rs2 offset) s = .next (s.branchIf (fun a b => a == b) rs1 rs2 offset) := rfl

theorem exec_bne (rs1 rs2 : RegIdx) (offset : BitVec 13) (s : State) :
    exec (.bne rs1 rs2 offset) s = .next (s.branchIf (fun a b => a != b) rs1 rs2 offset) := rfl

theorem exec_blt (rs1 rs2 : RegIdx) (offset : BitVec 13) (s : State) :
    exec (.blt rs1 rs2 offset) s = .next (s.branchIf lessSigned rs1 rs2 offset) := rfl

theorem exec_bge (rs1 rs2 : RegIdx) (offset : BitVec 13) (s : State) :
    exec (.bge rs1 rs2 offset) s = .next (s.branchIf (fun a b => !lessSigned a b) rs1 rs2 offset) := rfl

theorem exec_bltu (rs1 rs2 : RegIdx) (offset : BitVec 13) (s : State) :
    exec (.bltu rs1 rs2 offset) s = .next (s.branchIf lessUnsigned rs1 rs2 offset) := rfl

theorem exec_bgeu (rs1 rs2 : RegIdx) (offset : BitVec 13) (s : State) :
    exec (.bgeu rs1 rs2 offset) s = .next (s.branchIf (fun a b => !lessUnsigned a b) rs1 rs2 offset) := rfl

theorem lessSigned_eq_true_iff {a b : Word} : lessSigned a b = true ↔ a.toInt < b.toInt := decide_eq_true_iff

theorem lessUnsigned_eq_true_iff {a b : Word} : lessUnsigned a b = true ↔ a.toNat < b.toNat := decide_eq_true_iff

theorem not_lessSigned_eq_true_iff {a b : Word} : (!lessSigned a b) = true ↔ a.toInt ≥ b.toInt := by
  rw [Bool.not_eq_true', ← Bool.not_eq_true, lessSigned_eq_true_iff, Int.not_lt]

theorem not_lessUnsigned_eq_true_iff {a b : Word} : (!lessUnsigned a b) = true ↔ a.toNat ≥ b.toNat := by
  rw [Bool.not_eq_true', ← Bool.not_eq_true, lessUnsigned_eq_true_iff, Nat.not_lt]

theorem State.branchIf_of_taken {s : State} {c : Word → Word → Bool} {rs1 rs2 : RegIdx}
    (h : c (s.readReg rs1) (s.readReg rs2) = true) (offset : BitVec 13) :
    s.branchIf c rs1 rs2 offset = s.setPc (s.pc + offset.signExtend 32) := if_pos h

theorem State.branchIf_of_not_taken {s : State} {c : Word → Word → Bool} {rs1 rs2 : RegIdx}
    (h : ¬ c (s.readReg rs1) (s.readReg rs2) = true) (offset : BitVec 13) :
    s.branchIf c rs1 rs2 offset = s.advancePc := if_neg h

/-- R170: the shared meaning goes where the condition it evaluates says. -/
theorem branchTarget_branchIf {s : State} {c : Word → Word → Bool} {rs1 rs2 : RegIdx} {taken : Prop}
    (hc : c (s.readReg rs1) (s.readReg rs2) = true ↔ taken) (offset : BitVec 13) :
    BranchTarget s offset taken (s.branchIf c rs1 rs2 offset).pc := by
  constructor
  · intro h
    rw [State.branchIf_of_taken (hc.mpr h), State.setPc_pc]
  · intro h
    rw [State.branchIf_of_not_taken (mt hc.mp h), State.advancePc_pc]

/-- An instruction that means `branchIf` moves only `pc`, and moves it as R170 says. -/
theorem branches_of_exec_eq_branchIf {i : Instr} {s : State} {c : Word → Word → Bool} {rs1 rs2 : RegIdx}
    {offset : BitVec 13} {taken : Prop} (hexec : exec i s = .next (s.branchIf c rs1 rs2 offset))
    (hc : c (s.readReg rs1) (s.readReg rs2) = true ↔ taken) :
    ∃ t, exec i s = .next t ∧ OnlyMovesPc t.pc s t ∧ BranchTarget s offset taken t.pc :=
  ⟨_, hexec, onlyMovesPc_branchIf s c rs1 rs2 offset, branchTarget_branchIf hc offset⟩

/-- Settles O17: both mean `branchIf`, with `==` and `!=` on the two words for the condition. -/
theorem equalityBranchesDecide : Obligations.EqualityBranchesDecide :=
  ⟨rowDecodes_branch (by decide) decodeBranch_of_funct3_beq, rowDecodes_branch (by decide) decodeBranch_of_funct3_bne,
    fun rs1 rs2 offset s =>
      ⟨branches_of_exec_eq_branchIf (exec_beq rs1 rs2 offset s) beq_iff_eq,
        branches_of_exec_eq_branchIf (exec_bne rs1 rs2 offset s) bne_iff_ne⟩⟩

/-- Settles O18: both mean `branchIf`, with `lessSigned` and its negation for the condition. -/
theorem signedBranchesDecide : Obligations.SignedBranchesDecide :=
  ⟨rowDecodes_branch (by decide) decodeBranch_of_funct3_blt, rowDecodes_branch (by decide) decodeBranch_of_funct3_bge,
    fun rs1 rs2 offset s =>
      ⟨branches_of_exec_eq_branchIf (exec_blt rs1 rs2 offset s) lessSigned_eq_true_iff,
        branches_of_exec_eq_branchIf (exec_bge rs1 rs2 offset s) not_lessSigned_eq_true_iff⟩⟩

/-- Settles O19: both mean `branchIf`, with `lessUnsigned` and its negation for the condition. -/
theorem unsignedBranchesDecide : Obligations.UnsignedBranchesDecide :=
  ⟨rowDecodes_branch (by decide) decodeBranch_of_funct3_bltu,
    rowDecodes_branch (by decide) decodeBranch_of_funct3_bgeu,
    fun rs1 rs2 offset s =>
      ⟨branches_of_exec_eq_branchIf (exec_bltu rs1 rs2 offset s) lessUnsigned_eq_true_iff,
        branches_of_exec_eq_branchIf (exec_bgeu rs1 rs2 offset s) not_lessUnsigned_eq_true_iff⟩⟩

end Sys2Proof.Machine

namespace Sys2Proof.Machine

/-! ### The loads (44_loads.md R190 to R195) -/

/-- A row whose mask is opcode and funct3 decodes to what the tree answers for every word with those two fields. -/
theorem rowDecodes_of_opcode_funct3 {value : Word} {instr : Word → Instr}
    (h : ∀ (strict : Bool) {w : Word}, opcodeField w = opcodeField value → funct3Field w = funct3Field value →
      decode strict w = .ok (instr w)) :
    RowDecodes value 0x0000707F instr := fun strict _ hw =>
  h strict (opcodeField_of_masked hw (by decide)) (funct3Field_of_masked hw (by decide))

theorem decode_of_opcode_load (strict : Bool) {w : Word} (h : opcodeField w = 0b0000011#7) :
    decode strict w = decodeLoad w := by
  simp [decode, h]

theorem decodeLoad_of_funct3_lb {w : Word} (h : funct3Field w = 0b000#3) :
    decodeLoad w = .ok (.lb (rdField w) (rs1Field w) (bitsI w)) := by
  simp [decodeLoad, h]

theorem decodeLoad_of_funct3_lh {w : Word} (h : funct3Field w = 0b001#3) :
    decodeLoad w = .ok (.lh (rdField w) (rs1Field w) (bitsI w)) := by
  simp [decodeLoad, h]

theorem decodeLoad_of_funct3_lw {w : Word} (h : funct3Field w = 0b010#3) :
    decodeLoad w = .ok (.lw (rdField w) (rs1Field w) (bitsI w)) := by
  simp [decodeLoad, h]

theorem decodeLoad_of_funct3_lbu {w : Word} (h : funct3Field w = 0b100#3) :
    decodeLoad w = .ok (.lbu (rdField w) (rs1Field w) (bitsI w)) := by
  simp [decodeLoad, h]

theorem decodeLoad_of_funct3_lhu {w : Word} (h : funct3Field w = 0b101#3) :
    decodeLoad w = .ok (.lhu (rdField w) (rs1Field w) (bitsI w)) := by
  simp [decodeLoad, h]

/-- A load's row fixes opcode and funct3, so what the class decodes under that funct3 is what the row decodes to. -/
theorem rowDecodes_load {value : Word} {instr : Word → Instr} (hop : opcodeField value = 0b0000011#7)
    (hclass : ∀ {w : Word}, funct3Field w = funct3Field value → decodeLoad w = .ok (instr w)) :
    RowDecodes value 0x0000707F instr :=
  rowDecodes_of_opcode_funct3 fun strict _ hopcode hfunct3 =>
    (decode_of_opcode_load strict (hopcode.trans hop)).trans (hclass hfunct3)

theorem exec_lb (rd rs1 : RegIdx) (imm : BitVec 12) (s : State) :
    exec (.lb rd rs1 imm) s = s.loadWith .byte sext8 rd rs1 imm := rfl

theorem exec_lh (rd rs1 : RegIdx) (imm : BitVec 12) (s : State) :
    exec (.lh rd rs1 imm) s = s.loadWith .half sext16 rd rs1 imm := rfl

theorem exec_lw (rd rs1 : RegIdx) (imm : BitVec 12) (s : State) :
    exec (.lw rd rs1 imm) s = s.loadWith .word id rd rs1 imm := rfl

theorem exec_lbu (rd rs1 : RegIdx) (imm : BitVec 12) (s : State) :
    exec (.lbu rd rs1 imm) s = s.loadWith .byte id rd rs1 imm := rfl

theorem exec_lhu (rd rs1 : RegIdx) (imm : BitVec 12) (s : State) :
    exec (.lhu rd rs1 imm) s = s.loadWith .half id rd rs1 imm := rfl

/-! ### What the extensions make of a composed value (20_memory.md R59) -/

/-- A value no wider than a word is read back from the low bits of its zero extension. -/
theorem extractLsb'_zero_zeroExtend {n : Nat} (x : BitVec n) (hn : n ≤ 32) : (x.zeroExtend 32).extractLsb' 0 n = x :=
  (BitVec.extractLsb'_setWidth_of_le (by omega)).trans BitVec.extractLsb'_eq_self

theorem sext8_zeroExtend (b : Byte) : sext8 (b.zeroExtend 32) = b.signExtend 32 := by
  rw [sext8, extractLsb'_zero_zeroExtend b (by decide)]

theorem sext16_zeroExtend (h : BitVec 16) : sext16 (h.zeroExtend 32) = h.signExtend 32 := by
  rw [sext16, extractLsb'_zero_zeroExtend h (by decide)]

theorem sext8_zero : sext8 0 = 0 := by decide

theorem sext16_zero : sext16 0 = 0 := by decide

/-! ### The whole effect of a load, in range and out of range (R190) -/

/-- An instruction that means `loadWith` writes the extended value of the bytes it touches, and reports nothing. -/
theorem writesRegister_of_exec_eq_loadWith {i : Instr} {s : State} {w : Width} {extend : Word → Word}
    {rd rs1 : RegIdx} {imm : BitVec 12} {v : Word} (hexec : exec i s = s.loadWith w extend rd rs1 imm)
    (hr : InRange s.cfg (s.effectiveAddress rs1 imm) w.bytes)
    (hv : extend (composeBytes s.byteAt (s.effectiveAddress rs1 imm).toNat w) = v) :
    ∃ t, exec i s = .next t ∧ WritesRegister rd v (s.pc + 4) s t := by
  subst hv
  exact ⟨_, hexec.trans (State.loadWith_inRange extend rd hr), writesRegister_writeAndAdvance s rd _⟩

/-- Zero written after one report is the whole effect of a load out of range (R57). -/
theorem readsZero_report_writeAndAdvance (s : State) (rd : RegIdx) (a : Word) (n : Nat) :
    ReadsZero rd a n s ((s.report [⟨.read, a, n⟩]).writeAndAdvance rd 0) :=
  writesRegister_writeAndAdvance (s.report [⟨.read, a, n⟩]) rd 0

/-- An instruction that means `loadWith` reads zero, when the access makes one report and answers zero. -/
theorem readsZero_of_exec_eq_loadWith {i : Instr} {s : State} {w : Width} {extend : Word → Word}
    {rd rs1 : RegIdx} {imm : BitVec 12} (hexec : exec i s = s.loadWith w extend rd rs1 imm) (hextend : extend 0 = 0)
    (hvalue : s.readValue (s.effectiveAddress rs1 imm) w = 0)
    (hreport : accessReports s.cfg .read (s.effectiveAddress rs1 imm) w.bytes =
      [⟨.read, s.effectiveAddress rs1 imm, w.bytes⟩]) :
    ∃ t, exec i s = .next t ∧ ReadsZero rd (s.effectiveAddress rs1 imm) w.bytes s t := by
  refine ⟨_, ?_, readsZero_report_writeAndAdvance s rd _ _⟩
  rw [hexec, State.loadWith_eq, hreport, hvalue, hextend]

/-- Under `OOR_POLICY = whole` an access out of range is one report and zero, at every width. -/
theorem readsZero_of_exec_eq_loadWith_whole {i : Instr} {s : State} {w : Width} {extend : Word → Word}
    {rd rs1 : RegIdx} {imm : BitVec 12} (hexec : exec i s = s.loadWith w extend rd rs1 imm) (hextend : extend 0 = 0)
    (hp : s.cfg.oorPolicy = .whole) (hr : ¬ InRange s.cfg (s.effectiveAddress rs1 imm) w.bytes) :
    ∃ t, exec i s = .next t ∧ ReadsZero rd (s.effectiveAddress rs1 imm) w.bytes s t :=
  readsZero_of_exec_eq_loadWith hexec hextend (State.readValue_outOfRange hp hr) (accessReports_whole .read hp hr)

theorem State.readValue_byte_outOfRange {s : State} {a : Word} (h : ¬ InRange s.cfg a 1) :
    s.readValue a .byte = 0 := by
  rw [State.readValue_byte, State.byteAt_of_ge (by simpa [InRange] using h)]
  rfl

/-- A one-byte access out of range is one report and zero under either policy (R57, R58). -/
theorem readsZero_of_exec_eq_loadWith_byte {i : Instr} {s : State} {extend : Word → Word} {rd rs1 : RegIdx}
    {imm : BitVec 12} (hexec : exec i s = s.loadWith .byte extend rd rs1 imm) (hextend : extend 0 = 0)
    (hr : ¬ InRange s.cfg (s.effectiveAddress rs1 imm) 1) :
    ∃ t, exec i s = .next t ∧ ReadsZero rd (s.effectiveAddress rs1 imm) 1 s t :=
  readsZero_of_exec_eq_loadWith hexec hextend (State.readValue_byte_outOfRange hr) (accessReports_byte .read hr)

/-- Settles O20: both mean `loadWith` of one byte; out of range a byte is the same under either policy. -/
theorem byteLoadsExtend : Obligations.ByteLoadsExtend :=
  ⟨rowDecodes_load (by decide) decodeLoad_of_funct3_lb, rowDecodes_load (by decide) decodeLoad_of_funct3_lbu,
    fun rd rs1 imm s =>
      ⟨fun hr =>
        ⟨writesRegister_of_exec_eq_loadWith (exec_lb rd rs1 imm s) hr (sext8_zeroExtend _),
          writesRegister_of_exec_eq_loadWith (exec_lbu rd rs1 imm s) hr rfl⟩,
      fun hr =>
        ⟨readsZero_of_exec_eq_loadWith_byte (exec_lb rd rs1 imm s) sext8_zero hr,
          readsZero_of_exec_eq_loadWith_byte (exec_lbu rd rs1 imm s) rfl hr⟩⟩⟩

/-- Settles O21: both mean `loadWith` of a halfword, sign-extended from its 16 bits or left as it is composed. -/
theorem halfwordLoadsExtend : Obligations.HalfwordLoadsExtend :=
  ⟨rowDecodes_load (by decide) decodeLoad_of_funct3_lh, rowDecodes_load (by decide) decodeLoad_of_funct3_lhu,
    fun rd rs1 imm s =>
      ⟨fun hr =>
        ⟨writesRegister_of_exec_eq_loadWith (exec_lh rd rs1 imm s) hr (sext16_zeroExtend _),
          writesRegister_of_exec_eq_loadWith (exec_lhu rd rs1 imm s) hr rfl⟩,
      fun hp hr =>
        ⟨readsZero_of_exec_eq_loadWith_whole (exec_lh rd rs1 imm s) sext16_zero hp hr,
          readsZero_of_exec_eq_loadWith_whole (exec_lhu rd rs1 imm s) rfl hp hr⟩⟩⟩

/-- Settles O22: LW means `loadWith` of a word, whose composition is the statement's order of the bytes. -/
theorem wordLoadReadsLittleEndian : Obligations.WordLoadReadsLittleEndian :=
  ⟨rowDecodes_load (by decide) decodeLoad_of_funct3_lw,
    fun rd rs1 imm s =>
      ⟨fun hr => writesRegister_of_exec_eq_loadWith (exec_lw rd rs1 imm s) hr rfl,
        fun hp hr => readsZero_of_exec_eq_loadWith_whole (exec_lw rd rs1 imm s) rfl hp hr⟩⟩

end Sys2Proof.Machine

namespace Sys2Proof.Machine

/-! ### The stores (45_stores.md R210 to R213) -/

theorem decode_of_opcode_store (strict : Bool) {w : Word} (h : opcodeField w = 0b0100011#7) :
    decode strict w = decodeStore w := by
  simp [decode, h]

theorem decodeStore_of_funct3_sb {w : Word} (h : funct3Field w = 0b000#3) :
    decodeStore w = .ok (.sb (rs1Field w) (rs2Field w) (bitsS w)) := by
  simp [decodeStore, h]

theorem decodeStore_of_funct3_sh {w : Word} (h : funct3Field w = 0b001#3) :
    decodeStore w = .ok (.sh (rs1Field w) (rs2Field w) (bitsS w)) := by
  simp [decodeStore, h]

theorem decodeStore_of_funct3_sw {w : Word} (h : funct3Field w = 0b010#3) :
    decodeStore w = .ok (.sw (rs1Field w) (rs2Field w) (bitsS w)) := by
  simp [decodeStore, h]

/-- A store's row fixes opcode and funct3, so what the class decodes under that funct3 is what the row decodes to. -/
theorem rowDecodes_store {value : Word} {instr : Word → Instr} (hop : opcodeField value = 0b0100011#7)
    (hclass : ∀ {w : Word}, funct3Field w = funct3Field value → decodeStore w = .ok (instr w)) :
    RowDecodes value 0x0000707F instr :=
  rowDecodes_of_opcode_funct3 fun strict _ hopcode hfunct3 =>
    (decode_of_opcode_store strict (hopcode.trans hop)).trans (hclass hfunct3)

theorem exec_sb (rs1 rs2 : RegIdx) (imm : BitVec 12) (s : State) :
    exec (.sb rs1 rs2 imm) s = s.storeWith .byte rs1 rs2 imm := rfl

theorem exec_sh (rs1 rs2 : RegIdx) (imm : BitVec 12) (s : State) :
    exec (.sh rs1 rs2 imm) s = s.storeWith .half rs1 rs2 imm := rfl

theorem exec_sw (rs1 rs2 : RegIdx) (imm : BitVec 12) (s : State) :
    exec (.sw rs1 rs2 imm) s = s.storeWith .word rs1 rs2 imm := rfl

/-! ### The whole effect of a store, in range and out of range (R210) -/

/-- An instruction that means `storeWith` stores its bytes and nothing else, where they are in range. -/
theorem storesBytes_of_exec_eq_storeWith {i : Instr} {s : State} {w : Width} {rs1 rs2 : RegIdx} {imm : BitVec 12}
    (hexec : exec i s = s.storeWith w rs1 rs2 imm) (hm : Memory.wf s.cfg.memFill s.cfg.capacity s.mem)
    (hr : InRange s.cfg (s.effectiveAddress rs1 imm) w.bytes) :
    ∃ t, exec i s = .next t ∧ StoresBytes (s.effectiveAddress rs1 imm) w.bytes (s.readReg rs2) s t :=
  hexec ▸ State.storeWith_storesBytes rs2 hm hr

/-- A write that changes no cell only makes its reports. -/
theorem State.memWrite_eq_report {s : State} {a : Word} {w : Width} {v : Word}
    (hcells : storedCells s.cfg a w v = []) :
    s.memWrite a w v = s.report (accessReports s.cfg .write a w.bytes) := by
  rw [State.memWrite, hcells, Memory.setAll_nil, State.report]

/-- One report and the advanced `pc` are the whole effect of a store out of range (R57). -/
theorem dropsStore_report_advancePc (s : State) (a : Word) (n : Nat) :
    DropsStore a n s (s.report [⟨.write, a, n⟩]).advancePc :=
  ⟨fun _ => rfl, rfl, fun _ => rfl, ⟨rfl, rfl, rfl, rfl⟩, rfl⟩

/-- An instruction that means `storeWith` drops its store, when the access changes no cell and makes one report. -/
theorem dropsStore_of_exec_eq_storeWith {i : Instr} {s : State} {w : Width} {rs1 rs2 : RegIdx} {imm : BitVec 12}
    (hexec : exec i s = s.storeWith w rs1 rs2 imm)
    (hcells : storedCells s.cfg (s.effectiveAddress rs1 imm) w (s.readReg rs2) = [])
    (hreport : accessReports s.cfg .write (s.effectiveAddress rs1 imm) w.bytes =
      [⟨.write, s.effectiveAddress rs1 imm, w.bytes⟩]) :
    ∃ t, exec i s = .next t ∧ DropsStore (s.effectiveAddress rs1 imm) w.bytes s t := by
  refine ⟨_, ?_, dropsStore_report_advancePc s _ _⟩
  rw [hexec, State.storeWith_eq, State.memWrite_eq_report hcells, hreport]

/-- Under `OOR_POLICY = whole` a store out of range is dropped with one report, at every width. -/
theorem dropsStore_of_exec_eq_storeWith_whole {i : Instr} {s : State} {w : Width} {rs1 rs2 : RegIdx}
    {imm : BitVec 12} (hexec : exec i s = s.storeWith w rs1 rs2 imm) (hp : s.cfg.oorPolicy = .whole)
    (hr : ¬ InRange s.cfg (s.effectiveAddress rs1 imm) w.bytes) :
    ∃ t, exec i s = .next t ∧ DropsStore (s.effectiveAddress rs1 imm) w.bytes s t :=
  dropsStore_of_exec_eq_storeWith hexec (storedCells_outOfRange _ hp hr) (accessReports_whole .write hp hr)

/-- A one-byte store out of range changes no cell, under either policy: a changed cell is in range. -/
theorem storedCells_byte_outOfRange {c : Config} {a : Word} (v : Word) (h : ¬ InRange c a 1) :
    storedCells c a .byte v = [] := by
  refine List.eq_nil_iff_forall_not_mem.mpr fun d hd => ?_
  obtain ⟨hcell, hlt⟩ := mem_storedCells hd
  obtain ⟨k, hk, rfl⟩ := mem_storeCells.mp hcell
  simp only [InRange] at h
  simp only at hlt
  omega

/-- A one-byte store out of range is dropped with one report, under either policy (R57, R58). -/
theorem dropsStore_of_exec_eq_storeWith_byte {i : Instr} {s : State} {rs1 rs2 : RegIdx} {imm : BitVec 12}
    (hexec : exec i s = s.storeWith .byte rs1 rs2 imm) (hr : ¬ InRange s.cfg (s.effectiveAddress rs1 imm) 1) :
    ∃ t, exec i s = .next t ∧ DropsStore (s.effectiveAddress rs1 imm) 1 s t :=
  dropsStore_of_exec_eq_storeWith hexec (storedCells_byte_outOfRange _ hr) (accessReports_byte .write hr)

/-- Settles O23: SB means `storeWith` of one byte; out of range a byte is the same under either policy. -/
theorem byteStoreWritesLowByte : Obligations.ByteStoreWritesLowByte :=
  ⟨rowDecodes_store (by decide) decodeStore_of_funct3_sb,
    fun rs1 rs2 imm s hm =>
      ⟨storesBytes_of_exec_eq_storeWith (exec_sb rs1 rs2 imm s) hm,
        dropsStore_of_exec_eq_storeWith_byte (exec_sb rs1 rs2 imm s)⟩⟩

/-- Settles O24: SH means `storeWith` of a halfword, whose access is out of range as a whole under `whole`. -/
theorem halfwordStoreWritesTwoBytes : Obligations.HalfwordStoreWritesTwoBytes :=
  ⟨rowDecodes_store (by decide) decodeStore_of_funct3_sh,
    fun rs1 rs2 imm s hm =>
      ⟨storesBytes_of_exec_eq_storeWith (exec_sh rs1 rs2 imm s) hm,
        dropsStore_of_exec_eq_storeWith_whole (exec_sh rs1 rs2 imm s)⟩⟩

/-- Settles O25: SW means `storeWith` of a word, whose access is out of range as a whole under `whole`. -/
theorem wordStoreWritesFourBytes : Obligations.WordStoreWritesFourBytes :=
  ⟨rowDecodes_store (by decide) decodeStore_of_funct3_sw,
    fun rs1 rs2 imm s hm =>
      ⟨storesBytes_of_exec_eq_storeWith (exec_sw rs1 rs2 imm s) hm,
        dropsStore_of_exec_eq_storeWith_whole (exec_sw rs1 rs2 imm s)⟩⟩

end Sys2Proof.Machine

namespace Sys2Proof.Machine

/-! ### The register-immediate operations (46_alu_immediate.md R220 to R226) -/

theorem decode_of_opcode_aluImmediate (strict : Bool) {w : Word} (h : opcodeField w = 0b0010011#7) :
    decode strict w = decodeAluImmediate strict w := by
  simp [decode, h]

theorem decodeAluImmediate_of_funct3_addi (strict : Bool) {w : Word} (h : funct3Field w = 0b000#3) :
    decodeAluImmediate strict w = .ok (.addi (rdField w) (rs1Field w) (bitsI w)) := by
  simp [decodeAluImmediate, h]

theorem decodeAluImmediate_of_funct3_slti (strict : Bool) {w : Word} (h : funct3Field w = 0b010#3) :
    decodeAluImmediate strict w = .ok (.slti (rdField w) (rs1Field w) (bitsI w)) := by
  simp [decodeAluImmediate, h]

theorem decodeAluImmediate_of_funct3_sltiu (strict : Bool) {w : Word} (h : funct3Field w = 0b011#3) :
    decodeAluImmediate strict w = .ok (.sltiu (rdField w) (rs1Field w) (bitsI w)) := by
  simp [decodeAluImmediate, h]

theorem decodeAluImmediate_of_funct3_xori (strict : Bool) {w : Word} (h : funct3Field w = 0b100#3) :
    decodeAluImmediate strict w = .ok (.xori (rdField w) (rs1Field w) (bitsI w)) := by
  simp [decodeAluImmediate, h]

theorem decodeAluImmediate_of_funct3_ori (strict : Bool) {w : Word} (h : funct3Field w = 0b110#3) :
    decodeAluImmediate strict w = .ok (.ori (rdField w) (rs1Field w) (bitsI w)) := by
  simp [decodeAluImmediate, h]

theorem decodeAluImmediate_of_funct3_andi (strict : Bool) {w : Word} (h : funct3Field w = 0b111#3) :
    decodeAluImmediate strict w = .ok (.andi (rdField w) (rs1Field w) (bitsI w)) := by
  simp [decodeAluImmediate, h]

/-- The row of one of the six without a shift amount fixes opcode and funct3, so what the class decodes under that
funct3, whatever `FUNCT7_STRICT`, is what the row decodes to. -/
theorem rowDecodes_aluImmediate {value : Word} {instr : Word → Instr} (hop : opcodeField value = 0b0010011#7)
    (hclass : ∀ (strict : Bool) {w : Word}, funct3Field w = funct3Field value →
      decodeAluImmediate strict w = .ok (instr w)) :
    RowDecodes value 0x0000707F instr :=
  rowDecodes_of_opcode_funct3 fun strict _ hopcode hfunct3 =>
    (decode_of_opcode_aluImmediate strict (hopcode.trans hop)).trans (hclass strict hfunct3)

theorem exec_addi (rd rs1 : RegIdx) (imm : BitVec 12) (s : State) :
    exec (.addi rd rs1 imm) s = .next (s.aluImmediate rd rs1 (imm.signExtend 32) fun a b => a + b) := rfl

theorem exec_slti (rd rs1 : RegIdx) (imm : BitVec 12) (s : State) :
    exec (.slti rd rs1 imm) s =
      .next (s.aluImmediate rd rs1 (imm.signExtend 32) fun a b => boolWord (lessSigned a b)) := rfl

theorem exec_sltiu (rd rs1 : RegIdx) (imm : BitVec 12) (s : State) :
    exec (.sltiu rd rs1 imm) s =
      .next (s.aluImmediate rd rs1 (imm.signExtend 32) fun a b => boolWord (lessUnsigned a b)) := rfl

theorem exec_xori (rd rs1 : RegIdx) (imm : BitVec 12) (s : State) :
    exec (.xori rd rs1 imm) s = .next (s.aluImmediate rd rs1 (imm.signExtend 32) fun a b => a ^^^ b) := rfl

theorem exec_ori (rd rs1 : RegIdx) (imm : BitVec 12) (s : State) :
    exec (.ori rd rs1 imm) s = .next (s.aluImmediate rd rs1 (imm.signExtend 32) fun a b => a ||| b) := rfl

theorem exec_andi (rd rs1 : RegIdx) (imm : BitVec 12) (s : State) :
    exec (.andi rd rs1 imm) s = .next (s.aluImmediate rd rs1 (imm.signExtend 32) fun a b => a &&& b) := rfl

theorem boolWord_lessSigned (a b : Word) : boolWord (lessSigned a b) = if a.toInt < b.toInt then 1 else 0 := by
  simp only [boolWord, lessSigned_eq_true_iff]

theorem boolWord_lessUnsigned (a b : Word) : boolWord (lessUnsigned a b) = if a.toNat < b.toNat then 1 else 0 := by
  simp only [boolWord, lessUnsigned_eq_true_iff]

/-- The signed comparison is with the immediate's own value: sign extension keeps it (R222). -/
theorem boolWord_lessSigned_signExtend (a : Word) (imm : BitVec 12) :
    boolWord (lessSigned a (imm.signExtend 32)) = if a.toInt < imm.toInt then 1 else 0 := by
  rw [boolWord_lessSigned, BitVec.toInt_signExtend_of_le (by decide)]

/-- R220: an instruction that means `aluImmediate` writes its operation's result and has no other effect. -/
theorem writesRegister_of_exec_eq_aluImmediate {i : Instr} {s : State} {rd rs1 : RegIdx} {operand v : Word}
    {op : Word → Word → Word} (hexec : exec i s = .next (s.aluImmediate rd rs1 operand op))
    (hv : op (s.readReg rs1) operand = v) :
    ∃ t, exec i s = .next t ∧ WritesRegister rd v (s.pc + 4) s t :=
  ⟨_, hexec, hv ▸ writesRegister_writeAndAdvance s rd (op (s.readReg rs1) operand)⟩

/-- Settles O29: the sum modulo 2^32 of the two values is the sum of the two words. -/
theorem addiAddsSignExtendedImmediate : Obligations.AddiAddsSignExtendedImmediate :=
  ⟨rowDecodes_aluImmediate (by decide) decodeAluImmediate_of_funct3_addi,
    fun rd rs1 imm s => writesRegister_of_exec_eq_aluImmediate (exec_addi rd rs1 imm s) (BitVec.add_def _ _)⟩

/-- Settles O30: both mean `aluImmediate`, with `lessSigned` and `lessUnsigned` as a word for the operation. -/
theorem immediateComparisonsWriteOneOrZero : Obligations.ImmediateComparisonsWriteOneOrZero :=
  ⟨rowDecodes_aluImmediate (by decide) decodeAluImmediate_of_funct3_slti,
    rowDecodes_aluImmediate (by decide) decodeAluImmediate_of_funct3_sltiu,
    fun rd rs1 imm s =>
      ⟨writesRegister_of_exec_eq_aluImmediate (exec_slti rd rs1 imm s) (boolWord_lessSigned_signExtend _ imm),
        writesRegister_of_exec_eq_aluImmediate (exec_sltiu rd rs1 imm s) (boolWord_lessUnsigned _ _)⟩⟩

/-- Settles O31: all three mean `aluImmediate`, with the bitwise operation on words for the operation. -/
theorem immediateLogicIsBitwise : Obligations.ImmediateLogicIsBitwise :=
  ⟨rowDecodes_aluImmediate (by decide) decodeAluImmediate_of_funct3_xori,
    rowDecodes_aluImmediate (by decide) decodeAluImmediate_of_funct3_ori,
    rowDecodes_aluImmediate (by decide) decodeAluImmediate_of_funct3_andi,
    fun rd rs1 imm s =>
      ⟨writesRegister_of_exec_eq_aluImmediate (exec_xori rd rs1 imm s) rfl,
        writesRegister_of_exec_eq_aluImmediate (exec_ori rd rs1 imm s) rfl,
        writesRegister_of_exec_eq_aluImmediate (exec_andi rd rs1 imm s) rfl⟩⟩

end Sys2Proof.Machine


namespace Sys2Proof.Machine

/-! ### The register-register operations (47_alu_register.md R240 to R242) -/

theorem decode_of_opcode_aluRegister (strict : Bool) {w : Word} (h : opcodeField w = 0b0110011#7) :
    decode strict w = decodeAluRegister strict w := by
  simp [decode, h]

theorem examinedFunct7_of_funct7_plain {w : Word} (plain alternate : Instr) (h : funct7Field w = 0b0000000#7) :
    examinedFunct7 w plain alternate = .ok plain := by
  simp [examinedFunct7, h]

theorem examinedFunct7_of_funct7_alternate {w : Word} (plain alternate : Instr) (h : funct7Field w = 0b0100000#7) :
    examinedFunct7 w plain alternate = .ok alternate := by
  simp [examinedFunct7, h]

/-- ADD and SUB share funct3 000; funct7 tells them apart (R106). -/
theorem decodeAluRegister_of_funct3_add_sub (strict : Bool) {w : Word} (h : funct3Field w = 0b000#3) :
    decodeAluRegister strict w =
      examinedFunct7 w (.add (rdField w) (rs1Field w) (rs2Field w)) (.sub (rdField w) (rs1Field w) (rs2Field w)) := by
  simp [decodeAluRegister, h]

theorem decodeAluRegister_of_funct3_funct7_add (strict : Bool) {w : Word} (h3 : funct3Field w = 0b000#3)
    (h7 : funct7Field w = 0b0000000#7) :
    decodeAluRegister strict w = .ok (.add (rdField w) (rs1Field w) (rs2Field w)) :=
  (decodeAluRegister_of_funct3_add_sub strict h3).trans (examinedFunct7_of_funct7_plain _ _ h7)

theorem decodeAluRegister_of_funct3_funct7_sub (strict : Bool) {w : Word} (h3 : funct3Field w = 0b000#3)
    (h7 : funct7Field w = 0b0100000#7) :
    decodeAluRegister strict w = .ok (.sub (rdField w) (rs1Field w) (rs2Field w)) :=
  (decodeAluRegister_of_funct3_add_sub strict h3).trans (examinedFunct7_of_funct7_alternate _ _ h7)

/-- The row of a register-register instruction with an examined funct7 fixes opcode, funct3 and funct7, so what the
class decodes under those two, whatever `FUNCT7_STRICT`, is what the row decodes to. -/
theorem rowDecodes_aluRegister {value : Word} {instr : Word → Instr} (hop : opcodeField value = 0b0110011#7)
    (hclass : ∀ (strict : Bool) {w : Word}, funct3Field w = funct3Field value → funct7Field w = funct7Field value →
      decodeAluRegister strict w = .ok (instr w)) :
    RowDecodes value 0xFE00707F instr := fun strict w h =>
  calc decode strict w = decodeAluRegister strict w :=
        decode_of_opcode_aluRegister strict ((opcodeField_of_masked h (by decide)).trans hop)
    _ = .ok (instr w) := hclass strict (funct3Field_of_masked h (by decide)) (funct7Field_of_masked h (by decide))

theorem exec_add (rd rs1 rs2 : RegIdx) (s : State) :
    exec (.add rd rs1 rs2) s = .next (s.aluRegister rd rs1 rs2 fun a b => a + b) := rfl

theorem exec_sub (rd rs1 rs2 : RegIdx) (s : State) :
    exec (.sub rd rs1 rs2) s = .next (s.aluRegister rd rs1 rs2 fun a b => a - b) := rfl

/-- R242: subtracting words is the exact difference of their values modulo 2^32; the borrow is lost. -/
theorem sub_eq_ofInt_toInt_sub_toInt (a b : Word) : a - b = BitVec.ofInt 32 (a.toInt - b.toInt) :=
  BitVec.eq_of_toInt_eq (by rw [BitVec.toInt_sub, BitVec.toInt_ofInt])

/-- R240: an instruction that means `aluRegister` writes its operation's result and has no other effect. -/
theorem writesRegister_of_exec_eq_aluRegister {i : Instr} {s : State} {rd rs1 rs2 : RegIdx} {v : Word}
    {op : Word → Word → Word} (hexec : exec i s = .next (s.aluRegister rd rs1 rs2 op))
    (hv : op (s.readReg rs1) (s.readReg rs2) = v) :
    ∃ t, exec i s = .next t ∧ WritesRegister rd v (s.pc + 4) s t :=
  ⟨_, hexec, hv ▸ writesRegister_writeAndAdvance s rd (op (s.readReg rs1) (s.readReg rs2))⟩

/-- Settles O33: both mean `aluRegister`, and word addition and subtraction are the exact results modulo 2^32. -/
theorem registerAddAndSubtractWrap : Obligations.RegisterAddAndSubtractWrap :=
  ⟨rowDecodes_aluRegister (by decide) decodeAluRegister_of_funct3_funct7_add,
    rowDecodes_aluRegister (by decide) decodeAluRegister_of_funct3_funct7_sub,
    fun rd rs1 rs2 s =>
      ⟨writesRegister_of_exec_eq_aluRegister (exec_add rd rs1 rs2 s) (BitVec.add_def _ _),
        writesRegister_of_exec_eq_aluRegister (exec_sub rd rs1 rs2 s) (sub_eq_ofInt_toInt_sub_toInt _ _)⟩⟩

end Sys2Proof.Machine

namespace Sys2Proof.Machine

/-! ### Runs of a halted hart (60_exceptions.md R304) -/

/-- A run whose first step answers a state goes on from that state. -/
theorem run_succ_of_step {M : Host.Core} {s t : M.State} (n : Nat) (h : M.step s = .next t) :
    M.run (n + 1) s = M.run n t := by
  rw [Host.Core.run, h]

/-- Settles O44, by induction on the number of steps: the first step of a halted hart answers the state it began in. -/
theorem haltedHartStaysAsItIs : Obligations.HaltedHartStaysAsItIs := by
  intro n s hhalted
  induction n with
  | zero => rfl
  | succ n ih =>
    calc Host.Core.run core (n + 1) s = Host.Core.run core n s :=
          run_succ_of_step (M := core) n (step_of_halted hhalted)
      _ = .next s := ih

end Sys2Proof.Machine

namespace Sys2Proof.Machine

/-! ### funct7 where the tree does not dispatch on it (30_encoding.md R109) -/

theorem unexaminedFunct7_false (w : Word) (i : Instr) : unexaminedFunct7 false w i = .ok i := rfl

theorem unexaminedFunct7_of_funct7_zero (strict : Bool) {w : Word} (i : Instr) (h : funct7Field w = 0b0000000#7) :
    unexaminedFunct7 strict w i = .ok i := by
  simp [unexaminedFunct7, h]

theorem unexaminedFunct7_true_of_funct7_ne_zero {w : Word} (i : Instr) (h : funct7Field w ≠ 0b0000000#7) :
    unexaminedFunct7 true w i = .error .unknownFunct7 := by
  simp [unexaminedFunct7, h]

/-- A row whose funct7 the tree does not examine decodes as R109 says, when the tree answers `unexaminedFunct7` for
every word with the row's opcode and funct3. -/
theorem rowDecodesAnyFunct7_of_opcode_funct3 {value : Word} {instr : Word → Instr}
    (h : ∀ (strict : Bool) {w : Word}, opcodeField w = opcodeField value → funct3Field w = funct3Field value →
      decode strict w = unexaminedFunct7 strict w (instr w)) :
    RowDecodesAnyFunct7 value 0x0000707F instr := by
  intro w hw
  have hdecode := fun strict => h strict (opcodeField_of_masked hw (by decide)) (funct3Field_of_masked hw (by decide))
  refine ⟨(hdecode false).trans (unexaminedFunct7_false w _), fun h7 => ?_, fun h7 => ⟨.unknownFunct7, ?_⟩⟩
  · exact (hdecode true).trans (unexaminedFunct7_of_funct7_zero true _ h7)
  · exact (hdecode true).trans (unexaminedFunct7_true_of_funct7_ne_zero _ h7)

/-! ### The branches of the tree for the shifts, the register-register operations, JALR and the system class -/

theorem decodeAluImmediate_of_funct3_slli (strict : Bool) {w : Word} (h : funct3Field w = 0b001#3) :
    decodeAluImmediate strict w = unexaminedFunct7 strict w (.slli (rdField w) (rs1Field w) (shamtField w)) := by
  simp [decodeAluImmediate, h]

/-- SRLI and SRAI share funct3 101; funct7 tells them apart (R106). -/
theorem decodeAluImmediate_of_funct3_srli_srai (strict : Bool) {w : Word} (h : funct3Field w = 0b101#3) :
    decodeAluImmediate strict w =
      examinedFunct7 w (.srli (rdField w) (rs1Field w) (shamtField w))
        (.srai (rdField w) (rs1Field w) (shamtField w)) := by
  simp [decodeAluImmediate, h]

theorem decodeAluImmediate_of_funct3_funct7_srli (strict : Bool) {w : Word} (h3 : funct3Field w = 0b101#3)
    (h7 : funct7Field w = 0b0000000#7) :
    decodeAluImmediate strict w = .ok (.srli (rdField w) (rs1Field w) (shamtField w)) :=
  (decodeAluImmediate_of_funct3_srli_srai strict h3).trans (examinedFunct7_of_funct7_plain _ _ h7)

theorem decodeAluImmediate_of_funct3_funct7_srai (strict : Bool) {w : Word} (h3 : funct3Field w = 0b101#3)
    (h7 : funct7Field w = 0b0100000#7) :
    decodeAluImmediate strict w = .ok (.srai (rdField w) (rs1Field w) (shamtField w)) :=
  (decodeAluImmediate_of_funct3_srli_srai strict h3).trans (examinedFunct7_of_funct7_alternate _ _ h7)

theorem decodeAluRegister_of_funct3_sll (strict : Bool) {w : Word} (h : funct3Field w = 0b001#3) :
    decodeAluRegister strict w = unexaminedFunct7 strict w (.sll (rdField w) (rs1Field w) (rs2Field w)) := by
  simp [decodeAluRegister, h]

theorem decodeAluRegister_of_funct3_slt (strict : Bool) {w : Word} (h : funct3Field w = 0b010#3) :
    decodeAluRegister strict w = unexaminedFunct7 strict w (.slt (rdField w) (rs1Field w) (rs2Field w)) := by
  simp [decodeAluRegister, h]

theorem decodeAluRegister_of_funct3_sltu (strict : Bool) {w : Word} (h : funct3Field w = 0b011#3) :
    decodeAluRegister strict w = unexaminedFunct7 strict w (.sltu (rdField w) (rs1Field w) (rs2Field w)) := by
  simp [decodeAluRegister, h]

theorem decodeAluRegister_of_funct3_xor (strict : Bool) {w : Word} (h : funct3Field w = 0b100#3) :
    decodeAluRegister strict w = unexaminedFunct7 strict w (.xor (rdField w) (rs1Field w) (rs2Field w)) := by
  simp [decodeAluRegister, h]

/-- SRL and SRA share funct3 101; funct7 tells them apart (R106). -/
theorem decodeAluRegister_of_funct3_srl_sra (strict : Bool) {w : Word} (h : funct3Field w = 0b101#3) :
    decodeAluRegister strict w =
      examinedFunct7 w (.srl (rdField w) (rs1Field w) (rs2Field w)) (.sra (rdField w) (rs1Field w) (rs2Field w)) := by
  simp [decodeAluRegister, h]

theorem decodeAluRegister_of_funct3_funct7_srl (strict : Bool) {w : Word} (h3 : funct3Field w = 0b101#3)
    (h7 : funct7Field w = 0b0000000#7) :
    decodeAluRegister strict w = .ok (.srl (rdField w) (rs1Field w) (rs2Field w)) :=
  (decodeAluRegister_of_funct3_srl_sra strict h3).trans (examinedFunct7_of_funct7_plain _ _ h7)

theorem decodeAluRegister_of_funct3_funct7_sra (strict : Bool) {w : Word} (h3 : funct3Field w = 0b101#3)
    (h7 : funct7Field w = 0b0100000#7) :
    decodeAluRegister strict w = .ok (.sra (rdField w) (rs1Field w) (rs2Field w)) :=
  (decodeAluRegister_of_funct3_srl_sra strict h3).trans (examinedFunct7_of_funct7_alternate _ _ h7)

theorem decodeAluRegister_of_funct3_or (strict : Bool) {w : Word} (h : funct3Field w = 0b110#3) :
    decodeAluRegister strict w = unexaminedFunct7 strict w (.or (rdField w) (rs1Field w) (rs2Field w)) := by
  simp [decodeAluRegister, h]

theorem decodeAluRegister_of_funct3_and (strict : Bool) {w : Word} (h : funct3Field w = 0b111#3) :
    decodeAluRegister strict w = unexaminedFunct7 strict w (.and (rdField w) (rs1Field w) (rs2Field w)) := by
  simp [decodeAluRegister, h]

theorem decode_of_opcode_jalr (strict : Bool) {w : Word} (h : opcodeField w = 0b1100111#7) :
    decode strict w = decodeJalr w := by
  simp [decode, h]

theorem decodeJalr_of_funct3_jalr {w : Word} (h : funct3Field w = 0b000#3) :
    decodeJalr w = .ok (.jalr (rdField w) (rs1Field w) (bitsI w)) := by
  simp [decodeJalr, h]

theorem decodeJalr_of_funct3_ne_zero {w : Word} (h : funct3Field w ≠ 0b000#3) :
    decodeJalr w = .error .unknownFunct3 := by
  simp [decodeJalr, h]

theorem decode_of_opcode_system (strict : Bool) {w : Word} (h : opcodeField w = 0b1110011#7) :
    decode strict w = decodeSystem w := by
  simp [decode, h]

theorem decodeSystem_of_funct3_csrrs {w : Word} (h : funct3Field w = 0b010#3) :
    decodeSystem w = .ok (.csrrs (rdField w) (rs1Field w) (csrField w)) := by
  simp [decodeSystem, h]

/-- R107: with funct3 000 only the two whole words are instructions. -/
theorem decodeSystem_of_funct3_zero {w : Word} (h : funct3Field w = 0b000#3) (hecall : w ≠ 0x00000073)
    (hebreak : w ≠ 0x00100073) : decodeSystem w = .error .unknownSystemWord := by
  have hecall' : w ≠ 0x00000073#32 := hecall
  have hebreak' : w ≠ 0x00100073#32 := hebreak
  simp only [decodeSystem, h, hecall', hebreak', if_false, if_true]

/-- The system class has instructions under funct3 000 and 010 only. -/
theorem decodeSystem_of_funct3_other {w : Word} (h0 : funct3Field w ≠ 0b000#3) (h2 : funct3Field w ≠ 0b010#3) :
    decodeSystem w = .error .unknownFunct3 := by
  simp only [decodeSystem, h0, h2, if_false]

theorem decode_ecall_word (strict : Bool) : decode strict 0x00000073 = .ok .ecall := rfl

theorem decode_ebreak_word (strict : Bool) : decode strict 0x00100073 = .ok .ebreak := rfl

/-- The row of SRLI or SRAI fixes opcode, funct3 and funct7, so what the class decodes under those two, whatever
`FUNCT7_STRICT`, is what the row decodes to. -/
theorem rowDecodes_aluImmediate_funct7 {value : Word} {instr : Word → Instr} (hop : opcodeField value = 0b0010011#7)
    (hclass : ∀ (strict : Bool) {w : Word}, funct3Field w = funct3Field value → funct7Field w = funct7Field value →
      decodeAluImmediate strict w = .ok (instr w)) :
    RowDecodes value 0xFE00707F instr := fun strict w h =>
  calc decode strict w = decodeAluImmediate strict w :=
        decode_of_opcode_aluImmediate strict ((opcodeField_of_masked h (by decide)).trans hop)
    _ = .ok (instr w) := hclass strict (funct3Field_of_masked h (by decide)) (funct7Field_of_masked h (by decide))

/-- The row of a register-register instruction with an unexamined funct7. -/
theorem rowDecodesAnyFunct7_aluRegister {value : Word} {instr : Word → Instr}
    (hop : opcodeField value = 0b0110011#7)
    (hclass : ∀ (strict : Bool) {w : Word}, funct3Field w = funct3Field value →
      decodeAluRegister strict w = unexaminedFunct7 strict w (instr w)) :
    RowDecodesAnyFunct7 value 0x0000707F instr :=
  rowDecodesAnyFunct7_of_opcode_funct3 fun strict _ hopcode hfunct3 =>
    (decode_of_opcode_aluRegister strict (hopcode.trans hop)).trans (hclass strict hfunct3)

end Sys2Proof.Machine

namespace Sys2Proof.Machine

/-! ### The shifts (46_alu_immediate.md R227 to R229, 47_alu_register.md R243, R247, R248) -/

theorem shiftedLeft_shiftLeft (a : Word) (n : BitVec 5) : ShiftedLeft a n.toNat (shiftLeft a n) := by
  intro i hi
  rw [shiftLeft, BitVec.getLsbD_shiftLeft, decide_eq_true hi, Bool.true_and]
  split <;> simp_all

theorem shiftedRightLogical_shiftRightLogical (a : Word) (n : BitVec 5) :
    ShiftedRightLogical a n.toNat (shiftRightLogical a n) := by
  intro i _
  rw [shiftRightLogical, BitVec.getLsbD_ushiftRight, Nat.add_comm]
  split
  · rfl
  · next h => exact BitVec.getLsbD_of_ge a _ (Nat.not_lt.mp h)

theorem shiftedRightArithmetic_shiftRightArithmetic (a : Word) (n : BitVec 5) :
    ShiftedRightArithmetic a n.toNat (shiftRightArithmetic a n) := by
  intro i hi
  rw [shiftRightArithmetic, BitVec.getLsbD_sshiftRight, decide_eq_false (Nat.not_le.mpr hi), Nat.add_comm,
    BitVec.msb_eq_getLsbD_last]
  simp

/-- A register shift amount is the register's value modulo 32. -/
theorem toNat_shiftAmount (v : Word) : (shiftAmount v).toNat = v.toNat % 32 := by
  simp [shiftAmount]

theorem exec_slli (rd rs1 : RegIdx) (shamt : BitVec 5) (s : State) :
    exec (.slli rd rs1 shamt) s = .next (s.writeAndAdvance rd (shiftLeft (s.readReg rs1) shamt)) := rfl

theorem exec_srli (rd rs1 : RegIdx) (shamt : BitVec 5) (s : State) :
    exec (.srli rd rs1 shamt) s = .next (s.writeAndAdvance rd (shiftRightLogical (s.readReg rs1) shamt)) := rfl

theorem exec_srai (rd rs1 : RegIdx) (shamt : BitVec 5) (s : State) :
    exec (.srai rd rs1 shamt) s = .next (s.writeAndAdvance rd (shiftRightArithmetic (s.readReg rs1) shamt)) := rfl

theorem exec_sll (rd rs1 rs2 : RegIdx) (s : State) :
    exec (.sll rd rs1 rs2) s =
      .next (s.writeAndAdvance rd (shiftLeft (s.readReg rs1) (shiftAmount (s.readReg rs2)))) := rfl

theorem exec_srl (rd rs1 rs2 : RegIdx) (s : State) :
    exec (.srl rd rs1 rs2) s =
      .next (s.writeAndAdvance rd (shiftRightLogical (s.readReg rs1) (shiftAmount (s.readReg rs2)))) := rfl

theorem exec_sra (rd rs1 rs2 : RegIdx) (s : State) :
    exec (.sra rd rs1 rs2) s =
      .next (s.writeAndAdvance rd (shiftRightArithmetic (s.readReg rs1) (shiftAmount (s.readReg rs2)))) := rfl

/-- An instruction that writes a value and advances, whose value has the bits `p` asks for. -/
theorem writesShifted_of_exec_eq {i : Instr} {s : State} {rd : RegIdx} {v : Word} {p : Word → Prop}
    (hexec : exec i s = .next (s.writeAndAdvance rd v)) (hv : p v) :
    ∃ t v, exec i s = .next t ∧ WritesRegister rd v (s.pc + 4) s t ∧ p v :=
  ⟨_, v, hexec, writesRegister_writeAndAdvance s rd v, hv⟩

/-- Settles O32: the rows leave SLLI's funct7 unexamined and tell SRLI from SRAI by it; each meaning is its shift. -/
theorem immediateShiftsMoveBits : Obligations.ImmediateShiftsMoveBits :=
  ⟨rowDecodesAnyFunct7_of_opcode_funct3 fun strict _ hopcode hfunct3 =>
      (decode_of_opcode_aluImmediate strict hopcode).trans (decodeAluImmediate_of_funct3_slli strict hfunct3),
    rowDecodes_aluImmediate_funct7 (by decide) decodeAluImmediate_of_funct3_funct7_srli,
    rowDecodes_aluImmediate_funct7 (by decide) decodeAluImmediate_of_funct3_funct7_srai,
    fun rd rs1 shamt s =>
      ⟨writesShifted_of_exec_eq (exec_slli rd rs1 shamt s) (shiftedLeft_shiftLeft _ shamt),
        writesShifted_of_exec_eq (exec_srli rd rs1 shamt s) (shiftedRightLogical_shiftRightLogical _ shamt),
        writesShifted_of_exec_eq (exec_srai rd rs1 shamt s) (shiftedRightArithmetic_shiftRightArithmetic _ shamt)⟩⟩

/-- Settles O36: as the immediate shifts, with the low five bits of `x[rs2]` for the amount. -/
theorem registerShiftsMoveBits : Obligations.RegisterShiftsMoveBits := by
  refine ⟨rowDecodesAnyFunct7_aluRegister (by decide) decodeAluRegister_of_funct3_sll,
    rowDecodes_aluRegister (by decide) decodeAluRegister_of_funct3_funct7_srl,
    rowDecodes_aluRegister (by decide) decodeAluRegister_of_funct3_funct7_sra, fun rd rs1 rs2 s => ?_⟩
  rw [← toNat_shiftAmount]
  exact ⟨writesShifted_of_exec_eq (exec_sll rd rs1 rs2 s) (shiftedLeft_shiftLeft _ _),
    writesShifted_of_exec_eq (exec_srl rd rs1 rs2 s) (shiftedRightLogical_shiftRightLogical _ _),
    writesShifted_of_exec_eq (exec_sra rd rs1 rs2 s) (shiftedRightArithmetic_shiftRightArithmetic _ _)⟩

/-! ### The register comparisons and the bitwise operations (47_alu_register.md R244 to R246, R249, R250) -/

theorem exec_slt (rd rs1 rs2 : RegIdx) (s : State) :
    exec (.slt rd rs1 rs2) s = .next (s.aluRegister rd rs1 rs2 fun a b => boolWord (lessSigned a b)) := rfl

theorem exec_sltu (rd rs1 rs2 : RegIdx) (s : State) :
    exec (.sltu rd rs1 rs2) s = .next (s.aluRegister rd rs1 rs2 fun a b => boolWord (lessUnsigned a b)) := rfl

theorem exec_xor (rd rs1 rs2 : RegIdx) (s : State) :
    exec (.xor rd rs1 rs2) s = .next (s.aluRegister rd rs1 rs2 fun a b => a ^^^ b) := rfl

theorem exec_or (rd rs1 rs2 : RegIdx) (s : State) :
    exec (.or rd rs1 rs2) s = .next (s.aluRegister rd rs1 rs2 fun a b => a ||| b) := rfl

theorem exec_and (rd rs1 rs2 : RegIdx) (s : State) :
    exec (.and rd rs1 rs2) s = .next (s.aluRegister rd rs1 rs2 fun a b => a &&& b) := rfl

/-- Settles O34: both mean `aluRegister`, with the comparison as a word for the operation. -/
theorem registerComparisonsWriteOneOrZero : Obligations.RegisterComparisonsWriteOneOrZero :=
  ⟨rowDecodesAnyFunct7_aluRegister (by decide) decodeAluRegister_of_funct3_slt,
    rowDecodesAnyFunct7_aluRegister (by decide) decodeAluRegister_of_funct3_sltu,
    fun rd rs1 rs2 s =>
      ⟨writesRegister_of_exec_eq_aluRegister (exec_slt rd rs1 rs2 s) (boolWord_lessSigned _ _),
        writesRegister_of_exec_eq_aluRegister (exec_sltu rd rs1 rs2 s) (boolWord_lessUnsigned _ _)⟩⟩

/-- Settles O35: all three mean `aluRegister`, with the bitwise operation on words for the operation. -/
theorem registerLogicIsBitwise : Obligations.RegisterLogicIsBitwise :=
  ⟨rowDecodesAnyFunct7_aluRegister (by decide) decodeAluRegister_of_funct3_xor,
    rowDecodesAnyFunct7_aluRegister (by decide) decodeAluRegister_of_funct3_or,
    rowDecodesAnyFunct7_aluRegister (by decide) decodeAluRegister_of_funct3_and,
    fun rd rs1 rs2 s =>
      ⟨writesRegister_of_exec_eq_aluRegister (exec_xor rd rs1 rs2 s) rfl,
        writesRegister_of_exec_eq_aluRegister (exec_or rd rs1 rs2 s) rfl,
        writesRegister_of_exec_eq_aluRegister (exec_and rd rs1 rs2 s) rfl⟩⟩

/-! ### JALR (42_jumps.md R162) -/

/-- The register JALR's target is taken from: the link itself when it is written first to the base register. -/
theorem jalrBase_eq (s : State) (rd rs1 : RegIdx) :
    (if s.cfg.jalrLinkFirst then (s.writeReg rd s.linkValue).readReg rs1 else s.readReg rs1) =
      if s.cfg.jalrLinkFirst = true ∧ rd = rs1 ∧ rs1 ≠ 0 then s.pc + 4 else s.readReg rs1 := by
  by_cases hfirst : s.cfg.jalrLinkFirst = true
  · by_cases h0 : rs1 = 0
    · simp [hfirst, h0]
    · by_cases hrd : rd = rs1
      · simp [hfirst, h0, hrd, State.writeReg_readReg, State.linkValue]
      · simp [hfirst, hrd, State.writeReg_readReg_other s (Ne.symm hrd)]
  · simp [hfirst]

theorem exec_jalr (rd rs1 : RegIdx) (imm : BitVec 12) (s : State) :
    exec (.jalr rd rs1 imm) s =
      .next ((s.writeReg rd (s.pc + 4)).setPc (clearBit0
        ((if s.cfg.jalrLinkFirst = true ∧ rd = rs1 ∧ rs1 ≠ 0 then s.pc + 4 else s.readReg rs1) +
          imm.signExtend 32))) := by
  rw [← jalrBase_eq]
  rfl

theorem rowDecodes_jalr :
    RowDecodes 0x00000067 0x0000707F (fun w => .jalr (rdField w) (rs1Field w) (bitsI w)) :=
  rowDecodes_of_opcode_funct3 fun strict _ hopcode hfunct3 =>
    (decode_of_opcode_jalr strict hopcode).trans (decodeJalr_of_funct3_jalr hfunct3)

/-- Settles O16: one register write and one move of `pc`, to a target whose bit 0 alone is cleared. -/
theorem jalrLinksAndJumps : Obligations.JalrLinksAndJumps := by
  refine ⟨rowDecodes_jalr, fun rd rs1 imm s => ⟨_, exec_jalr rd rs1 imm s, writesRegister_setPc s rd _ _, ?_, ?_⟩⟩
  · exact clearBit0_getLsbD _ 0
  · intro i hi
    rw [State.setPc_pc, clearBit0_getLsbD, decide_eq_true (by omega), Bool.true_and]

/-! ### CSRRS (48_system.md R262) -/

theorem exec_csrrs (rd rs1 : RegIdx) (csr : BitVec 12) (s : State) :
    exec (.csrrs rd rs1 csr) s =
      .next (s.writeAndAdvance rd (csrIndex s.cfg.csrIndexExt csr &&& s.readReg rs1)) := rfl

theorem rowDecodes_csrrs :
    RowDecodes 0x00002073 0x0000707F (fun w => .csrrs (rdField w) (rs1Field w) (csrField w)) :=
  rowDecodes_of_opcode_funct3 fun strict _ hopcode hfunct3 =>
    (decode_of_opcode_system strict hopcode).trans (decodeSystem_of_funct3_csrrs hfunct3)

/-- CSRRS under a given `CSR_INDEX_EXT`. -/
theorem writesRegister_csrrs (rd rs1 : RegIdx) (csr : BitVec 12) {s : State} {ext : CsrIndexExt}
    (hext : s.cfg.csrIndexExt = ext) :
    ∃ t, exec (.csrrs rd rs1 csr) s = .next t ∧
      WritesRegister rd (csrIndex ext csr &&& s.readReg rs1) (s.pc + 4) s t :=
  ⟨_, exec_csrrs rd rs1 csr s, hext ▸ writesRegister_writeAndAdvance s rd _⟩

/-- Settles O39: the row fixes opcode and funct3, and the meaning is one register write under either extension. -/
theorem csrrsAndsIndexWithRegister : Obligations.CsrrsAndsIndexWithRegister :=
  ⟨rowDecodes_csrrs, fun rd rs1 csr _ => ⟨writesRegister_csrrs rd rs1 csr, writesRegister_csrrs rd rs1 csr⟩⟩

end Sys2Proof.Machine

namespace Sys2Proof.Machine

/-! ### Decoding an encoded instruction, one lemma for each format (30_encoding.md R102)

Each asks what the tree answers for every word with the selectors the encoder writes, and reads the operands back. -/

theorem decode_encodeI {strict : Bool} {funct3 : BitVec 3} {opcode : BitVec 7}
    {instr : RegIdx → RegIdx → BitVec 12 → Instr}
    (h : ∀ {w : Word}, opcodeField w = opcode → funct3Field w = funct3 →
      decode strict w = .ok (instr (rdField w) (rs1Field w) (bitsI w))) (rd rs1 : RegIdx) (imm : BitVec 12) :
    decode strict (encodeI imm rs1 funct3 rd opcode) = .ok (instr rd rs1 imm) := by
  obtain ⟨hop, hrd, hf3, hrs1, himm, -⟩ := encodeI_fields imm rs1 funct3 rd opcode
  rw [h hop hf3, hrd, hrs1, himm]

theorem decode_encodeShift {strict : Bool} {funct7 : BitVec 7} {funct3 : BitVec 3} {opcode : BitVec 7}
    {instr : RegIdx → RegIdx → BitVec 5 → Instr}
    (h : ∀ {w : Word}, opcodeField w = opcode → funct3Field w = funct3 → funct7Field w = funct7 →
      decode strict w = .ok (instr (rdField w) (rs1Field w) (shamtField w))) (rd rs1 : RegIdx) (shamt : BitVec 5) :
    decode strict (encodeShift funct7 shamt rs1 funct3 rd opcode) = .ok (instr rd rs1 shamt) := by
  obtain ⟨hop, hrd, hf3, hrs1, hshamt, hf7⟩ := encodeShift_fields funct7 shamt rs1 funct3 rd opcode
  rw [h hop hf3 hf7, hrd, hrs1, hshamt]

theorem decode_encodeR {strict : Bool} {funct7 : BitVec 7} {funct3 : BitVec 3} {opcode : BitVec 7}
    {instr : RegIdx → RegIdx → RegIdx → Instr}
    (h : ∀ {w : Word}, opcodeField w = opcode → funct3Field w = funct3 → funct7Field w = funct7 →
      decode strict w = .ok (instr (rdField w) (rs1Field w) (rs2Field w))) (rd rs1 rs2 : RegIdx) :
    decode strict (encodeR funct7 rs2 rs1 funct3 rd opcode) = .ok (instr rd rs1 rs2) := by
  obtain ⟨hop, hrd, hf3, hrs1, hrs2, hf7⟩ := encodeR_fields funct7 rs2 rs1 funct3 rd opcode
  rw [h hop hf3 hf7, hrd, hrs1, hrs2]

theorem decode_encode_branch (strict : Bool) {funct3 : BitVec 3} {instr : RegIdx → RegIdx → BitVec 13 → Instr}
    (hclass : ∀ {w : Word}, funct3Field w = funct3 →
      decodeBranch w = .ok (instr (rs1Field w) (rs2Field w) (bitsB w)))
    (rs1 rs2 : RegIdx) {offset : BitVec 13} (heven : evenOffset offset = true) :
    decode strict (encodeB offset rs2 rs1 funct3 0b1100011) = .ok (instr rs1 rs2 offset) := by
  obtain ⟨hop, hf3, hrs1, hrs2⟩ := encodeB_fields offset rs2 rs1 funct3 0b1100011
  rw [decode_of_opcode_branch strict hop, hclass hf3, hrs1, hrs2, bitsB_encodeB _ _ _ _ _ heven]

theorem decode_encode_store (strict : Bool) {funct3 : BitVec 3} {instr : RegIdx → RegIdx → BitVec 12 → Instr}
    (hclass : ∀ {w : Word}, funct3Field w = funct3 →
      decodeStore w = .ok (instr (rs1Field w) (rs2Field w) (bitsS w)))
    (rs1 rs2 : RegIdx) (imm : BitVec 12) :
    decode strict (encodeS imm rs2 rs1 funct3 0b0100011) = .ok (instr rs1 rs2 imm) := by
  obtain ⟨hop, hf3, hrs1, hrs2⟩ := encodeS_fields imm rs2 rs1 funct3 0b0100011
  rw [decode_of_opcode_store strict hop, hclass hf3, hrs1, hrs2, bitsS_encodeS]

theorem decode_encode_lui (strict : Bool) (rd : RegIdx) (imm20 : BitVec 20) :
    decode strict (encodeU imm20 rd 0b0110111) = .ok (.lui rd imm20) := by
  obtain ⟨hop, hrd, himm⟩ := encodeU_fields imm20 rd 0b0110111
  rw [decode_of_opcode_lui strict hop, hrd, himm]

theorem decode_encode_auipc (strict : Bool) (rd : RegIdx) (imm20 : BitVec 20) :
    decode strict (encodeU imm20 rd 0b0010111) = .ok (.auipc rd imm20) := by
  obtain ⟨hop, hrd, himm⟩ := encodeU_fields imm20 rd 0b0010111
  rw [decode_of_opcode_auipc strict hop, hrd, himm]

theorem decode_encode_jal (strict : Bool) (rd : RegIdx) {offset : BitVec 21} (heven : evenOffset offset = true) :
    decode strict (encodeJ offset rd 0b1101111) = .ok (.jal rd offset) := by
  obtain ⟨hop, hrd⟩ := encodeJ_fields offset rd 0b1101111
  rw [decode_of_opcode_jal strict hop, hrd, bitsJ_encodeJ _ _ _ heven]

theorem decode_encode_load (strict : Bool) {funct3 : BitVec 3} {instr : RegIdx → RegIdx → BitVec 12 → Instr}
    (hclass : ∀ {w : Word}, funct3Field w = funct3 → decodeLoad w = .ok (instr (rdField w) (rs1Field w) (bitsI w)))
    (rd rs1 : RegIdx) (imm : BitVec 12) :
    decode strict (encodeI imm rs1 funct3 rd 0b0000011) = .ok (instr rd rs1 imm) :=
  decode_encodeI (fun hop hf3 => (decode_of_opcode_load strict hop).trans (hclass hf3)) rd rs1 imm

theorem decode_encode_aluImmediate {strict : Bool} {funct3 : BitVec 3} {instr : RegIdx → RegIdx → BitVec 12 → Instr}
    (hclass : ∀ {w : Word}, funct3Field w = funct3 →
      decodeAluImmediate strict w = .ok (instr (rdField w) (rs1Field w) (bitsI w)))
    (rd rs1 : RegIdx) (imm : BitVec 12) :
    decode strict (encodeI imm rs1 funct3 rd 0b0010011) = .ok (instr rd rs1 imm) :=
  decode_encodeI (fun hop hf3 => (decode_of_opcode_aluImmediate strict hop).trans (hclass hf3)) rd rs1 imm

theorem decode_encode_shift {strict : Bool} {funct7 : BitVec 7} {funct3 : BitVec 3}
    {instr : RegIdx → RegIdx → BitVec 5 → Instr}
    (hclass : ∀ {w : Word}, funct3Field w = funct3 → funct7Field w = funct7 →
      decodeAluImmediate strict w = .ok (instr (rdField w) (rs1Field w) (shamtField w)))
    (rd rs1 : RegIdx) (shamt : BitVec 5) :
    decode strict (encodeShift funct7 shamt rs1 funct3 rd 0b0010011) = .ok (instr rd rs1 shamt) :=
  decode_encodeShift (fun hop hf3 hf7 => (decode_of_opcode_aluImmediate strict hop).trans (hclass hf3 hf7)) rd rs1 shamt

theorem decode_encode_aluRegister {strict : Bool} {funct7 : BitVec 7} {funct3 : BitVec 3}
    {instr : RegIdx → RegIdx → RegIdx → Instr}
    (hclass : ∀ {w : Word}, funct3Field w = funct3 → funct7Field w = funct7 →
      decodeAluRegister strict w = .ok (instr (rdField w) (rs1Field w) (rs2Field w))) (rd rs1 rs2 : RegIdx) :
    decode strict (encodeR funct7 rs2 rs1 funct3 rd 0b0110011) = .ok (instr rd rs1 rs2) :=
  decode_encodeR (fun hop hf3 hf7 => (decode_of_opcode_aluRegister strict hop).trans (hclass hf3 hf7)) rd rs1 rs2

/-- Where the tree does not examine funct7, the encoder's 0000000 is accepted under either `FUNCT7_STRICT`. -/
theorem decode_encode_aluRegister_unexamined {strict : Bool} {funct3 : BitVec 3}
    {instr : RegIdx → RegIdx → RegIdx → Instr}
    (hclass : ∀ {w : Word}, funct3Field w = funct3 →
      decodeAluRegister strict w = unexaminedFunct7 strict w (instr (rdField w) (rs1Field w) (rs2Field w)))
    (rd rs1 rs2 : RegIdx) :
    decode strict (encodeR 0b0000000 rs2 rs1 funct3 rd 0b0110011) = .ok (instr rd rs1 rs2) :=
  decode_encode_aluRegister
    (fun hf3 hf7 => (hclass hf3).trans (unexaminedFunct7_of_funct7_zero strict _ hf7)) rd rs1 rs2

/-- Settles O8: each format reads its operands back, and each instruction's selectors take its branch of the tree. -/
theorem decodeReadsBackEveryEncoding : Obligations.DecodeReadsBackEveryEncoding := by
  intro strict i hwf
  cases i with
  | lui rd imm20 => exact decode_encode_lui strict rd imm20
  | auipc rd imm20 => exact decode_encode_auipc strict rd imm20
  | jal rd offset => exact decode_encode_jal strict rd hwf
  | jalr rd rs1 imm =>
    exact decode_encodeI
      (fun hop hf3 => (decode_of_opcode_jalr strict hop).trans (decodeJalr_of_funct3_jalr hf3)) rd rs1 imm
  | beq rs1 rs2 offset => exact decode_encode_branch strict decodeBranch_of_funct3_beq rs1 rs2 hwf
  | bne rs1 rs2 offset => exact decode_encode_branch strict decodeBranch_of_funct3_bne rs1 rs2 hwf
  | blt rs1 rs2 offset => exact decode_encode_branch strict decodeBranch_of_funct3_blt rs1 rs2 hwf
  | bge rs1 rs2 offset => exact decode_encode_branch strict decodeBranch_of_funct3_bge rs1 rs2 hwf
  | bltu rs1 rs2 offset => exact decode_encode_branch strict decodeBranch_of_funct3_bltu rs1 rs2 hwf
  | bgeu rs1 rs2 offset => exact decode_encode_branch strict decodeBranch_of_funct3_bgeu rs1 rs2 hwf
  | lb rd rs1 imm => exact decode_encode_load strict decodeLoad_of_funct3_lb rd rs1 imm
  | lh rd rs1 imm => exact decode_encode_load strict decodeLoad_of_funct3_lh rd rs1 imm
  | lw rd rs1 imm => exact decode_encode_load strict decodeLoad_of_funct3_lw rd rs1 imm
  | lbu rd rs1 imm => exact decode_encode_load strict decodeLoad_of_funct3_lbu rd rs1 imm
  | lhu rd rs1 imm => exact decode_encode_load strict decodeLoad_of_funct3_lhu rd rs1 imm
  | sb rs1 rs2 imm => exact decode_encode_store strict decodeStore_of_funct3_sb rs1 rs2 imm
  | sh rs1 rs2 imm => exact decode_encode_store strict decodeStore_of_funct3_sh rs1 rs2 imm
  | sw rs1 rs2 imm => exact decode_encode_store strict decodeStore_of_funct3_sw rs1 rs2 imm
  | addi rd rs1 imm => exact decode_encode_aluImmediate (decodeAluImmediate_of_funct3_addi strict) rd rs1 imm
  | slti rd rs1 imm => exact decode_encode_aluImmediate (decodeAluImmediate_of_funct3_slti strict) rd rs1 imm
  | sltiu rd rs1 imm => exact decode_encode_aluImmediate (decodeAluImmediate_of_funct3_sltiu strict) rd rs1 imm
  | xori rd rs1 imm => exact decode_encode_aluImmediate (decodeAluImmediate_of_funct3_xori strict) rd rs1 imm
  | ori rd rs1 imm => exact decode_encode_aluImmediate (decodeAluImmediate_of_funct3_ori strict) rd rs1 imm
  | andi rd rs1 imm => exact decode_encode_aluImmediate (decodeAluImmediate_of_funct3_andi strict) rd rs1 imm
  | slli rd rs1 shamt =>
    exact decode_encode_shift (fun hf3 hf7 => (decodeAluImmediate_of_funct3_slli strict hf3).trans
      (unexaminedFunct7_of_funct7_zero strict _ hf7)) rd rs1 shamt
  | srli rd rs1 shamt => exact decode_encode_shift (decodeAluImmediate_of_funct3_funct7_srli strict) rd rs1 shamt
  | srai rd rs1 shamt => exact decode_encode_shift (decodeAluImmediate_of_funct3_funct7_srai strict) rd rs1 shamt
  | add rd rs1 rs2 => exact decode_encode_aluRegister (decodeAluRegister_of_funct3_funct7_add strict) rd rs1 rs2
  | sub rd rs1 rs2 => exact decode_encode_aluRegister (decodeAluRegister_of_funct3_funct7_sub strict) rd rs1 rs2
  | sll rd rs1 rs2 =>
    exact decode_encode_aluRegister_unexamined (decodeAluRegister_of_funct3_sll strict) rd rs1 rs2
  | slt rd rs1 rs2 =>
    exact decode_encode_aluRegister_unexamined (decodeAluRegister_of_funct3_slt strict) rd rs1 rs2
  | sltu rd rs1 rs2 =>
    exact decode_encode_aluRegister_unexamined (decodeAluRegister_of_funct3_sltu strict) rd rs1 rs2
  | xor rd rs1 rs2 =>
    exact decode_encode_aluRegister_unexamined (decodeAluRegister_of_funct3_xor strict) rd rs1 rs2
  | srl rd rs1 rs2 => exact decode_encode_aluRegister (decodeAluRegister_of_funct3_funct7_srl strict) rd rs1 rs2
  | sra rd rs1 rs2 => exact decode_encode_aluRegister (decodeAluRegister_of_funct3_funct7_sra strict) rd rs1 rs2
  | or rd rs1 rs2 =>
    exact decode_encode_aluRegister_unexamined (decodeAluRegister_of_funct3_or strict) rd rs1 rs2
  | and rd rs1 rs2 =>
    exact decode_encode_aluRegister_unexamined (decodeAluRegister_of_funct3_and strict) rd rs1 rs2
  | ecall => exact decode_ecall_word strict
  | ebreak => exact decode_ebreak_word strict
  | csrrs rd rs1 csr =>
    exact decode_encodeI
      (fun hop hf3 => (decode_of_opcode_system strict hop).trans (decodeSystem_of_funct3_csrrs hf3)) rd rs1 csr

end Sys2Proof.Machine

namespace Sys2Proof.Machine

/-! ### What a word that decodes has to be -/

/-- The word with funct7 0000000 and every other field kept. -/
def clearFunct7 (w : Word) : Word :=
  encodeR 0b0000000 (rs2Field w) (rs1Field w) (funct3Field w) (rdField w) (opcodeField w)

/-- A row whose mask leaves funct7 out does not tell a word from the word with funct7 cleared. -/
theorem clearFunct7_and_funct3Mask (w : Word) : clearFunct7 w &&& 0x0000707F#32 = w &&& 0x0000707F#32 := by
  obtain ⟨hop, -, hf3, -, -, -⟩ :=
    encodeR_fields 0b0000000 (rs2Field w) (rs1Field w) (funct3Field w) (rdField w) (opcodeField w)
  rw [and_funct3Mask w, and_funct3Mask (clearFunct7 w), clearFunct7, hop, hf3]

/-- The instructions whose funct7 the tree does not examine (the spec's decision D5). -/
def unexaminedMnemonics : List String := ["SLLI", "SLL", "SLT", "SLTU", "XOR", "OR", "AND"]

/-- What decoding `w` to `i` says of both: `i` has an encoding, and the encoding is `w`; where funct7 is not examined
it is `w` with funct7 cleared. -/
def Reads (strict : Bool) (w : Word) (i : Instr) : Prop :=
  i.WellFormed = true ∧
    (encode i = w ∨ (strict = false ∧ i.mnemonic ∈ unexaminedMnemonics ∧ encode i = clearFunct7 w))

theorem reads_of_encode_eq {strict : Bool} {w : Word} {i : Instr} (hwf : i.WellFormed = true) (he : encode i = w) :
    Reads strict w i := ⟨hwf, .inl he⟩

theorem encodeI_of_selectors {w : Word} {funct3 : BitVec 3} {opcode : BitVec 7} (h3 : funct3Field w = funct3)
    (hop : opcodeField w = opcode) : encodeI (bitsI w) (rs1Field w) funct3 (rdField w) opcode = w := by
  rw [← h3, ← hop, encodeI_of_fields]

theorem encodeShift_of_selectors {w : Word} {funct7 : BitVec 7} {funct3 : BitVec 3} {opcode : BitVec 7}
    (h7 : funct7Field w = funct7) (h3 : funct3Field w = funct3) (hop : opcodeField w = opcode) :
    encodeShift funct7 (shamtField w) (rs1Field w) funct3 (rdField w) opcode = w := by
  rw [← h7, ← h3, ← hop, encodeShift_of_fields]

theorem encodeR_of_selectors {w : Word} {funct7 : BitVec 7} {funct3 : BitVec 3} {opcode : BitVec 7}
    (h7 : funct7Field w = funct7) (h3 : funct3Field w = funct3) (hop : opcodeField w = opcode) :
    encodeR funct7 (rs2Field w) (rs1Field w) funct3 (rdField w) opcode = w := by
  rw [← h7, ← h3, ← hop, encodeR_of_fields]

theorem encodeS_of_selectors {w : Word} {funct3 : BitVec 3} {opcode : BitVec 7} (h3 : funct3Field w = funct3)
    (hop : opcodeField w = opcode) : encodeS (bitsS w) (rs2Field w) (rs1Field w) funct3 opcode = w := by
  rw [← h3, ← hop, encodeS_of_fields]

theorem encodeU_of_opcode {w : Word} {opcode : BitVec 7} (hop : opcodeField w = opcode) :
    encodeU (bitsU w) (rdField w) opcode = w := by
  rw [← hop, encodeU_of_fields]

theorem encodeJ_of_opcode {w : Word} {opcode : BitVec 7} (hop : opcodeField w = opcode) :
    encodeJ (bitsJ w) (rdField w) opcode = w := by
  rw [← hop, encodeJ_of_fields]

theorem encodeB_of_selectors {w : Word} {funct3 : BitVec 3} {opcode : BitVec 7} (h3 : funct3Field w = funct3)
    (hop : opcodeField w = opcode) : encodeB (bitsB w) (rs2Field w) (rs1Field w) funct3 opcode = w := by
  rw [← h3, ← hop, encodeB_of_fields]

/-- Clearing a funct7 that is already 0000000 changes nothing. -/
theorem clearFunct7_of_funct7_zero {w : Word} (h : funct7Field w = 0b0000000#7) : clearFunct7 w = w :=
  encodeR_of_selectors h rfl rfl

/-- Format R with funct7 0000000 is the word with funct7 cleared. -/
theorem encodeR_eq_clearFunct7 {w : Word} {funct3 : BitVec 3} {opcode : BitVec 7} (h3 : funct3Field w = funct3)
    (hop : opcodeField w = opcode) :
    encodeR 0b0000000 (rs2Field w) (rs1Field w) funct3 (rdField w) opcode = clearFunct7 w := by
  rw [clearFunct7, h3, hop]

/-- The shift amount stands where rs2 does, so format I with funct7 0000000 is the same word. -/
theorem encodeShift_eq_clearFunct7 {w : Word} {funct3 : BitVec 3} {opcode : BitVec 7} (h3 : funct3Field w = funct3)
    (hop : opcodeField w = opcode) :
    encodeShift 0b0000000 (shamtField w) (rs1Field w) funct3 (rdField w) opcode = clearFunct7 w :=
  encodeR_eq_clearFunct7 h3 hop

theorem reads_of_unexaminedFunct7 {strict : Bool} {w : Word} {a i : Instr} (h : unexaminedFunct7 strict w a = .ok i)
    (hwf : a.WellFormed = true) (hm : a.mnemonic ∈ unexaminedMnemonics) (he : encode a = clearFunct7 w) :
    Reads strict w i := by
  obtain ⟨rfl, hzero⟩ := unexaminedFunct7_ok h
  cases strict with
  | false => exact ⟨hwf, .inr ⟨rfl, hm, he⟩⟩
  | true => exact ⟨hwf, .inl (he.trans (clearFunct7_of_funct7_zero (hzero rfl)))⟩

theorem reads_of_examinedFunct7 {strict : Bool} {w : Word} {plain alternate i : Instr}
    (h : examinedFunct7 w plain alternate = .ok i)
    (hplain : plain.WellFormed = true ∧ (funct7Field w = 0b0000000#7 → encode plain = w))
    (halternate : alternate.WellFormed = true ∧ (funct7Field w = 0b0100000#7 → encode alternate = w)) :
    Reads strict w i := by
  rcases examinedFunct7_ok h with ⟨h7, rfl⟩ | ⟨h7, rfl⟩
  · exact reads_of_encode_eq hplain.1 (hplain.2 h7)
  · exact reads_of_encode_eq halternate.1 (halternate.2 h7)

/-! ### The classes of the tree, one lemma each -/

theorem reads_of_decodeJalr {strict : Bool} {w : Word} {i : Instr} (hop : opcodeField w = 0b1100111#7)
    (h : decodeJalr w = .ok i) : Reads strict w i := by
  unfold decodeJalr at h
  split_ifs at h with h0
  cases h
  exact reads_of_encode_eq rfl (encodeI_of_selectors h0 hop)

theorem reads_of_decodeBranch {strict : Bool} {w : Word} {i : Instr} (hop : opcodeField w = 0b1100011#7)
    (h : decodeBranch w = .ok i) : Reads strict w i := by
  unfold decodeBranch at h
  split_ifs at h with h0 h1 h4 h5 h6 h7
  · cases h; exact reads_of_encode_eq (evenOffset_bitsB w) (encodeB_of_selectors h0 hop)
  · cases h; exact reads_of_encode_eq (evenOffset_bitsB w) (encodeB_of_selectors h1 hop)
  · cases h; exact reads_of_encode_eq (evenOffset_bitsB w) (encodeB_of_selectors h4 hop)
  · cases h; exact reads_of_encode_eq (evenOffset_bitsB w) (encodeB_of_selectors h5 hop)
  · cases h; exact reads_of_encode_eq (evenOffset_bitsB w) (encodeB_of_selectors h6 hop)
  · cases h; exact reads_of_encode_eq (evenOffset_bitsB w) (encodeB_of_selectors h7 hop)

theorem reads_of_decodeLoad {strict : Bool} {w : Word} {i : Instr} (hop : opcodeField w = 0b0000011#7)
    (h : decodeLoad w = .ok i) : Reads strict w i := by
  unfold decodeLoad at h
  split_ifs at h with h0 h1 h2 h4 h5
  · cases h; exact reads_of_encode_eq rfl (encodeI_of_selectors h0 hop)
  · cases h; exact reads_of_encode_eq rfl (encodeI_of_selectors h1 hop)
  · cases h; exact reads_of_encode_eq rfl (encodeI_of_selectors h2 hop)
  · cases h; exact reads_of_encode_eq rfl (encodeI_of_selectors h4 hop)
  · cases h; exact reads_of_encode_eq rfl (encodeI_of_selectors h5 hop)

theorem reads_of_decodeStore {strict : Bool} {w : Word} {i : Instr} (hop : opcodeField w = 0b0100011#7)
    (h : decodeStore w = .ok i) : Reads strict w i := by
  unfold decodeStore at h
  split_ifs at h with h0 h1 h2
  · cases h; exact reads_of_encode_eq rfl (encodeS_of_selectors h0 hop)
  · cases h; exact reads_of_encode_eq rfl (encodeS_of_selectors h1 hop)
  · cases h; exact reads_of_encode_eq rfl (encodeS_of_selectors h2 hop)

theorem reads_of_decodeAluImmediate {strict : Bool} {w : Word} {i : Instr} (hop : opcodeField w = 0b0010011#7)
    (h : decodeAluImmediate strict w = .ok i) : Reads strict w i := by
  unfold decodeAluImmediate at h
  split_ifs at h with h0 h1 h2 h3 h4 h5 h6
  · cases h; exact reads_of_encode_eq rfl (encodeI_of_selectors h0 hop)
  · exact reads_of_unexaminedFunct7 h rfl (show "SLLI" ∈ unexaminedMnemonics by decide)
      (encodeShift_eq_clearFunct7 h1 hop)
  · cases h; exact reads_of_encode_eq rfl (encodeI_of_selectors h2 hop)
  · cases h; exact reads_of_encode_eq rfl (encodeI_of_selectors h3 hop)
  · cases h; exact reads_of_encode_eq rfl (encodeI_of_selectors h4 hop)
  · exact reads_of_examinedFunct7 h ⟨rfl, fun h7 => encodeShift_of_selectors h7 h5 hop⟩
      ⟨rfl, fun h7 => encodeShift_of_selectors h7 h5 hop⟩
  · cases h; exact reads_of_encode_eq rfl (encodeI_of_selectors h6 hop)
  · cases h; exact reads_of_encode_eq rfl (encodeI_of_selectors (funct3_last h0 h1 h2 h3 h4 h5 h6) hop)

theorem reads_of_decodeAluRegister {strict : Bool} {w : Word} {i : Instr} (hop : opcodeField w = 0b0110011#7)
    (h : decodeAluRegister strict w = .ok i) : Reads strict w i := by
  unfold decodeAluRegister at h
  split_ifs at h with h0 h1 h2 h3 h4 h5 h6
  · exact reads_of_examinedFunct7 h ⟨rfl, fun h7 => encodeR_of_selectors h7 h0 hop⟩
      ⟨rfl, fun h7 => encodeR_of_selectors h7 h0 hop⟩
  · exact reads_of_unexaminedFunct7 h rfl (show "SLL" ∈ unexaminedMnemonics by decide)
      (encodeR_eq_clearFunct7 h1 hop)
  · exact reads_of_unexaminedFunct7 h rfl (show "SLT" ∈ unexaminedMnemonics by decide)
      (encodeR_eq_clearFunct7 h2 hop)
  · exact reads_of_unexaminedFunct7 h rfl (show "SLTU" ∈ unexaminedMnemonics by decide)
      (encodeR_eq_clearFunct7 h3 hop)
  · exact reads_of_unexaminedFunct7 h rfl (show "XOR" ∈ unexaminedMnemonics by decide)
      (encodeR_eq_clearFunct7 h4 hop)
  · exact reads_of_examinedFunct7 h ⟨rfl, fun h7 => encodeR_of_selectors h7 h5 hop⟩
      ⟨rfl, fun h7 => encodeR_of_selectors h7 h5 hop⟩
  · exact reads_of_unexaminedFunct7 h rfl (show "OR" ∈ unexaminedMnemonics by decide)
      (encodeR_eq_clearFunct7 h6 hop)
  · exact reads_of_unexaminedFunct7 h rfl (show "AND" ∈ unexaminedMnemonics by decide)
      (encodeR_eq_clearFunct7 (funct3_last h0 h1 h2 h3 h4 h5 h6) hop)

theorem reads_of_decodeSystem {strict : Bool} {w : Word} {i : Instr} (hop : opcodeField w = 0b1110011#7)
    (h : decodeSystem w = .ok i) : Reads strict w i := by
  unfold decodeSystem at h
  split_ifs at h with h0 hecall hebreak h2
  · cases h; exact reads_of_encode_eq rfl hecall.symm
  · cases h; exact reads_of_encode_eq rfl hebreak.symm
  · cases h; exact reads_of_encode_eq rfl (encodeI_of_selectors h2 hop)

/-- Every word that decodes is the encoding of what it decodes to, but for a funct7 the tree does not examine. -/
theorem reads_of_decode {strict : Bool} {w : Word} {i : Instr} (h : decode strict w = .ok i) : Reads strict w i := by
  unfold decode at h
  split_ifs at h with hlui hauipc hjal hjalr hbranch hload hstore haluI haluR hsystem
  · cases h; exact reads_of_encode_eq rfl (encodeU_of_opcode hlui)
  · cases h; exact reads_of_encode_eq rfl (encodeU_of_opcode hauipc)
  · cases h; exact reads_of_encode_eq (evenOffset_bitsJ w) (encodeJ_of_opcode hjal)
  · exact reads_of_decodeJalr hjalr h
  · exact reads_of_decodeBranch hbranch h
  · exact reads_of_decodeLoad hload h
  · exact reads_of_decodeStore hstore h
  · exact reads_of_decodeAluImmediate haluI h
  · exact reads_of_decodeAluRegister haluR h
  · exact reads_of_decodeSystem hsystem h

/-- Only the shifts and register-register operations of `unexaminedMnemonics` have a second word. -/
theorem encode_of_decode {strict : Bool} {w : Word} {i : Instr} (h : decode strict w = .ok i)
    (hm : i.mnemonic ∉ unexaminedMnemonics) : encode i = w := by
  rcases (reads_of_decode h).2 with he | ⟨-, hmem, -⟩
  · exact he
  · exact absurd hmem hm

/-- Settles O9: under `FUNCT7_STRICT = true` no funct7 goes unexamined. -/
theorem encodeInvertsStrictDecode : Obligations.EncodeInvertsStrictDecode := by
  intro w i h
  obtain ⟨hwf, he | ⟨hfalse, -, -⟩⟩ := reads_of_decode h
  · exact ⟨hwf, he⟩
  · exact absurd hfalse (by decide)

/-- A word that is the encoding of what it decodes to decodes the same under the other `FUNCT7_STRICT`. -/
theorem decode_of_encode_eq (strict : Bool) {w : Word} {i : Instr} (hwf : i.WellFormed = true) (he : encode i = w) :
    decode strict w = .ok i :=
  he ▸ decodeReadsBackEveryEncoding strict i hwf

/-- Settles O11: what decodes under the strict parameter is its own encoding, and so is a word with funct7 0000000. -/
theorem strictFunct7OnlyRemovesWords : Obligations.StrictFunct7OnlyRemovesWords := by
  constructor
  · intro w i h
    obtain ⟨hwf, he⟩ := encodeInvertsStrictDecode w i h
    exact decode_of_encode_eq false hwf he
  · intro w i e hfalse htrue
    obtain ⟨hwf, hword⟩ := reads_of_decode hfalse
    have hne : encode i ≠ w := fun he => by simp [decode_of_encode_eq true hwf he] at htrue
    obtain he | ⟨-, hm, he⟩ := hword
    · exact absurd he hne
    · exact ⟨fun h7 => hne (he.trans (clearFunct7_of_funct7_zero h7)), hm⟩

end Sys2Proof.Machine

namespace Sys2Proof.Machine

/-! ### The dispatch tree against the opcode table (spec/opcode_table.json) -/

/-- Every instruction's encoding lies in the row of the table with its mnemonic. -/
theorem encode_matches_row (i : Instr) : Laws.EncodeMatches.Statement i := by
  cases i with
  | lui => exact Laws.EncodeMatches.lui _ _
  | auipc => exact Laws.EncodeMatches.auipc _ _
  | jal => exact Laws.EncodeMatches.jal _ _
  | jalr => exact Laws.EncodeMatches.jalr _ _ _
  | beq => exact Laws.EncodeMatches.beq _ _ _
  | bne => exact Laws.EncodeMatches.bne _ _ _
  | blt => exact Laws.EncodeMatches.blt _ _ _
  | bge => exact Laws.EncodeMatches.bge _ _ _
  | bltu => exact Laws.EncodeMatches.bltu _ _ _
  | bgeu => exact Laws.EncodeMatches.bgeu _ _ _
  | lb => exact Laws.EncodeMatches.lb _ _ _
  | lh => exact Laws.EncodeMatches.lh _ _ _
  | lw => exact Laws.EncodeMatches.lw _ _ _
  | lbu => exact Laws.EncodeMatches.lbu _ _ _
  | lhu => exact Laws.EncodeMatches.lhu _ _ _
  | sb => exact Laws.EncodeMatches.sb _ _ _
  | sh => exact Laws.EncodeMatches.sh _ _ _
  | sw => exact Laws.EncodeMatches.sw _ _ _
  | addi => exact Laws.EncodeMatches.addi _ _ _
  | slti => exact Laws.EncodeMatches.slti _ _ _
  | sltiu => exact Laws.EncodeMatches.sltiu _ _ _
  | xori => exact Laws.EncodeMatches.xori _ _ _
  | ori => exact Laws.EncodeMatches.ori _ _ _
  | andi => exact Laws.EncodeMatches.andi _ _ _
  | slli => exact Laws.EncodeMatches.slli _ _ _
  | srli => exact Laws.EncodeMatches.srli _ _ _
  | srai => exact Laws.EncodeMatches.srai _ _ _
  | add => exact Laws.EncodeMatches.add _ _ _
  | sub => exact Laws.EncodeMatches.sub _ _ _
  | sll => exact Laws.EncodeMatches.sll _ _ _
  | slt => exact Laws.EncodeMatches.slt _ _ _
  | sltu => exact Laws.EncodeMatches.sltu _ _ _
  | xor => exact Laws.EncodeMatches.xor _ _ _
  | srl => exact Laws.EncodeMatches.srl _ _ _
  | sra => exact Laws.EncodeMatches.sra _ _ _
  | or => exact Laws.EncodeMatches.or _ _ _
  | and => exact Laws.EncodeMatches.and _ _ _
  | ecall => exact Laws.EncodeMatches.ecall
  | ebreak => exact Laws.EncodeMatches.ebreak
  | csrrs => exact Laws.EncodeMatches.csrrs _ _ _

/-- The rows of the instructions with an unexamined funct7 leave funct7 out of their mask. -/
theorem mask_of_unexaminedMnemonic :
    ∀ row ∈ opcodeTable, row.mnemonic ∈ unexaminedMnemonics → row.mask = 0x0000707F#32 := by decide

/-- A word that decodes matches the row with its instruction's mnemonic. -/
theorem matches_row_of_decode {strict : Bool} {w : Word} {i : Instr} (h : decode strict w = .ok i) :
    ∃ row ∈ opcodeTable, row.mnemonic = i.mnemonic ∧ w &&& row.mask = row.value := by
  obtain ⟨row, hrow, hname, hvalue⟩ := encode_matches_row i
  refine ⟨row, hrow, hname, ?_⟩
  obtain ⟨-, rfl | ⟨-, hm, he⟩⟩ := reads_of_decode h
  · exact hvalue
  · rwa [he, mask_of_unexaminedMnemonic row hrow (hname ▸ hm), clearFunct7_and_funct3Mask,
      ← mask_of_unexaminedMnemonic row hrow (hname ▸ hm)] at hvalue

/-- Every word of the row is an instruction, with `FUNCT7_STRICT = false`. -/
def RowIsLegal (row : OpcodeRow) : Prop :=
  ∃ instr : Word → Instr, ∀ w : Word, w &&& row.mask = row.value → decode false w = .ok (instr w)

theorem rowIsLegal_of_rowDecodes {mnemonic : String} {value mask : Word} {instr : Word → Instr}
    (h : RowDecodes value mask instr) : RowIsLegal ⟨mnemonic, value, mask⟩ := ⟨instr, h false⟩

theorem rowIsLegal_of_rowDecodesAnyFunct7 {mnemonic : String} {value mask : Word} {instr : Word → Instr}
    (h : RowDecodesAnyFunct7 value mask instr) : RowIsLegal ⟨mnemonic, value, mask⟩ := ⟨instr, fun w hw => (h w hw).1⟩

/-- A row that is one whole word. -/
theorem rowIsLegal_of_word {mnemonic : String} {value : Word} {i : Instr} (h : decode false value = .ok i) :
    RowIsLegal ⟨mnemonic, value, 0xFFFFFFFF⟩ := by
  refine ⟨fun _ => i, fun w hw => ?_⟩
  have hword : w = value := (BitVec.and_allOnes (x := w)).symm.trans hw
  rwa [hword]

theorem upperTable_legal : ∀ row ∈ upperTable, RowIsLegal row := by
  simp only [upperTable, List.forall_mem_cons, List.not_mem_nil, false_imp_iff, implies_true, and_true]
  exact ⟨rowIsLegal_of_rowDecodes luiWritesUpperImmediate.1, rowIsLegal_of_rowDecodes auipcAddsUpperImmediateToPc.1⟩

theorem jumpTable_legal : ∀ row ∈ jumpTable, RowIsLegal row := by
  simp only [jumpTable, List.forall_mem_cons, List.not_mem_nil, false_imp_iff, implies_true, and_true]
  exact ⟨rowIsLegal_of_rowDecodes jalLinksAndJumps.1, rowIsLegal_of_rowDecodes rowDecodes_jalr⟩

theorem branchTable_legal : ∀ row ∈ branchTable, RowIsLegal row := by
  simp only [branchTable, List.forall_mem_cons, List.not_mem_nil, false_imp_iff, implies_true, and_true]
  obtain ⟨hbeq, hbne, -⟩ := equalityBranchesDecide
  obtain ⟨hblt, hbge, -⟩ := signedBranchesDecide
  obtain ⟨hbltu, hbgeu, -⟩ := unsignedBranchesDecide
  exact ⟨rowIsLegal_of_rowDecodes hbeq, rowIsLegal_of_rowDecodes hbne, rowIsLegal_of_rowDecodes hblt,
    rowIsLegal_of_rowDecodes hbge, rowIsLegal_of_rowDecodes hbltu, rowIsLegal_of_rowDecodes hbgeu⟩

theorem loadTable_legal : ∀ row ∈ loadTable, RowIsLegal row := by
  simp only [loadTable, List.forall_mem_cons, List.not_mem_nil, false_imp_iff, implies_true, and_true]
  obtain ⟨hlb, hlbu, -⟩ := byteLoadsExtend
  obtain ⟨hlh, hlhu, -⟩ := halfwordLoadsExtend
  obtain ⟨hlw, -⟩ := wordLoadReadsLittleEndian
  exact ⟨rowIsLegal_of_rowDecodes hlb, rowIsLegal_of_rowDecodes hlh, rowIsLegal_of_rowDecodes hlw,
    rowIsLegal_of_rowDecodes hlbu, rowIsLegal_of_rowDecodes hlhu⟩

theorem storeTable_legal : ∀ row ∈ storeTable, RowIsLegal row := by
  simp only [storeTable, List.forall_mem_cons, List.not_mem_nil, false_imp_iff, implies_true, and_true]
  exact ⟨rowIsLegal_of_rowDecodes byteStoreWritesLowByte.1, rowIsLegal_of_rowDecodes halfwordStoreWritesTwoBytes.1,
    rowIsLegal_of_rowDecodes wordStoreWritesFourBytes.1⟩

theorem aluImmediateTable_legal : ∀ row ∈ aluImmediateTable, RowIsLegal row := by
  simp only [aluImmediateTable, List.forall_mem_cons, List.not_mem_nil, false_imp_iff, implies_true, and_true]
  obtain ⟨hslti, hsltiu, -⟩ := immediateComparisonsWriteOneOrZero
  obtain ⟨hxori, hori, handi, -⟩ := immediateLogicIsBitwise
  obtain ⟨hslli, hsrli, hsrai, -⟩ := immediateShiftsMoveBits
  exact ⟨rowIsLegal_of_rowDecodes addiAddsSignExtendedImmediate.1, rowIsLegal_of_rowDecodes hslti,
    rowIsLegal_of_rowDecodes hsltiu, rowIsLegal_of_rowDecodes hxori, rowIsLegal_of_rowDecodes hori,
    rowIsLegal_of_rowDecodes handi, rowIsLegal_of_rowDecodesAnyFunct7 hslli, rowIsLegal_of_rowDecodes hsrli,
    rowIsLegal_of_rowDecodes hsrai⟩

theorem aluRegisterTable_legal : ∀ row ∈ aluRegisterTable, RowIsLegal row := by
  simp only [aluRegisterTable, List.forall_mem_cons, List.not_mem_nil, false_imp_iff, implies_true, and_true]
  obtain ⟨hadd, hsub, -⟩ := registerAddAndSubtractWrap
  obtain ⟨hsll, hsrl, hsra, -⟩ := registerShiftsMoveBits
  obtain ⟨hslt, hsltu, -⟩ := registerComparisonsWriteOneOrZero
  obtain ⟨hxor, hor, hand, -⟩ := registerLogicIsBitwise
  exact ⟨rowIsLegal_of_rowDecodes hadd, rowIsLegal_of_rowDecodes hsub, rowIsLegal_of_rowDecodesAnyFunct7 hsll,
    rowIsLegal_of_rowDecodesAnyFunct7 hslt, rowIsLegal_of_rowDecodesAnyFunct7 hsltu,
    rowIsLegal_of_rowDecodesAnyFunct7 hxor, rowIsLegal_of_rowDecodes hsrl, rowIsLegal_of_rowDecodes hsra,
    rowIsLegal_of_rowDecodesAnyFunct7 hor, rowIsLegal_of_rowDecodesAnyFunct7 hand⟩

theorem systemTable_legal : ∀ row ∈ systemTable, RowIsLegal row := by
  simp only [systemTable, List.forall_mem_cons, List.not_mem_nil, false_imp_iff, implies_true, and_true]
  exact ⟨rowIsLegal_of_word (decode_ecall_word false), rowIsLegal_of_word (decode_ebreak_word false),
    rowIsLegal_of_rowDecodes rowDecodes_csrrs⟩

theorem opcodeTable_legal : ∀ row ∈ opcodeTable, RowIsLegal row := by
  simp only [opcodeTable, List.forall_mem_append]
  exact ⟨⟨⟨⟨⟨⟨⟨upperTable_legal, jumpTable_legal⟩, branchTable_legal⟩, loadTable_legal⟩, storeTable_legal⟩,
    aluImmediateTable_legal⟩, aluRegisterTable_legal⟩, systemTable_legal⟩

/-- Two rows one word matches agree on the bits both of them fix. -/
theorem rows_agree_of_matches {w : Word} {r q : OpcodeRow} (hr : w &&& r.mask = r.value)
    (hq : w &&& q.mask = q.value) : r.value &&& q.mask = q.value &&& r.mask := by
  rw [← hr, ← hq, BitVec.and_assoc, BitVec.and_assoc, BitVec.and_comm r.mask]

/-- Any two rows of the table differ in a bit both of them fix. -/
theorem opcodeTable_rows_disagree :
    opcodeTable.Pairwise (fun r q => r.value &&& q.mask ≠ q.value &&& r.mask) := by decide

/-- Settles O10: a word that decodes is an encoding up to funct7, every row decodes, and no two rows share a word. -/
theorem dispatchTreeIsTheOpcodeTable : Obligations.DispatchTreeIsTheOpcodeTable := by
  refine ⟨fun w i h => matches_row_of_decode h, fun w e h row hrow hmatch => ?_,
    opcodeTable_rows_disagree.imp fun hne w hw => hne (rows_agree_of_matches hw.1 hw.2)⟩
  obtain ⟨instr, hlegal⟩ := opcodeTable_legal row hrow
  simp [hlegal w hmatch] at h

end Sys2Proof.Machine

namespace Sys2Proof.Machine

/-! ### Words without an instruction (48_system.md R263 to R265, 30_encoding.md R108, R110) -/

theorem decode_error_of_system_funct3 {strict : Bool} {w value : Word} (h : w &&& 0x0000707F = value)
    (hop : opcodeField value = 0b1110011#7) (h0 : funct3Field value ≠ 0b000#3) (h2 : funct3Field value ≠ 0b010#3) :
    ∃ e, decode strict w = .error e := by
  have hf3 : funct3Field w = funct3Field value := funct3Field_of_masked h (by decide)
  refine ⟨.unknownFunct3, (decode_of_opcode_system strict ((opcodeField_of_masked h (by decide)).trans hop)).trans ?_⟩
  exact decodeSystem_of_funct3_other (hf3 ▸ h0) (hf3 ▸ h2)

theorem decode_error_of_opcode_miscMem (strict : Bool) {w : Word} (h : opcodeField w = 0b0001111#7) :
    ∃ e, decode strict w = .error e :=
  ⟨.unknownOpcode, by simp [decode, h]⟩

theorem decode_error_of_system_funct3_zero (strict : Bool) {w : Word} (h : w &&& 0x0000707F = 0x00000073)
    (hecall : w ≠ 0x00000073) (hebreak : w ≠ 0x00100073) : ∃ e, decode strict w = .error e :=
  ⟨.unknownSystemWord, (decode_of_opcode_system strict (opcodeField_of_masked h (by decide))).trans
    (decodeSystem_of_funct3_zero (funct3Field_of_masked h (by decide)) hecall hebreak)⟩

/-- Settles O12: each word's opcode and funct3 take a default branch of the tree. -/
theorem unimplementedSystemWordsAreIllegal : Obligations.UnimplementedSystemWordsAreIllegal := by
  intro strict w
  refine ⟨?_, decode_error_of_opcode_miscMem strict, decode_error_of_system_funct3_zero strict, fun h => ?_,
    fun hop h3 => ⟨_, (decode_of_opcode_jalr strict hop).trans (decodeJalr_of_funct3_ne_zero h3)⟩⟩
  · rintro (h | h | h | h | h)
    · exact decode_error_of_system_funct3 h (by decide) (by decide) (by decide)
    · exact decode_error_of_system_funct3 h (by decide) (by decide) (by decide)
    · exact decode_error_of_system_funct3 h (by decide) (by decide) (by decide)
    · exact decode_error_of_system_funct3 h (by decide) (by decide) (by decide)
    · exact decode_error_of_system_funct3 h (by decide) (by decide) (by decide)
  · exact decode_error_of_system_funct3 h (by decide) (by decide) (by decide)

/-! ### ECALL and EBREAK (48_system.md R260, R261, 60_exceptions.md R303) -/

theorem decode_eq_ecall_iff (strict : Bool) (w : Word) : decode strict w = .ok .ecall ↔ w = 0x00000073 := by
  constructor
  · intro h
    exact (encode_of_decode h (by decide)).symm
  · rintro rfl
    exact decode_ecall_word strict

theorem decode_eq_ebreak_iff (strict : Bool) (w : Word) : decode strict w = .ok .ebreak ↔ w = 0x00100073 := by
  constructor
  · intro h
    exact (encode_of_decode h (by decide)).symm
  · rintro rfl
    exact decode_ebreak_word strict

theorem exec_ecall (s : State) : exec .ecall s = .next (s.raise .environmentCall) := rfl

theorem exec_ebreak (s : State) : exec .ebreak s = .next (s.raise .environmentBreak) := rfl

/-- Settles O37: the whole word is compared, and the meaning is `raise`. -/
theorem ecallHaltsInPlace : Obligations.EcallHaltsInPlace :=
  ⟨decode_eq_ecall_iff, fun s => ⟨_, exec_ecall s, onlyHalts_raise s .environmentCall⟩⟩

/-- Settles O38: the whole word is compared, and the meaning is `raise`. -/
theorem ebreakHaltsInPlace : Obligations.EbreakHaltsInPlace :=
  ⟨decode_eq_ebreak_iff, fun s => ⟨_, exec_ebreak s, onlyHalts_raise s .environmentBreak⟩⟩

/-! ### The spec's sample words (95_test_vectors.md) -/

/-- Settles O7: each word is the encoding of the instruction beside it, which the decoder reads back. -/
theorem sampleWordsDecode : Obligations.SampleWordsDecode :=
  ⟨decode_of_encode_eq false rfl rfl, decode_of_encode_eq false rfl rfl, decode_of_encode_eq false rfl rfl,
    decode_of_encode_eq false rfl rfl, decode_of_encode_eq false rfl rfl, decode_of_encode_eq false rfl rfl,
    decode_of_encode_eq false rfl rfl, decode_of_encode_eq false rfl rfl, decode_of_encode_eq false rfl rfl,
    decode_of_encode_eq false rfl rfl, decode_ebreak_word false, decode_of_encode_eq false rfl rfl⟩

end Sys2Proof.Machine

namespace Sys2Proof.Machine

/-! ### The word a running hart fetches, and the state it executes it in (40_fetch_dispatch.md R130 to R133) -/

/-- The state in which a running hart executes its word: counted, with the reports of the fetch. -/
def State.afterFetch (s : State) : State := s.countInstruction.report (accessReports s.cfg .read s.pc 4)

@[simp] theorem State.afterFetch_cfg (s : State) : s.afterFetch.cfg = s.cfg := rfl
@[simp] theorem State.afterFetch_pc (s : State) : s.afterFetch.pc = s.pc := rfl
@[simp] theorem State.afterFetch_icount (s : State) : s.afterFetch.icount = s.icount + 1 := rfl
@[simp] theorem State.afterFetch_halted (s : State) : s.afterFetch.halted = s.halted := rfl
@[simp] theorem State.afterFetch_haltReason (s : State) : s.afterFetch.haltReason = s.haltReason := rfl
@[simp] theorem State.afterFetch_mem (s : State) : s.afterFetch.mem = s.mem := rfl
@[simp] theorem State.afterFetch_oorLog (s : State) :
    s.afterFetch.oorLog = s.oorLog ++ accessReports s.cfg .read s.pc 4 := rfl
@[simp] theorem State.afterFetch_readReg (s : State) (i : RegIdx) : s.afterFetch.readReg i = s.readReg i := rfl
@[simp] theorem State.afterFetch_byteAt (s : State) (a : Nat) : s.afterFetch.byteAt a = s.byteAt a := rfl

theorem step_eq_execute_afterFetch {s : State} (h : s.halted = false) :
    step s = execute (s.readValue s.pc .word) s.afterFetch :=
  step_of_running h

/-- A step that answers a next state: the hart was halted and nothing happened, or it executed the fetched word. -/
theorem step_next_afterFetch {s t : State} (h : step s = .next t) :
    (s.halted = true ∧ t = s) ∨ (s.halted = false ∧ execute (s.readValue s.pc .word) s.afterFetch = .next t) :=
  step_next h

/-- The fetched word is the word at `pc`, where the fetch is in range or checked byte by byte. -/
theorem fetchedWord_eq_wordAtPc {s : State} (h : InRange s.cfg s.pc 4 ∨ s.cfg.oorPolicy = .perByte) :
    s.readValue s.pc .word = WordAtPc s := by
  rcases h with hr | hp
  · rw [State.readValue_inRange (w := .word) hr, composeBytes_word_eq_wordAtPc]
  · rw [State.readValue_perByte hp, composeBytes_word_eq_wordAtPc]

theorem execute_of_decode_error {insn : Word} {e : DecodeError} {s : State}
    (h : decode s.cfg.funct7Strict insn = .error e) : execute insn s = .next (s.raise .illegalInstruction) := by
  unfold execute
  rw [h]
  rfl

/-- The word 0, which a fetch out of range gives, is no instruction (R132 (c)). -/
theorem decode_zero (strict : Bool) : decode strict 0 = .error .unknownOpcode := rfl

/-- Under `OOR_POLICY = whole` a hart whose fetch is out of range halts (R132). -/
theorem step_of_outOfRange {s : State} (h : s.halted = false) (hp : s.cfg.oorPolicy = .whole)
    (hr : ¬ InRange s.cfg s.pc 4) : step s = .next (s.afterFetch.raise .illegalInstruction) := by
  rw [step_eq_execute_afterFetch h, State.readValue_outOfRange (w := .word) hp hr,
    execute_of_decode_error (decode_zero _)]

/-- Settles O41: the word in range is executed after counting, and one that does not decode raises. -/
theorem illegalWordHaltsInPlace : Obligations.IllegalWordHaltsInPlace := by
  intro s e hrun hrange hdecode
  have hcounted : decode s.countInstruction.cfg.funct7Strict (WordAtPc s) = .error e := hdecode
  exact ⟨_, (step_eq_execute_wordAtPc hrun hrange).trans (execute_of_decode_error hcounted), onlyHalts_raise _ _⟩

/-- Settles O42: the fetch makes its one report and gives the word 0, which is illegal. -/
theorem outOfRangeFetchHalts : Obligations.OutOfRangeFetchHalts := by
  intro s hrun hp hr
  have hreport : s.afterFetch = { s with icount := s.icount + 1, oorLog := s.oorLog ++ [⟨.read, s.pc, 4⟩] } := by
    rw [State.afterFetch, accessReports_whole .read hp hr]
    rfl
  exact ⟨_, step_of_outOfRange hrun hp hr, hreport ▸ onlyHalts_raise s.afterFetch .illegalInstruction⟩

/-- Settles O43: under `per_byte` the fetched word is the word at `pc` whatever the range. -/
theorem perByteFetchRunsTheComposedWord : Obligations.PerByteFetchRunsTheComposedWord := by
  intro s hrun hp
  have hstep : step s = execute (WordAtPc s) s.afterFetch := by
    rw [step_eq_execute_afterFetch hrun, fetchedWord_eq_wordAtPc (.inr hp)]
  refine ⟨accessReports s.cfg .read s.pc 4, accessReports_eq_nil (by decide), fun i hi => ?_, fun e he => ?_⟩
  · have hdecode : decode s.afterFetch.cfg.funct7Strict (WordAtPc s) = .ok i := hi
    exact hstep.trans (execute_of_decode_ok hdecode)
  · have hdecode : decode s.afterFetch.cfg.funct7Strict (WordAtPc s) = .error e := he
    exact ⟨_, hstep.trans (execute_of_decode_error hdecode), onlyHalts_raise s.afterFetch .illegalInstruction⟩

/-! ### Every tick completes (60_exceptions.md R302) -/

theorem step_completes (s : State) : ∃ t, step s = .next t := by
  cases h : s.halted with
  | true => exact ⟨s, step_of_halted h⟩
  | false =>
    rw [step_eq_execute_afterFetch h]
    exact execute_completes _ _

/-- Settles O50, by induction on the number of steps: each step answers a state, from which the run goes on. -/
theorem everyTickCompletes : Obligations.EveryTickCompletes := by
  intro n
  induction n with
  | zero => exact fun s => ⟨s, rfl⟩
  | succ n ih =>
    intro s
    obtain ⟨t, ht⟩ := step_completes s
    obtain ⟨u, hu⟩ := ih t
    exact ⟨u, (run_succ_of_step (M := core) n ht).trans hu⟩

end Sys2Proof.Machine

namespace Sys2Proof.Machine

/-! ### What every shape of a next state keeps -/

theorem Shape.cfg_eq {s t : State} (h : Shape s t) : t.cfg = s.cfg := by
  cases h <;> simp

theorem Shape.icount_eq {s t : State} (h : Shape s t) : t.icount = s.icount := by
  cases h <;> simp

/-- Under `OOR_POLICY = whole` an access makes at most one report. -/
theorem accessReports_length_le {c : Config} {kind : AccessKind} {a : Word} {n : Nat} (hp : c.oorPolicy = .whole) :
    (accessReports c kind a n).length ≤ 1 := by
  by_cases hr : InRange c a n
  · simp [accessReports_inRange kind hr]
  · simp [accessReports_whole kind hp hr]

/-- The log only grows, under `OOR_POLICY = whole` by at most one report. -/
theorem Shape.oorLog_eq {s t : State} (h : Shape s t) :
    ∃ reports, t.oorLog = s.oorLog ++ reports ∧ (s.cfg.oorPolicy = .whole → reports.length ≤ 1) := by
  cases h with
  | move rd v pc' => exact ⟨[], by simp, by simp⟩
  | jump pc' => exact ⟨[], by simp, by simp⟩
  | load a w rd v => exact ⟨accessReports s.cfg .read a w.bytes, by simp, accessReports_length_le⟩
  | store a w v => exact ⟨accessReports s.cfg .write a w.bytes, rfl, accessReports_length_le⟩
  | halt cause h => exact ⟨[], by simp, by simp⟩

/-- A state that differs from one of the invariant in nothing the invariant speaks of. -/
theorem State.Inv.congr {s t : State} (hs : s.Inv) (hcfg : t.cfg = s.cfg) (hmem : t.mem = s.mem)
    (hhalted : t.halted = s.halted) (hreason : t.haltReason = s.haltReason) : t.Inv where
  lawful := hcfg ▸ hs.lawful
  memory := by rw [hcfg, hmem]; exact hs.memory
  reason := by rw [hhalted, hreason]; exact hs.reason

/-- Only a store changes memory, keeping the canonical form; only a halt changes the halt state, giving a reason. -/
theorem Shape.inv {s t : State} (h : Shape s t) (hs : s.Inv) : t.Inv := by
  cases h with
  | move rd v pc' => exact hs.congr (by simp) (by simp) (by simp) (by simp)
  | jump pc' => exact hs.congr rfl rfl rfl rfl
  | load a w rd v => exact hs.congr (by simp) (by simp) (by simp) (by simp)
  | store a w v => exact ⟨hs.lawful, State.memWrite_wf a w v hs.memory, hs.reason⟩
  | halt cause hcause => exact ⟨hs.lawful, hs.memory, ⟨fun _ => hcause, fun _ => rfl⟩⟩

/-- Settles O48: the fetch touches nothing of the invariant, and each shape keeps it. -/
theorem everyStepKeepsTheInvariant : Obligations.EveryStepKeepsTheInvariant := by
  intro s t hs hstep
  obtain ⟨-, rfl⟩ | ⟨-, hexec⟩ := step_next_afterFetch hstep
  · exact hs
  · exact (execute_shape hexec).inv (hs.congr rfl rfl rfl rfl)

/-- No step changes the parameters. -/
theorem step_cfg_eq {s t : State} (hstep : step s = .next t) : t.cfg = s.cfg := by
  obtain ⟨-, rfl⟩ | ⟨-, hexec⟩ := step_next_afterFetch hstep
  · rfl
  · exact (execute_shape hexec).cfg_eq

/-- The reports of a step. Under `OOR_POLICY = whole` a fetch that makes one gives an illegal word, which makes none. -/
theorem step_oorLog_eq {s t : State} (hrun : s.halted = false) (hstep : step s = .next t) :
    ∃ reports, t.oorLog = s.oorLog ++ reports ∧ (s.cfg.oorPolicy = .whole → reports.length ≤ 1) := by
  by_cases hout : s.cfg.oorPolicy = .whole ∧ ¬ InRange s.cfg s.pc 4
  · obtain ⟨hp, hr⟩ := hout
    rw [step_of_outOfRange hrun hp hr] at hstep
    cases hstep
    exact ⟨accessReports s.cfg .read s.pc 4, rfl, accessReports_length_le⟩
  · rw [step_eq_execute_afterFetch hrun] at hstep
    obtain ⟨reports, hlog, hlength⟩ := (execute_shape hstep).oorLog_eq
    refine ⟨accessReports s.cfg .read s.pc 4 ++ reports, by simp [hlog], fun hp => ?_⟩
    have hr : InRange s.cfg s.pc 4 := not_not.mp fun hr => hout ⟨hp, hr⟩
    rw [accessReports_inRange .read hr, List.nil_append]
    exact hlength hp

/-- Settles O46: the fetch counts once, and no shape counts or touches the parameters. -/
theorem stepCountsOneAndAppendsReports : Obligations.StepCountsOneAndAppendsReports := by
  intro s t hrun hstep
  refine ⟨?_, step_cfg_eq hstep, step_oorLog_eq hrun hstep⟩
  rw [step_eq_execute_afterFetch hrun] at hstep
  exact (execute_shape hstep).icount_eq

/-! ### CAPACITY (20_memory.md R51, the spec's decision D12) -/

theorem capacity_least (c : Config) :
    16 ∣ c.capacity ∧ c.memSize ≤ c.capacity ∧ ∀ k : Nat, 16 ∣ k → c.memSize ≤ k → c.capacity ≤ k := by
  refine ⟨⟨_, rfl⟩, ?_, ?_⟩
  · simp only [Config.capacity]
    omega
  · rintro _ ⟨k, rfl⟩ hk
    simp only [Config.capacity]
    omega

/-- Settles O4: rounding up is arithmetic, and a step keeps the parameters. -/
theorem capacityRoundsUpAndStays : Obligations.CapacityRoundsUpAndStays :=
  ⟨capacity_least, fun _ hc => hc.1, fun _ _ hstep => congrArg Config.capacity (step_cfg_eq hstep)⟩

/-! ### Reset (70_reset_and_hazards.md R340, R342, the spec's decision D14) -/

/-- Settles O1: reset's registers are the fill, everything else is a field of the update. -/
theorem hartResetLeavesSpecValues : Obligations.HartResetLeavesSpecValues :=
  ⟨fun s => ⟨s.hartReset_readReg, rfl, rfl, rfl, rfl, fun _ => rfl, rfl, rfl, rfl⟩,
    State.created_readReg Config.default⟩

/-- A hart just created already holds every value reset assigns. -/
theorem State.hartReset_created (c : Config) : (State.created c).hartReset = State.created c := rfl

/-- Settles O3: creation assigns what reset assigns, and an empty report log. -/
theorem createdHartIsInTheResetState : Obligations.CreatedHartIsInTheResetState :=
  fun c => ⟨State.hartReset_created c, State.created_oorLog c⟩

/-- A hart just created meets the invariant whenever its parameters are lawful. -/
theorem State.created_inv {c : Config} (hc : c.Lawful) : (State.created c).Inv :=
  ⟨hc, State.created_wf c, by simp⟩

/-- Settles O47: `State.reset` is the fresh hart of the default parameters, which are lawful. -/
theorem resetMeetsTheInvariant : Obligations.ResetMeetsTheInvariant :=
  State.created_inv (by decide)

end Sys2Proof.Machine

namespace Sys2Proof.Machine

/-! ### Only ECALL and EBREAK touch the halt bit -/

@[simp] theorem State.branchIf_halted (s : State) (c : Word → Word → Bool) (rs1 rs2 : RegIdx) (offset : BitVec 13) :
    (s.branchIf c rs1 rs2 offset).halted = s.halted := by
  unfold State.branchIf
  split <;> rfl

theorem exec_halted {i : Instr} {s t : State} (h : exec i s = .next t) (hecall : i ≠ .ecall) (hebreak : i ≠ .ebreak) :
    t.halted = s.halted := by
  cases i with
  | lui | auipc | addi | slti | sltiu | xori | ori | andi | slli | srli | srai | add | sub | sll | slt | sltu | xor
  | srl | sra | or | and | csrrs => cases h; exact State.writeAndAdvance_halted _ _ _
  | jal | jalr => cases h; exact State.writeReg_halted _ _ _
  | beq | bne | blt | bge | bltu | bgeu => cases h; exact State.branchIf_halted _ _ _ _ _
  | lb | lh | lw | lbu | lhu => cases h; exact State.writeAndAdvance_halted _ _ _
  | sb | sh | sw => cases h; rfl
  | ecall => exact absurd rfl hecall
  | ebreak => exact absurd rfl hebreak

/-- What a word does to a running hart: it halts it with one of the three causes, or leaves it running. -/
theorem execute_halts_or_runs {insn : Word} {s t : State} (hrun : s.halted = false) (h : execute insn s = .next t) :
    (∃ e, decode s.cfg.funct7Strict insn = .error e ∧ t = s.raise .illegalInstruction) ∨
    (insn = 0x00000073 ∧ t = s.raise .environmentCall) ∨ (insn = 0x00100073 ∧ t = s.raise .environmentBreak) ∨
    (∃ i, decode s.cfg.funct7Strict insn = .ok i ∧ insn ≠ 0x00000073 ∧ insn ≠ 0x00100073 ∧ t.halted = false) := by
  cases hd : decode s.cfg.funct7Strict insn with
  | error e =>
    rw [execute_of_decode_error hd] at h
    cases h
    exact .inl ⟨e, rfl, rfl⟩
  | ok i =>
    rw [execute_of_decode_ok hd] at h
    by_cases hecall : i = .ecall
    · subst hecall
      cases h
      exact .inr (.inl ⟨(decode_eq_ecall_iff _ _).mp hd, rfl⟩)
    · by_cases hebreak : i = .ebreak
      · subst hebreak
        cases h
        exact .inr (.inr (.inl ⟨(decode_eq_ebreak_iff _ _).mp hd, rfl⟩))
      · have hneCall : insn ≠ 0x00000073 := fun hw => by
          rw [(decode_eq_ecall_iff _ _).mpr hw] at hd
          exact hecall (Except.ok.inj hd).symm
        have hneBreak : insn ≠ 0x00100073 := fun hw => by
          rw [(decode_eq_ebreak_iff _ _).mpr hw] at hd
          exact hebreak (Except.ok.inj hd).symm
        exact .inr (.inr (.inr ⟨i, rfl, hneCall, hneBreak, (exec_halted h hecall hebreak).trans hrun⟩))

/-- Raising after the fetch is precise: the count and the fetch's reports are all that changed. -/
theorem raise_afterFetch_precise (s : State) (cause : HaltReason) :
    SameRegisters s (s.afterFetch.raise cause) ∧ (s.afterFetch.raise cause).pc = s.pc ∧
      SameMemory s (s.afterFetch.raise cause) ∧ (s.afterFetch.raise cause).icount = s.icount + 1 ∧
      (s.afterFetch.raise cause).cfg = s.cfg :=
  ⟨fun _ => rfl, rfl, fun _ => rfl, rfl, rfl⟩

/-- The two halting words do decode, so neither is illegal. -/
theorem decode_ne_error_of_halting_word {strict : Bool} {w : Word} (hw : w = 0x00000073 ∨ w = 0x00100073) :
    ¬ ∃ e, decode strict w = .error e := by
  rintro ⟨e, he⟩
  rcases hw with rfl | rfl
  · exact absurd ((decode_ecall_word strict).symm.trans he) (by simp)
  · exact absurd ((decode_ebreak_word strict).symm.trans he) (by simp)

/-- Settles O45: the fetched word halts the hart with its one cause, or leaves it running. -/
theorem onlyThreeCausesHalt : Obligations.OnlyThreeCausesHalt := by
  intro s t hrun hstep
  rw [step_eq_execute_afterFetch hrun] at hstep
  refine ⟨s.readValue s.pc .word, fun hr => fetchedWord_eq_wordAtPc (.inl hr),
    fun hp => fetchedWord_eq_wordAtPc (.inr hp), fun hp hr => State.readValue_outOfRange (w := .word) hp hr, ?_⟩
  obtain ⟨e, he, rfl⟩ | ⟨hw, rfl⟩ | ⟨hw, rfl⟩ | ⟨i, hi, hneCall, hneBreak, hruns⟩ :=
    execute_halts_or_runs (s := s.afterFetch) hrun hstep
  · have hillegal : ∃ e, decode s.cfg.funct7Strict (s.readValue s.pc .word) = .error e := ⟨e, he⟩
    exact ⟨⟨fun _ => .inl hillegal, fun _ => rfl⟩, fun _ => rfl,
      fun hw => absurd hillegal (decode_ne_error_of_halting_word (.inl hw)),
      fun hw => absurd hillegal (decode_ne_error_of_halting_word (.inr hw)), fun _ => raise_afterFetch_precise s _⟩
  · exact ⟨⟨fun _ => .inr (.inl hw), fun _ => rfl⟩,
      fun he => absurd he (decode_ne_error_of_halting_word (.inl hw)), fun _ => rfl,
      fun hw' => absurd (hw.symm.trans hw') (by decide), fun _ => raise_afterFetch_precise s _⟩
  · exact ⟨⟨fun _ => .inr (.inr hw), fun _ => rfl⟩,
      fun he => absurd he (decode_ne_error_of_halting_word (.inr hw)),
      fun hw' => absurd (hw.symm.trans hw') (by decide), fun _ => rfl, fun _ => raise_afterFetch_precise s _⟩
  · have hlegal : ¬ ∃ e, decode s.cfg.funct7Strict (s.readValue s.pc .word) = .error e := by
      rintro ⟨e, he⟩
      exact absurd (he.symm.trans hi) (by simp)
    have hnot : t.halted ≠ true := by simp [hruns]
    exact ⟨⟨fun ht => absurd ht hnot, fun hor => absurd hor (not_or.mpr ⟨hlegal, not_or.mpr ⟨hneCall, hneBreak⟩⟩)⟩,
      fun he => absurd he hlegal, fun hw => absurd hw hneCall, fun hw => absurd hw hneBreak,
      fun ht => absurd ht hnot⟩

/-! ### The parity of `pc` (10_state.md R28, the spec's decisions D9, D13) -/

theorem even_add {a b : Word} (ha : a.getLsbD 0 = false) (hb : b.getLsbD 0 = false) : (a + b).getLsbD 0 = false := by
  rw [BitVec.getLsbD_add (by decide), ha, hb, BitVec.carry_zero]
  rfl

theorem even_add_four {a : Word} (ha : a.getLsbD 0 = false) : (a + 4).getLsbD 0 = false :=
  even_add ha (by decide)

/-- Sign extension keeps bit 0 of an offset, which the encoding forces to 0 (R99, R101). -/
theorem even_add_offset {n : Nat} {a : Word} {offset : BitVec n} (ha : a.getLsbD 0 = false)
    (ho : evenOffset offset = true) : (a + offset.signExtend 32).getLsbD 0 = false := by
  refine even_add ha ?_
  rw [signExtend_getLsbD_min _ (by decide), Nat.zero_min]
  simpa [evenOffset] using ho

/-- Writing a register and advancing keeps an even `pc` even. -/
theorem State.writeAndAdvance_even {s : State} (hs : s.pc.getLsbD 0 = false) (rd : RegIdx) (v : Word) :
    (s.writeAndAdvance rd v).pc.getLsbD 0 = false :=
  (s.writeAndAdvance_pc rd v).symm ▸ even_add_four hs

theorem State.branchIf_even {s : State} (hs : s.pc.getLsbD 0 = false) {offset : BitVec 13}
    (ho : evenOffset offset = true) (c : Word → Word → Bool) (rs1 rs2 : RegIdx) :
    (s.branchIf c rs1 rs2 offset).pc.getLsbD 0 = false := by
  by_cases hc : c (s.readReg rs1) (s.readReg rs2) = true
  · rw [State.branchIf_of_taken hc]
    exact even_add_offset hs ho
  · rw [State.branchIf_of_not_taken hc]
    exact even_add_four hs

/-- An instruction that has an encoding keeps an even `pc` even. -/
theorem exec_even {i : Instr} {s t : State} (hwf : i.WellFormed = true) (hs : s.pc.getLsbD 0 = false)
    (h : exec i s = .next t) : t.pc.getLsbD 0 = false := by
  cases i with
  | lui | auipc | addi | slti | sltiu | xori | ori | andi | slli | srli | srai | add | sub | sll | slt | sltu | xor
  | srl | sra | or | and | csrrs => cases h; exact State.writeAndAdvance_even hs _ _
  | jal => cases h; exact even_add_offset hs hwf
  | jalr => cases h; exact clearBit0_getLsbD _ 0
  | beq | bne | blt | bge | bltu | bgeu => cases h; exact State.branchIf_even hs hwf _ _ _
  | lb | lh | lw | lbu | lhu => cases h; exact State.writeAndAdvance_even (s := State.report _ _) hs _ _
  | sb | sh | sw => cases h; exact even_add_four hs
  | ecall | ebreak => cases h; exact hs

/-- Settles O49: what decodes has an even offset, and an illegal word leaves `pc` alone. -/
theorem pcStaysEven : Obligations.PcStaysEven := by
  intro s t hs hstep
  obtain ⟨-, rfl⟩ | ⟨-, hexec⟩ := step_next_afterFetch hstep
  · exact hs
  · cases hd : decode s.afterFetch.cfg.funct7Strict (s.readValue s.pc .word) with
    | ok i =>
      rw [execute_of_decode_ok hd] at hexec
      exact exec_even (s := s.afterFetch) (reads_of_decode hd).1 hs hexec
    | error e =>
      rw [execute_of_decode_error hd] at hexec
      cases hexec
      exact hs

end Sys2Proof.Machine

namespace Sys2Proof.Machine

/-! ### The counter and the report log are invisible (the spec's decisions D16, D17)

`SameVisible` is kept by every shared operation, and so by every meaning; what an operation reads is the same in both. -/

section SameVisible

variable {s s' : State} (h : SameVisible s s')

include h

theorem SameVisible.cfg_eq : s'.cfg = s.cfg := h.1

theorem SameVisible.pc_eq : s'.pc = s.pc := by
  obtain ⟨-, -, hpc, -⟩ := h
  exact hpc

theorem SameVisible.halted_eq : s'.halted = s.halted := by
  obtain ⟨-, -, -, hhalted, -⟩ := h
  exact hhalted

theorem SameVisible.readReg (i : RegIdx) : s'.readReg i = s.readReg i := by
  obtain ⟨-, hregs, -⟩ := h
  simp only [State.readReg, hregs]

theorem SameVisible.readValue (a : Word) (w : Width) : s'.readValue a w = s.readValue a w := by
  obtain ⟨hcfg, -, -, -, -, hmem⟩ := h
  have hbyte : s'.byteAt = s.byteAt := by funext x; simp only [State.byteAt, hcfg, hmem]
  unfold State.readValue
  rw [hcfg, hmem, hbyte]

theorem SameVisible.setPc {t t' : Word} (ht : t' = t) : SameVisible (s.setPc t) (s'.setPc t') := by
  obtain ⟨hcfg, hregs, -, hhalted, hreason, hmem⟩ := h
  exact ⟨hcfg, hregs, ht, hhalted, hreason, hmem⟩

theorem SameVisible.advancePc : SameVisible s.advancePc s'.advancePc :=
  h.setPc (by rw [h.pc_eq])

theorem SameVisible.writeReg (i : RegIdx) {v v' : Word} (hv : v' = v) :
    SameVisible (s.writeReg i v) (s'.writeReg i v') := by
  subst hv
  obtain ⟨hcfg, hregs, hpc, hhalted, hreason, hmem⟩ := h
  refine ⟨by simp [hcfg], ?_, by simp [hpc], by simp [hhalted], by simp [hreason], by simp [hmem]⟩
  unfold State.writeReg
  split <;> simp [hregs]

theorem SameVisible.writeAndAdvance (i : RegIdx) {v v' : Word} (hv : v' = v) :
    SameVisible (s.writeAndAdvance i v) (s'.writeAndAdvance i v') :=
  (h.writeReg i hv).advancePc

theorem SameVisible.report (r r' : List OorReport) : SameVisible (s.report r) (s'.report r') := h

theorem SameVisible.countInstruction : SameVisible s.countInstruction s'.countInstruction := h

theorem SameVisible.raise (cause : HaltReason) : SameVisible (s.raise cause) (s'.raise cause) := by
  obtain ⟨hcfg, hregs, hpc, -, -, hmem⟩ := h
  exact ⟨hcfg, hregs, hpc, rfl, rfl, hmem⟩

theorem SameVisible.memWrite (w : Width) {a a' v v' : Word} (ha : a' = a) (hv : v' = v) :
    SameVisible (s.memWrite a w v) (s'.memWrite a' w v') := by
  subst ha hv
  obtain ⟨hcfg, hregs, hpc, hhalted, hreason, hmem⟩ := h
  exact ⟨hcfg, hregs, hpc, hhalted, hreason, by simp only [State.memWrite_mem, hcfg, hmem]⟩

theorem SameVisible.effectiveAddress (rs1 : RegIdx) (imm : BitVec 12) :
    s'.effectiveAddress rs1 imm = s.effectiveAddress rs1 imm := by
  simp only [State.effectiveAddress, h.readReg]

theorem SameVisible.aluImmediate (rd rs1 : RegIdx) (operand : Word) (op : Word → Word → Word) :
    SameVisible (s.aluImmediate rd rs1 operand op) (s'.aluImmediate rd rs1 operand op) :=
  h.writeAndAdvance rd (by rw [h.readReg])

theorem SameVisible.aluRegister (rd rs1 rs2 : RegIdx) (op : Word → Word → Word) :
    SameVisible (s.aluRegister rd rs1 rs2 op) (s'.aluRegister rd rs1 rs2 op) :=
  h.writeAndAdvance rd (by rw [h.readReg, h.readReg])

theorem SameVisible.branchIf (c : Word → Word → Bool) (rs1 rs2 : RegIdx) (offset : BitVec 13) :
    SameVisible (s.branchIf c rs1 rs2 offset) (s'.branchIf c rs1 rs2 offset) := by
  unfold State.branchIf
  rw [h.readReg, h.readReg]
  split
  · exact h.setPc (by rw [h.pc_eq])
  · exact h.advancePc

end SameVisible

/-- Two outcomes that are both next states, which differ at most in the counter and the log. -/
def SameVisibleNext (r r' : Result) : Prop := ∃ t t', r = .next t ∧ r' = .next t' ∧ SameVisible t t'

theorem sameVisibleNext_of_next {t t' : State} (h : SameVisible t t') : SameVisibleNext (.next t) (.next t') :=
  ⟨t, t', rfl, rfl, h⟩

theorem SameVisible.loadWith {s s' : State} (h : SameVisible s s') (w : Width) (extend : Word → Word) (rd rs1 : RegIdx)
    (imm : BitVec 12) : SameVisibleNext (s.loadWith w extend rd rs1 imm) (s'.loadWith w extend rd rs1 imm) := by
  rw [State.loadWith_eq, State.loadWith_eq]
  exact sameVisibleNext_of_next
    ((h.report _ _).writeAndAdvance rd (by rw [h.effectiveAddress, h.readValue]))

theorem SameVisible.storeWith {s s' : State} (h : SameVisible s s') (w : Width) (rs1 rs2 : RegIdx)
    (imm : BitVec 12) : SameVisibleNext (s.storeWith w rs1 rs2 imm) (s'.storeWith w rs1 rs2 imm) := by
  rw [State.storeWith_eq, State.storeWith_eq]
  exact sameVisibleNext_of_next (h.memWrite w (h.effectiveAddress rs1 imm) (h.readReg rs2)).advancePc

theorem SameVisible.execJalr {s s' : State} (h : SameVisible s s') (rd rs1 : RegIdx) (imm : BitVec 12) :
    SameVisibleNext (exec (.jalr rd rs1 imm) s) (exec (.jalr rd rs1 imm) s') := by
  rw [exec_jalr, exec_jalr, h.readReg, h.cfg_eq, h.pc_eq]
  exact sameVisibleNext_of_next ((h.writeReg rd rfl).setPc rfl)

/-- No instruction reads the counter or the log. -/
theorem SameVisible.exec {s s' : State} (h : SameVisible s s') (i : Instr) : SameVisibleNext (exec i s) (exec i s') := by
  cases i with
  | lui rd => exact sameVisibleNext_of_next (h.writeAndAdvance rd rfl)
  | auipc rd => exact sameVisibleNext_of_next (h.writeAndAdvance rd (by rw [h.pc_eq]))
  | jal rd =>
    exact sameVisibleNext_of_next
      ((h.writeReg rd (by rw [State.linkValue, h.pc_eq, State.linkValue])).setPc (by rw [h.pc_eq]))
  | jalr rd rs1 imm => exact h.execJalr rd rs1 imm
  | beq | bne | blt | bge | bltu | bgeu => exact sameVisibleNext_of_next (h.branchIf _ _ _ _)
  | lb | lh | lw | lbu | lhu => exact h.loadWith _ _ _ _ _
  | sb | sh | sw => exact h.storeWith _ _ _ _
  | addi | slti | sltiu | xori | ori | andi => exact sameVisibleNext_of_next (h.aluImmediate _ _ _ _)
  | slli rd | srli rd | srai rd => exact sameVisibleNext_of_next (h.writeAndAdvance rd (by rw [h.readReg]))
  | add | sub | sll | slt | sltu | xor | srl | sra | or | and =>
    exact sameVisibleNext_of_next (h.aluRegister _ _ _ _)
  | ecall | ebreak => exact sameVisibleNext_of_next (h.raise _)
  | csrrs rd => exact sameVisibleNext_of_next (h.writeAndAdvance rd (by rw [h.cfg_eq, h.readReg]))

theorem SameVisible.execute {s s' : State} (h : SameVisible s s') (insn : Word) :
    SameVisibleNext (execute insn s) (execute insn s') := by
  cases hd : decode s.cfg.funct7Strict insn with
  | ok i =>
    rw [execute_of_decode_ok hd, execute_of_decode_ok (h.cfg_eq.symm ▸ hd)]
    exact h.exec i
  | error e =>
    rw [execute_of_decode_error hd, execute_of_decode_error (h.cfg_eq.symm ▸ hd)]
    exact sameVisibleNext_of_next (h.raise _)

theorem SameVisible.step {s s' : State} (h : SameVisible s s') : SameVisibleNext (step s) (step s') := by
  cases hh : s.halted with
  | true =>
    rw [step_of_halted hh, step_of_halted (h.halted_eq.trans hh)]
    exact sameVisibleNext_of_next h
  | false =>
    rw [step_eq_execute_afterFetch hh, step_eq_execute_afterFetch (h.halted_eq.trans hh), h.pc_eq, h.readValue]
    exact SameVisible.execute (h.countInstruction.report _ _) _

/-- Settles O51, by induction on the number of steps: one step keeps the two states related. -/
theorem counterAndReportsAreInvisible : Obligations.CounterAndReportsAreInvisible := by
  intro n
  induction n with
  | zero => exact fun s s' h => ⟨s, s', rfl, rfl, h⟩
  | succ n ih =>
    intro s s' h
    obtain ⟨t, t', ht, ht', hnext⟩ := h.step
    obtain ⟨u, u', hu, hu', hlast⟩ := ih t t' hnext
    exact ⟨u, u', (run_succ_of_step (M := core) n ht).trans hu, (run_succ_of_step (M := core) n ht').trans hu', hlast⟩

end Sys2Proof.Machine

namespace Sys2Proof.Machine

/-! ### Multi-byte accesses under `per_byte` (20_memory.md R58, the spec's decision D11) -/

/-- The whole effect of a load under `per_byte`: the composed bytes, extended, and the access's reports. -/
theorem perByteLoad_of_exec_eq_loadWith {i : Instr} {s : State} {w : Width} {extend : Word → Word} {rd rs1 : RegIdx}
    {imm : BitVec 12} {v : Word} (hexec : exec i s = s.loadWith w extend rd rs1 imm)
    (hp : s.cfg.oorPolicy = .perByte) (hw : 1 ≤ w.bytes)
    (hv : extend (composeBytes s.byteAt (s.effectiveAddress rs1 imm).toNat w) = v) :
    ∃ t reports, exec i s = .next t ∧ RegisterWritten rd v s t ∧ t.pc = s.pc + 4 ∧ SameMemory s t ∧
      SameControl s t ∧ t.oorLog = s.oorLog ++ reports ∧
      (reports = [] ↔ InRange s.cfg (s.effectiveAddress rs1 imm) w.bytes) := by
  subst hv
  rw [hexec, State.loadWith_eq, State.readValue_perByte hp]
  obtain ⟨hreg, hpc, hmem, hcontrol, hlog⟩ := writesRegister_writeAndAdvance
    (s.report (accessReports s.cfg .read (s.effectiveAddress rs1 imm) w.bytes)) rd
    (extend (composeBytes s.byteAt (s.effectiveAddress rs1 imm).toNat w))
  exact ⟨_, _, rfl, hreg, hpc, hmem, hcontrol, hlog, accessReports_eq_nil hw⟩

/-- Settles O26: LH, LHU and LW mean `loadWith`, which composes the bytes one by one. -/
theorem perByteLoadsReadInRangeBytes : Obligations.PerByteLoadsReadInRangeBytes :=
  fun rd rs1 imm s hp =>
    ⟨perByteLoad_of_exec_eq_loadWith (exec_lh rd rs1 imm s) hp (by decide) (sext16_zeroExtend _),
      perByteLoad_of_exec_eq_loadWith (exec_lhu rd rs1 imm s) hp (by decide) rfl,
      perByteLoad_of_exec_eq_loadWith (exec_lw rd rs1 imm s) hp (by decide) rfl⟩

/-- The whole effect of a store under `per_byte`: the bytes in range, and the access's reports. -/
theorem perByteStore_of_exec_eq_storeWith {i : Instr} {s : State} {w : Width} {rs1 rs2 : RegIdx} {imm : BitVec 12}
    (hexec : exec i s = s.storeWith w rs1 rs2 imm) (hp : s.cfg.oorPolicy = .perByte) (hw : 1 ≤ w.bytes)
    (hm : Memory.wf s.cfg.memFill s.cfg.capacity s.mem) :
    ∃ t reports, exec i s = .next t ∧ SameRegisters s t ∧ t.pc = s.pc + 4 ∧ SameControl s t ∧
      t.oorLog = s.oorLog ++ reports ∧ (reports = [] ↔ InRange s.cfg (s.effectiveAddress rs1 imm) w.bytes) ∧
      ∀ a : Nat, t.byteAt a =
        if (s.effectiveAddress rs1 imm).toNat ≤ a ∧ a < (s.effectiveAddress rs1 imm).toNat + w.bytes ∧
            a < s.cfg.capacity then
          (s.readReg rs2).extractLsb' (8 * (a - (s.effectiveAddress rs1 imm).toNat)) 8
        else s.byteAt a := by
  rw [hexec, State.storeWith_eq]
  refine ⟨_, _, rfl, fun _ => rfl, rfl, ⟨rfl, rfl, rfl, rfl⟩, rfl, accessReports_eq_nil hw, fun a => ?_⟩
  rw [State.advancePc_byteAt, State.memWrite_byteAt _ _ _ hm]
  simp only [hp, true_or, and_true]

/-- Settles O27: SH and SW mean `storeWith`, which changes the cells in range. -/
theorem perByteStoresKeepInRangeBytes : Obligations.PerByteStoresKeepInRangeBytes :=
  fun rs1 rs2 imm s hp hm =>
    ⟨perByteStore_of_exec_eq_storeWith (exec_sh rs1 rs2 imm s) hp (by decide) hm,
      perByteStore_of_exec_eq_storeWith (exec_sw rs1 rs2 imm s) hp (by decide) hm⟩

/-! ### Accesses past 0xFFFFFFFF (the spec's decision D11) -/

/-- An access whose last byte passes the top of the address space is not in range. -/
theorem not_inRange_of_past_top {c : Config} {a : Word} {n : Nat} (hc : c.capacity ≤ 2 ^ 32)
    (h : 2 ^ 32 ≤ a.toNat + n - 1) : ¬ InRange c a n := by
  simp only [InRange]
  omega

/-- A halfword whose upper byte is 0 is the same under both extensions. -/
theorem signExtend_zero_append (b : Byte) : (0#8 ++ b : BitVec 16).signExtend 32 = b.zeroExtend 32 := by
  apply BitVec.eq_of_getLsbD_eq
  intro i hi
  rw [signExtend_getLsbD_min _ hi, BitVec.getLsbD_append, BitVec.getLsbD_setWidth, decide_eq_true hi, Bool.true_and]
  split
  · next h => rw [show min i (8 + 8 - 1) = i by omega]
  · next h => rw [BitVec.getLsbD_zero, BitVec.getLsbD_of_ge b i (by omega)]

theorem zeroExtend_zero_append (b : Byte) : (0#8 ++ b : BitVec 16).zeroExtend 32 = b.zeroExtend 32 := by
  apply BitVec.eq_of_getLsbD_eq
  intro i hi
  rw [BitVec.getLsbD_setWidth, BitVec.getLsbD_append, BitVec.getLsbD_setWidth]
  split
  · rfl
  · next h => rw [BitVec.getLsbD_zero, BitVec.getLsbD_of_ge b i (by omega)]

/-- What a load past the top does, of what a load under `per_byte` does. -/
theorem loadPastTop_of_exec_eq_loadWith {i : Instr} {s : State} {w : Width} {extend : Word → Word} {rd rs1 : RegIdx}
    {imm : BitVec 12} {v : Word} (hexec : exec i s = s.loadWith w extend rd rs1 imm)
    (hp : s.cfg.oorPolicy = .perByte) (hw : 1 ≤ w.bytes)
    (hr : ¬ InRange s.cfg (s.effectiveAddress rs1 imm) w.bytes)
    (hv : extend (composeBytes s.byteAt (s.effectiveAddress rs1 imm).toNat w) = v) :
    ∃ t, exec i s = .next t ∧ RegisterWritten rd v s t ∧ t.pc = s.pc + 4 ∧
      ∃ r, r ≠ [] ∧ t.oorLog = s.oorLog ++ r := by
  obtain ⟨t, reports, ht, hreg, hpc, -, -, hlog, hnil⟩ := perByteLoad_of_exec_eq_loadWith hexec hp hw hv
  exact ⟨t, ht, hreg, hpc, reports, mt hnil.mp hr, hlog⟩

/-- What a store past the top does: every address in range from its own up is one of its bytes. -/
theorem storePastTop_of_exec_eq_storeWith {i : Instr} {s : State} {w : Width} {rs1 rs2 : RegIdx} {imm : BitVec 12}
    (hexec : exec i s = s.storeWith w rs1 rs2 imm) (hp : s.cfg.oorPolicy = .perByte) (hw : 1 ≤ w.bytes)
    (hm : Memory.wf s.cfg.memFill s.cfg.capacity s.mem)
    (hr : ¬ InRange s.cfg (s.effectiveAddress rs1 imm) w.bytes) :
    ∃ t, exec i s = .next t ∧ t.pc = s.pc + 4 ∧ (∃ r, r ≠ [] ∧ t.oorLog = s.oorLog ++ r) ∧
      ∀ a : Nat, t.byteAt a =
        if (s.effectiveAddress rs1 imm).toNat ≤ a ∧ a < s.cfg.capacity then
          (s.readReg rs2).extractLsb' (8 * (a - (s.effectiveAddress rs1 imm).toNat)) 8
        else s.byteAt a := by
  obtain ⟨t, reports, ht, -, hpc, -, hlog, hnil, hbytes⟩ := perByteStore_of_exec_eq_storeWith hexec hp hw hm
  refine ⟨t, ht, hpc, ⟨reports, mt hnil.mp hr, hlog⟩, fun a => (hbytes a).trans (if_congr ?_ rfl rfl)⟩
  simp only [InRange] at hr
  omega

/-- A byte of an access, cut off at the top of the address space. -/
theorem State.byteAt_eq_cut {s : State} (hc : s.cfg.capacity ≤ 2 ^ 32) (a : Nat) :
    s.byteAt a = if a < 2 ^ 32 then s.byteAt a else 0 := by
  split
  · rfl
  · next h => exact State.byteAt_past_top hc (Nat.not_lt.mp h)

end Sys2Proof.Machine

namespace Sys2Proof.Machine

/-! ### A word's bytes and back (20_memory.md R53) -/

/-- Each byte of a word composed of four is the one it was composed of. -/
theorem extractLsb'_wordOfBytes (b0 b1 b2 b3 : Byte) :
    (wordOfBytes b0 b1 b2 b3).extractLsb' 0 8 = b0 ∧ (wordOfBytes b0 b1 b2 b3).extractLsb' 8 8 = b1 ∧
      (wordOfBytes b0 b1 b2 b3).extractLsb' 16 8 = b2 ∧ (wordOfBytes b0 b1 b2 b3).extractLsb' 24 8 = b3 := by
  have habove8 : ∀ start, 8 ≤ start → (wordOfBytes b0 b1 b2 b3).extractLsb' start 8 =
      (b3 ++ b2 ++ b1 : BitVec (8 + 8 + 8)).extractLsb' (start - 8) 8 :=
    fun _ h => BitVec.extractLsb'_append_eq_of_le h
  have habove16 : ∀ start, 8 ≤ start → (b3 ++ b2 ++ b1 : BitVec (8 + 8 + 8)).extractLsb' start 8 =
      (b3 ++ b2 : BitVec (8 + 8)).extractLsb' (start - 8) 8 :=
    fun _ h => BitVec.extractLsb'_append_eq_of_le h
  rw [habove8 8 (by decide), habove8 16 (by decide), habove8 24 (by decide), habove16 8 (by decide),
    habove16 16 (by decide)]
  exact ⟨BitVec.extractLsb'_append_eq_right (a := b3 ++ b2 ++ b1),
    BitVec.extractLsb'_append_eq_right (a := b3 ++ b2), BitVec.extractLsb'_append_eq_right,
    BitVec.extractLsb'_append_eq_left⟩

/-- A word is composed of its four bytes. -/
theorem wordOfBytes_extractLsb' (v : Word) :
    wordOfBytes (v.extractLsb' 0 8) (v.extractLsb' 8 8) (v.extractLsb' 16 8) (v.extractLsb' 24 8) = v := by
  rw [wordOfBytes, BitVec.extractLsb'_append_extractLsb'_eq_extractLsb' (show 24 = 16 + 8 from rfl),
    BitVec.extractLsb'_append_extractLsb'_eq_extractLsb' (show 16 = 8 + 8 from rfl),
    BitVec.extractLsb'_append_extractLsb'_eq_extractLsb' (show 8 = 0 + 8 from rfl)]
  exact BitVec.extractLsb'_eq_self

theorem wordAtPc_eq_wordOfBytes (s : State) :
    WordAtPc s = wordOfBytes (s.byteAt s.pc.toNat) (s.byteAt (s.pc.toNat + 1)) (s.byteAt (s.pc.toNat + 2))
      (s.byteAt (s.pc.toNat + 3)) := rfl

/-- A halfword at 0xFFFFFFFF is the byte there below a zero byte. -/
theorem composeBytes_half_past_top {s : State} {a : Nat} (hc : s.cfg.capacity ≤ 2 ^ 32) (h : 2 ^ 32 ≤ a + 1) :
    composeBytes s.byteAt a .half = (s.byteAt a).zeroExtend 32 := by
  rw [composeBytes, State.byteAt_past_top hc h]
  exact zeroExtend_zero_append _

theorem sext16_composeBytes_half_past_top {s : State} {a : Nat} (hc : s.cfg.capacity ≤ 2 ^ 32) (h : 2 ^ 32 ≤ a + 1) :
    sext16 (composeBytes s.byteAt a .half) = (s.byteAt a).zeroExtend 32 := by
  rw [composeBytes, State.byteAt_past_top hc h, sext16_zeroExtend]
  exact signExtend_zero_append _

/-- Settles O28: bytes past the top are out of range, so the accesses are those of `per_byte` with a report. -/
theorem perByteAccessesDoNotWrap : Obligations.PerByteAccessesDoNotWrap := by
  intro r1 r2 imm s hp hc hm ea byte reports stores
  refine ⟨fun htop => ?_, fun htop => ?_, fun htop => ?_⟩
  · have hr : ¬ InRange s.cfg ea 2 := not_inRange_of_past_top hc (by omega)
    exact ⟨loadPastTop_of_exec_eq_loadWith (exec_lh r2 r1 imm s) hp (by decide) hr
        (sext16_composeBytes_half_past_top hc htop),
      loadPastTop_of_exec_eq_loadWith (exec_lhu r2 r1 imm s) hp (by decide) hr
        (composeBytes_half_past_top hc htop),
      storePastTop_of_exec_eq_storeWith (exec_sh r1 r2 imm s) hp (by decide) hm hr⟩
  · have hr : ¬ InRange s.cfg ea 4 := not_inRange_of_past_top hc (by omega)
    have hword : composeBytes s.byteAt ea.toNat .word = 0#8 ++ byte 2 ++ byte 1 ++ byte 0 := by
      rw [composeBytes, State.byteAt_past_top hc htop]
      simp only [byte, ← State.byteAt_eq_cut hc]
      rfl
    exact ⟨loadPastTop_of_exec_eq_loadWith (exec_lw r2 r1 imm s) hp (by decide) hr hword,
      storePastTop_of_exec_eq_storeWith (exec_sw r1 r2 imm s) hp (by decide) hm hr⟩
  · rw [wordAtPc_eq_wordOfBytes]
    obtain ⟨-, h1, h2, h3⟩ := extractLsb'_wordOfBytes (s.byteAt s.pc.toNat) (s.byteAt (s.pc.toNat + 1))
      (s.byteAt (s.pc.toNat + 2)) (s.byteAt (s.pc.toNat + 3))
    exact ⟨h3.trans (State.byteAt_past_top hc htop), fun h => h2.trans (State.byteAt_past_top hc h),
      fun h => h1.trans (State.byteAt_past_top hc h)⟩

end Sys2Proof.Machine

namespace Sys2Proof.Machine

/-! ### A stored word read back (20_memory.md) -/

/-- The word read at an address in range after a word was stored there is the stored word. -/
theorem State.readValue_memWrite_word {s : State} {a : Word} (v : Word)
    (hm : Memory.wf s.cfg.memFill s.cfg.capacity s.mem) (hr : InRange s.cfg a 4) :
    (s.memWrite a .word v).readValue a .word = v := by
  have hbyte : ∀ k, k < 4 → (s.memWrite a .word v).byteAt (a.toNat + k) = v.extractLsb' (8 * k) 8 := by
    intro k hk
    simp only [InRange] at hr
    rw [State.memWrite_byteAt a .word v hm, Nat.add_sub_cancel_left]
    exact if_pos ⟨by omega, Nat.add_lt_add_left hk _, by omega, .inr hr⟩
  calc (s.memWrite a .word v).readValue a .word
      = composeBytes (s.memWrite a .word v).byteAt a.toNat .word := State.readValue_inRange (w := .word) hr
    _ = wordOfBytes (v.extractLsb' 0 8) (v.extractLsb' 8 8) (v.extractLsb' 16 8) (v.extractLsb' 24 8) := by
      simp only [composeBytes]
      rw [hbyte 1 (by decide), hbyte 2 (by decide), hbyte 3 (by decide), ← Nat.add_zero a.toNat, hbyte 0 (by decide)]
    _ = v := wordOfBytes_extractLsb' v

/-- A store leaves the effective addresses as they were. -/
theorem State.memWrite_effectiveAddress (s : State) (a : Word) (w : Width) (v : Word) (rs1 : RegIdx)
    (imm : BitVec 12) :
    (s.memWrite a w v).advancePc.effectiveAddress rs1 imm = s.effectiveAddress rs1 imm := rfl

/-- Settles O53: LW reads at the address SW stored to, which is still in range. -/
theorem storedWordLoadsBackUnchanged : Obligations.StoredWordLoadsBackUnchanged := by
  intro rd rs1 rs2 imm s hs hr
  refine ⟨_, _, (exec_sw rs1 rs2 imm s).trans (State.storeWith_eq s .word rs1 rs2 imm),
    (exec_lw rd rs1 imm _).trans (State.loadWith_eq _ .word id rd rs1 imm), fun i => ?_⟩
  have hvalue := State.readValue_memWrite_word (a := s.effectiveAddress rs1 imm) (s.readReg rs2) hs.memory hr
  rw [State.writeAndAdvance_readReg, State.memWrite_effectiveAddress]
  exact if_congr Iff.rfl rfl (if_congr Iff.rfl hvalue rfl)

theorem State.report_nil (s : State) : s.report [] = s := by
  simp only [State.report, List.append_nil]

/-- Settles O54: the fetch after SW reads at the address SW stored to, in range and so without a report. -/
theorem storeIsSeenByTheNextFetch : Obligations.StoreIsSeenByTheNextFetch := by
  intro rs1 rs2 imm s hs hr ha
  have haddress : s.effectiveAddress rs1 imm = s.pc + 4 := ha
  have hexec : exec (.sw rs1 rs2 imm) s = .next (s.memWrite (s.pc + 4) .word (s.readReg rs2)).advancePc := by
    rw [exec_sw, State.storeWith_eq, haddress]
  have hquiet : accessReports s.cfg .read (s.pc + 4) 4 = [] := accessReports_inRange .read hr
  have hfetch : (s.memWrite (s.pc + 4) .word (s.readReg rs2)).advancePc.fetch =
      ((s.memWrite (s.pc + 4) .word (s.readReg rs2)).readValue (s.pc + 4) .word,
        (s.memWrite (s.pc + 4) .word (s.readReg rs2)).advancePc.report (accessReports s.cfg .read (s.pc + 4) 4)) := rfl
  refine ⟨_, hexec, ?_⟩
  rw [hfetch, State.readValue_memWrite_word _ hs.memory hr, hquiet, State.report_nil]

end Sys2Proof.Machine

namespace Sys2Proof.Machine

/-! ### The canonical form determines the memory (log 24) -/

/-- Each listed cell is what its address reads as. -/
theorem Memory.get_of_mem (fill : Byte) {m : Memory} {c : Host.Cell} (hm : m.Pairwise (fun c d => c.1 < d.1))
    (hc : c ∈ m) : Memory.get fill m c.1 = c.2 := by
  induction m with
  | nil => simp at hc
  | cons d rest ih =>
    obtain ⟨k, b⟩ := d
    obtain ⟨hk, hrest⟩ := List.pairwise_cons.mp hm
    rcases List.mem_cons.mp hc with rfl | hc
    · simp [Memory.get]
    · simpa [Memory.get, (hk c hc).ne'] using ih hrest hc

/-- In canonical form the listed cells are the addresses that do not read the fill. -/
theorem Memory.mem_iff_get {fill : Byte} {capacity : Nat} {m : Memory} (hm : Memory.wf fill capacity m)
    (c : Host.Cell) : c ∈ m ↔ Memory.get fill m c.1 = c.2 ∧ c.2 ≠ fill := by
  obtain ⟨hrising, hcells⟩ := hm
  constructor
  · exact fun hc => ⟨Memory.get_of_mem fill hrising hc, (hcells c hc).2⟩
  · rintro ⟨hget, hne⟩
    by_contra hc
    refine hne (hget.symm.trans (Memory.get_of_notMem fill m c.1 fun d hd he => hc ?_))
    have hd2 : d.2 = c.2 := (Memory.get_of_mem fill hrising hd).symm.trans (he ▸ hget)
    rwa [Prod.ext he hd2] at hd

/-- Settles O52: both lists have the same cells, in rising order of their addresses. -/
theorem canonicalMemoriesThatReadAlikeAreEqual : Obligations.CanonicalMemoriesThatReadAlikeAreEqual := by
  intro fill capacity m m' hm hm' hread
  have hcells : ∀ c, c ∈ m ↔ c ∈ m' := fun c => by
    rw [Memory.mem_iff_get hm, Memory.mem_iff_get hm', hread]
  have hperm : m.Perm m' :=
    (List.perm_ext_iff_of_nodup (hm.1.imp fun h he => absurd (congrArg Prod.fst he) h.ne)
      (hm'.1.imp fun h he => absurd (congrArg Prod.fst he) h.ne)).mpr hcells
  exact hperm.eq_of_pairwise (fun c d _ _ hcd hdc => absurd hcd hdc.asymm) hm.1 hm'.1

end Sys2Proof.Machine

namespace Sys2Proof.Machine

/-! ### The host's load and its accessors (70_reset_and_hazards.md R346, R347) -/

theorem State.loadImage_of_fits {s : State} {image : List Byte} (h : image.length ≤ s.cfg.capacity) :
    s.loadImage image = .next { s with mem := Memory.setAll s.cfg.memFill s.mem (imageCells image) } := if_pos h

theorem State.loadImage_of_too_long {s : State} {image : List Byte} (h : s.cfg.capacity < image.length) :
    s.loadImage image = .refused .failedLoad := if_neg (Nat.not_le.mpr h)

/-- An address below the image's length reads the image's byte there. -/
theorem Memory.get_imageCells_some {fill b : Byte} {m : Memory} {image : List Byte} {a : Nat}
    (hm : m.Pairwise (fun c d => c.1 < d.1)) (h : image[a]? = some b) :
    Memory.get fill (Memory.setAll fill m (imageCells image)) a = b :=
  Memory.get_setAll_mem fill m _ (a, b) hm (mem_imageCells.mpr h) (imageCells_distinct image)

/-- An address from the image's length on reads as before. -/
theorem Memory.get_imageCells_none {fill : Byte} {m : Memory} {image : List Byte} {a : Nat} (h : image[a]? = none) :
    Memory.get fill (Memory.setAll fill m (imageCells image)) a = Memory.get fill m a :=
  Memory.get_setAll_other fill m _ a fun _ hc =>
    (Nat.lt_of_lt_of_le (imageCells_lt hc) (List.getElem?_eq_none_iff.mp h)).ne

/-- Settles O55: each byte of the image is one cell written, inside the array when it fits. -/
theorem loadCopiesTheImage : Obligations.LoadCopiesTheImage := by
  intro s image hm
  refine ⟨fun hfits => ?_, State.loadImage_of_too_long⟩
  have hload := State.loadImage_of_fits hfits
  refine ⟨_, hload, fun a => ?_, fun _ => rfl, rfl, ⟨rfl, rfl, rfl, rfl⟩, rfl, State.loadImage_wf hload hm⟩
  cases h : image[a]? with
  | some b =>
    have ha : a < s.cfg.capacity := Nat.lt_of_lt_of_le (List.getElem?_eq_some_iff.mp h).1 hfits
    simp only [State.byteAt, if_pos ha, Memory.get_imageCells_some hm.1 h]
  | none => simp only [State.byteAt, Memory.get_imageCells_none h]

theorem State.dumpRegisters_getElem? (s : State) (i : RegIdx) : s.dumpRegisters[i.val]? = some (s.readReg i) := by
  simp [State.dumpRegisters]

/-- Lawful texts tell the three halt reasons apart (10_state.md R31). -/
theorem haltTexts_text_ne {t : HaltTexts} (ht : t.Distinct) {r q : HaltReason} (hr : r ≠ .none) (hq : q ≠ .none)
    (hrq : r ≠ q) : HaltTexts.text t r ≠ HaltTexts.text t q := by
  obtain ⟨hillegalCall, hillegalBreak, hcallBreak⟩ := ht
  cases r with
  | none => exact absurd rfl hr
  | illegalInstruction =>
    cases q with
    | none => exact absurd rfl hq
    | illegalInstruction => exact absurd rfl hrq
    | environmentCall => exact hillegalCall
    | environmentBreak => exact hillegalBreak
  | environmentCall =>
    cases q with
    | none => exact absurd rfl hq
    | illegalInstruction => exact hillegalCall.symm
    | environmentCall => exact absurd rfl hrq
    | environmentBreak => exact hcallBreak
  | environmentBreak =>
    cases q with
    | none => exact absurd rfl hq
    | illegalInstruction => exact hillegalBreak.symm
    | environmentCall => exact hcallBreak.symm
    | environmentBreak => exact absurd rfl hrq

/-- Settles O56: the accessors are fields, the dump lists every register, and lawful texts differ. -/
theorem hostAccessorsReadTheState : Obligations.HostAccessorsReadTheState :=
  fun s => ⟨rfl, rfl, rfl, s.dumpRegisters_getElem?, fun hlawful _ _ hr hq hrq => haltTexts_text_ne hlawful.2 hr hq hrq⟩

end Sys2Proof.Machine

namespace Sys2Proof.Machine

/-! ### The renderer and the trace (49_rendering.md R280 to R286) -/

theorem rendering_of_decode_ok {strict : Bool} {w : Word} {i : Instr} (address : Word) (h : decode strict w = .ok i) :
    rendering strict address w = .line i.mnemonic (operandShape address i) := by
  unfold rendering
  rw [h]

theorem rendering_of_decode_error {strict : Bool} {w : Word} {e : DecodeError} (address : Word)
    (h : decode strict w = .error e) : rendering strict address w = .marker := by
  unfold rendering
  rw [h]

theorem render_of_decode_error {strict : Bool} {w : Word} {e : DecodeError} (address : Word)
    (h : decode strict w = .error e) : render strict address w = Config.illegalMarker := by
  unfold render
  rw [rendering_of_decode_error address h]

theorem rendering_eq_marker_iff (strict : Bool) (address w : Word) :
    rendering strict address w = .marker ↔ ∃ e, decode strict w = .error e := by
  cases h : decode strict w with
  | ok i => simp [rendering_of_decode_ok address h]
  | error e => simp [rendering_of_decode_error address h]

/-- A JAL that was decoded carries the offset bits of its word. -/
theorem jumpOffsetValue_of_decode {strict : Bool} {w : Word} {rd : RegIdx} {offset : BitVec 21}
    (h : decode strict w = .ok (.jal rd offset)) : jumpOffsetValue offset = immJ w := by
  have heven : evenOffset offset = true := (reads_of_decode h).1
  have hword : encodeJ offset rd 0b1101111 = w := encode_of_decode h (show "JAL" ∉ unexaminedMnemonics by decide)
  rw [immJ, ← hword, bitsJ_encodeJ _ _ _ heven, jumpOffsetValue]

/-- A JALR that was decoded carries the immediate bits of its word. -/
theorem imm12Value_of_decode_jalr {strict : Bool} {w : Word} {rd rs1 : RegIdx} {imm : BitVec 12}
    (h : decode strict w = .ok (.jalr rd rs1 imm)) : imm12Value imm = immI w := by
  have hword : encodeI imm rs1 0b000 rd 0b1100111 = w :=
    encode_of_decode h (show "JALR" ∉ unexaminedMnemonics by decide)
  obtain ⟨-, -, -, -, himm, -⟩ := encodeI_fields imm rs1 0b000 rd 0b1100111
  rw [immI, ← hword, himm, imm12Value]

/-- A branch that was decoded renders with the target its word's offset bits give. -/
theorem rendering_branch {strict : Bool} {address w : Word} {i : Instr} {rs1 rs2 : RegIdx} {offset : BitVec 13}
    {funct3 : BitVec 3} (h : decode strict w = .ok i) (hm : i.mnemonic ∉ unexaminedMnemonics)
    (hencode : encode i = encodeB offset rs2 rs1 funct3 0b1100011) (hwf : i.WellFormed = evenOffset offset)
    (hshape : operandShape address i =
      .listed [.register rs1, .register rs2, .target (address + branchOffsetValue offset)]) :
    rendering strict address w =
      .line i.mnemonic (.listed [.register rs1, .register rs2, .target (address + immB w)]) := by
  have heven : evenOffset offset = true := hwf ▸ (reads_of_decode h).1
  have hword : encodeB offset rs2 rs1 funct3 0b1100011 = w := hencode ▸ encode_of_decode h hm
  rw [rendering_of_decode_ok address h, hshape, immB, ← hword, bitsB_encodeB _ _ _ _ _ heven, branchOffsetValue]

/-- Settles O57: the rendering splits on the decoder's answer, whose offset is the word's own. -/
theorem renderingAgreesWithDecoding : Obligations.RenderingAgreesWithDecoding := by
  intro strict address w
  refine ⟨rendering_eq_marker_iff strict address w, fun ⟨e, he⟩ => render_of_decode_error address he,
    fun i hi => rendering_of_decode_ok address hi, fun rd offset h => ?_, fun rd rs1 imm h => ?_, ?_⟩
  · rw [← jumpOffsetValue_of_decode h]
    exact rendering_of_decode_ok address h
  · rw [← imm12Value_of_decode_jalr h]
    exact rendering_of_decode_ok address h
  · simp only [List.forall_mem_cons, List.not_mem_nil, false_imp_iff, implies_true, and_true]
    exact ⟨fun _ _ _ h => rendering_branch h (show "BEQ" ∉ unexaminedMnemonics by decide) rfl rfl rfl,
      fun _ _ _ h => rendering_branch h (show "BNE" ∉ unexaminedMnemonics by decide) rfl rfl rfl,
      fun _ _ _ h => rendering_branch h (show "BLT" ∉ unexaminedMnemonics by decide) rfl rfl rfl,
      fun _ _ _ h => rendering_branch h (show "BGE" ∉ unexaminedMnemonics by decide) rfl rfl rfl,
      fun _ _ _ h => rendering_branch h (show "BLTU" ∉ unexaminedMnemonics by decide) rfl rfl rfl,
      fun _ _ _ h => rendering_branch h (show "BGEU" ∉ unexaminedMnemonics by decide) rfl rfl rfl⟩

/-- The one line a running hart writes: its lead, the rendering of the fetched word, a comment. -/
theorem State.traceLines_of_running {s : State} (h : s.halted = false) :
    ∃ comment, s.traceLines =
      [Config.traceLead s.pc (s.readValue s.pc .word) ++
        render s.cfg.funct7Strict s.pc (s.readValue s.pc .word) ++ comment] := by
  obtain ⟨t, ht⟩ := execute_completes (s.readValue s.pc .word) s.afterFetch
  have hfetch : s.countInstruction.fetch = (s.readValue s.pc .word, s.afterFetch) := rfl
  refine ⟨Config.traceComment (s.readValue s.pc .word) s t, ?_⟩
  simp only [State.traceLines, h, Bool.false_eq_true, if_false, hfetch, ht]

theorem State.traceLines_of_halted {s : State} (h : s.halted = true) : s.traceLines = [] := if_pos h

/-- Settles O58: the outcome is the tick's by definition, and the line is that of the fetched word. -/
theorem traceHasNoEffect : Obligations.TraceHasNoEffect := by
  intro s
  refine ⟨fun _ => rfl, rfl, State.traceLines_of_halted, fun hrun hr => ?_, fun hrun hp hr => ?_⟩
  · rw [← fetchedWord_eq_wordAtPc hr]
    exact State.traceLines_of_running hrun
  · rw [← State.readValue_outOfRange (w := .word) hp hr]
    exact State.traceLines_of_running hrun

/-! ### Placing a word (log 23) -/

theorem State.readyToFetch_halted (s : State) : s.readyToFetch.halted = false := by
  unfold State.readyToFetch
  cases h : s.halted with
  | true => simp only [if_true]; split <;> rfl
  | false => simp only [Bool.false_eq_true, if_false]; split <;> exact h

/-- Placing a word is storing it, in range and so with no report. -/
theorem State.placeWord_eq_memWrite (s : State) (w : Word) :
    s.placeWord w = s.readyToFetch.memWrite s.readyToFetch.pc .word w := by
  have hr := s.readyToFetch_inRange
  rw [State.memWrite, storedCells_inRange (w := .word) w hr, accessReports_inRange (n := Width.word.bytes) .write hr,
    List.append_nil]
  rfl

theorem State.placeWord_halted (s : State) (w : Word) : (s.placeWord w).halted = false := s.readyToFetch_halted

theorem State.placeWord_inRange (s : State) (w : Word) : InRange (s.placeWord w).cfg (s.placeWord w).pc 4 :=
  s.readyToFetch_inRange

theorem State.wordAtPc_placeWord {s : State} (w : Word) (hm : Memory.wf s.cfg.memFill s.cfg.capacity s.mem) :
    WordAtPc (s.placeWord w) = w := by
  rw [← fetchedWord_eq_wordAtPc (.inl (s.placeWord_inRange w)), State.placeWord_eq_memWrite]
  exact State.readValue_memWrite_word w (State.readyToFetch_wf hm) s.readyToFetch_inRange

/-- Settles O59: the placed word is the word at `pc`, in range, and a running hart executes it after counting. -/
theorem placedWordIsTheNextToRun : Obligations.PlacedWordIsTheNextToRun := by
  intro s nbits w hs _
  have hword := State.wordAtPc_placeWord (BitVec.ofNat 32 (w % 2 ^ nbits)) hs.memory
  have hstep := step_eq_execute_wordAtPc (s.placeWord_halted (BitVec.ofNat 32 (w % 2 ^ nbits)))
    (s.placeWord_inRange _)
  rw [hword] at hstep
  exact ⟨s.placeWord_halted _, s.placeWord_inRange _, hword, hstep⟩

end Sys2Proof.Machine
